-- ==== Sys2Proof/Word.lean ====
section
/-! DEFINITION. The word types of the HUFF core (00_scope.md rules R7, R9, R10). -/

namespace Sys2Proof

/-- A symbol, or one byte of system memory (SYM_W = 8, R7). -/
abbrev Byte := BitVec 8

/-- A host-visible register or a frequency counter (REG_W = CNT_W = 32, R7). -/
abbrev Word := BitVec 32

/-- A byte address of system memory (ADDR_W = 32, R7); its arithmetic wraps (20_memory.md R91). -/
abbrev Addr := BitVec 32

/-- A byte offset in the 4096-byte register window (REG_WINDOW, R7). -/
abbrev Offset := BitVec 12

/-- A bit string, first bit first (R10): `true` is the bit 1. -/
abbrev Code := List Bool

end Sys2Proof
end

