-- ==== Sys2Proof/Config.lean ====
section
/-! DEFINITION. What is fixed for this block, and the free values. Constants: 00_scope.md R7.
A free value is an opaque constant: nothing can be proved of its value (log entry 9). -/

namespace Sys2Proof.Config

/-- The constant of the ID register (10_state.md R41). -/
def idValue : Word := 0x48460001#32

/-- The largest sum of all counters (TOTAL_MAX, 00_scope.md R7). -/
def totalMax : Nat := 2 ^ 32 - 1

/-- The longest code a table can hold (LEN_MAX, 00_scope.md R7). -/
def lenMax : Nat := 255

/-- The most distinct symbols (NSYM_MAX, 00_scope.md R7). -/
def nsymMax : Nat := 256

/-- Where the platform puts the register window (REG_BASE, 20_memory.md R97): a parameter, no value
(log entry 8). -/
opaque regBase : Addr

/-- The host-bus address of a register: the window's base plus its offset (20_memory.md R97). -/
def busAddress (off : Offset) : Addr := regBase + off.setWidth 32

/-- FREE VALUE: what draw `n` of an unspecified register read returns (40_command_protocol.md R161). -/
opaque freeWord : Nat → Word

/-- FREE VALUE: what draw `n` of an unspecified byte is, in a failed command's window (60_exceptions.md R317) or in a
host read of a device (70_reset_and_hazards.md R368). -/
opaque freeByte : Nat → Byte

end Sys2Proof.Config
end

