-- ==== Sys2Proof/Syntax.lean ====
section
/-! DEFINITION. What the host can ask of the block: the eight commands (one constructor per row of the
opcode table, 30_encoding.md R122), the registers by name (10_state.md R40), and the host's
actions, of which the register accesses are "the only other operations on the block" (30_encoding.md R120). -/

namespace Sys2Proof

/-- The commands (30_encoding.md R122). A command word carries no operand (R123). -/
inductive Instr where
  | clear | count | buildTree | genCodes | encode | serialize | parse | decode
deriving DecidableEq, Repr

/-- The decoder's answer: every 32-bit word is a command or illegal (30_encoding.md R125). -/
inductive Decoded where
  /-- The command whose word it is. -/
  | cmd (i : Instr)
  /-- A reserved OP, or RSVD not 0 (R124), with the word. -/
  | illegal (w : Word)
deriving DecidableEq, Repr

/-- The host-visible registers (10_state.md R40). -/
inductive Reg where
  | id | cmd | status | errCode | errInfo | irqEn | irqStat
  | srcAddr | srcLen | dstAddr | dstCap | outLen | bitcntLo | bitcntHi
  | nsym | total | tabNsym | maxlen | hdrSize | hdrLen
  | tabSel | tabFreq | tabLen | tabCode (k : Fin 8)
deriving DecidableEq, Repr

/-- The access classes (10_state.md R40, R65). -/
inductive RegClass where
  | ro | wo | rw | w1c
deriving DecidableEq, Repr

/-- What the host (or another agent) does in one step. -/
inductive HostAct where
  /-- A register read of `size` bytes at an offset (40_command_protocol.md R160). -/
  | regRead (off : Offset) (size : Nat)
  /-- A register write of `size` bytes at an offset (40_command_protocol.md R160, R162). -/
  | regWrite (off : Offset) (size : Nat) (v : Word)
  /-- A read of one byte of system memory by the host or another agent (20_memory.md R100). -/
  | memRead (a : Addr)
  /-- A write of one byte of system memory by the host or another agent (20_memory.md R100). -/
  | memWrite (a : Addr) (b : Byte)
  /-- The reset input is asserted (70_reset_and_hazards.md R350). -/
  | reset
deriving DecidableEq, Repr

/-- One step of the schedule: the host's action, if any, and whether the running command completes in
this step, after that action (40_command_protocol.md R170; 70_reset_and_hazards.md R370; log entry 3). -/
structure Beat where
  act : Option HostAct
  finish : Bool
deriving DecidableEq, Repr

/-- One line of a host program (30_encoding.md R150). The two forms that wait carry how many STATUS reads saw
BUSY = 1, a number the spec leaves open (70_reset_and_hazards.md R371). -/
inductive HostOp where
  /-- `WR REG, v`. -/
  | wr (r : Reg) (v : Word)
  /-- `RD REG`. -/
  | rd (r : Reg)
  /-- `CMD OP`. -/
  | cmd (i : Instr)
  /-- `CMDW v`. -/
  | cmdw (w : Word)
  /-- `WAIT`. -/
  | wait (busyReads : Nat)
  /-- `RUN OP`. -/
  | run (i : Instr) (busyReads : Nat)
  /-- `ACK`. -/
  | ack
  /-- `MEM addr: b0 b1 ...`. -/
  | mem (a : Addr) (bytes : List Byte)
deriving DecidableEq, Repr

end Sys2Proof
end

