-- ==== Sys2Proof/WellFormed.lean ====
section
/-! DEFINITION. Which terms are well formed. A command has no operand, so each of the eight is
(30_encoding.md R123); a register access must be an aligned 32-bit word access (20_memory.md R96). -/

namespace Sys2Proof

/-- Every command is well formed: it carries no field that could be wrong (30_encoding.md R123). -/
def Instr.wellFormed : Instr → Bool
  | .clear | .count | .buildTree | .genCodes | .encode | .serialize | .parse | .decode => true

/-- Check 1: a register access moves one 32-bit word (20_memory.md R96). -/
def isWordSize (size : Nat) : Bool := size == 4

/-- Check 2: a register access is at a multiple of 4 (20_memory.md R96). -/
def isWordAligned (off : Offset) : Bool := off.toNat % 4 == 0

/-- A host action the block's interface is defined for (20_memory.md R96; 93_implementation_defined.md U1). -/
def HostAct.wellFormed : HostAct → Bool
  | .regRead off size => isWordSize size && isWordAligned off
  | .regWrite off size _ => isWordSize size && isWordAligned off
  | .memRead _ => true
  | .memWrite _ _ => true
  | .reset => true

end Sys2Proof
end

