-- ==== Sys2Proof/Decode.lean ====
section
/-! DEFINITION. Decoding and encoding: command words (30_encoding.md R120 to R125) and register offsets
(10_state.md R40). -/

namespace Sys2Proof

/-- OP, bits [3:0] (30_encoding.md R121). -/
def opField (w : Word) : BitVec 4 := w.extractLsb' 0 4

/-- RSVD, bits [31:4] (30_encoding.md R121). -/
def rsvdField (w : Word) : BitVec 28 := w.extractLsb' 4 28

/-- The opcode map (30_encoding.md R122); the reserved values select nothing (R124). -/
def commandOfOp (op : BitVec 4) : Option Instr :=
  match op.toNat with
  | 1 => some .clear
  | 2 => some .count
  | 3 => some .buildTree
  | 4 => some .genCodes
  | 5 => some .encode
  | 6 => some .serialize
  | 7 => some .parse
  | 8 => some .decode
  | _ => none

/-- Decoding is total (30_encoding.md R125): a listed word with RSVD = 0, or illegal. -/
def decode (w : Word) : Decoded :=
  if rsvdField w = 0#28 then
    match commandOfOp (opField w) with
    | some i => .cmd i
    | none => .illegal w
  else .illegal w

/-- The value of OP of each command (30_encoding.md R122). -/
def opcode : Instr → BitVec 4
  | .clear => 1#4
  | .count => 2#4
  | .buildTree => 3#4
  | .genCodes => 4#4
  | .encode => 5#4
  | .serialize => 6#4
  | .parse => 7#4
  | .decode => 8#4

/-- The 32-bit word of each command: RSVD = 0 above OP (30_encoding.md R121, R122). -/
def encode (i : Instr) : Word := 0#28 ++ opcode i

/-- The word that `nbits` table bits `w` stand for: one 32-bit word, its bit 0 the table's bit 0. -/
def tableWord (nbits w : Nat) : Word := BitVec.ofNat 32 (w % 2 ^ nbits)

/-- What the decoder reads from a table row's bits. -/
def decodeTableWord (nbits w : Nat) : Option Instr :=
  match decode (tableWord nbits w) with
  | .cmd i => some i
  | .illegal _ => none

/-- The offset of each register (10_state.md R40). -/
def Reg.offset : Reg → Offset
  | .id => 0x000#12
  | .cmd => 0x004#12
  | .status => 0x008#12
  | .errCode => 0x00C#12
  | .errInfo => 0x010#12
  | .irqEn => 0x014#12
  | .irqStat => 0x018#12
  | .srcAddr => 0x01C#12
  | .srcLen => 0x020#12
  | .dstAddr => 0x024#12
  | .dstCap => 0x028#12
  | .outLen => 0x02C#12
  | .bitcntLo => 0x030#12
  | .bitcntHi => 0x034#12
  | .nsym => 0x038#12
  | .total => 0x03C#12
  | .tabNsym => 0x040#12
  | .maxlen => 0x044#12
  | .hdrSize => 0x048#12
  | .hdrLen => 0x04C#12
  | .tabSel => 0x050#12
  | .tabFreq => 0x054#12
  | .tabLen => 0x058#12
  | .tabCode k => BitVec.ofNat 12 (0x060 + 4 * k.val)

/-- The register at an offset; `none` is a reserved offset (10_state.md R40, R64). -/
def regAt (off : Offset) : Option Reg :=
  match off.toNat with
  | 0x000 => some .id
  | 0x004 => some .cmd
  | 0x008 => some .status
  | 0x00C => some .errCode
  | 0x010 => some .errInfo
  | 0x014 => some .irqEn
  | 0x018 => some .irqStat
  | 0x01C => some .srcAddr
  | 0x020 => some .srcLen
  | 0x024 => some .dstAddr
  | 0x028 => some .dstCap
  | 0x02C => some .outLen
  | 0x030 => some .bitcntLo
  | 0x034 => some .bitcntHi
  | 0x038 => some .nsym
  | 0x03C => some .total
  | 0x040 => some .tabNsym
  | 0x044 => some .maxlen
  | 0x048 => some .hdrSize
  | 0x04C => some .hdrLen
  | 0x050 => some .tabSel
  | 0x054 => some .tabFreq
  | 0x058 => some .tabLen
  | 0x060 => some (.tabCode 0)
  | 0x064 => some (.tabCode 1)
  | 0x068 => some (.tabCode 2)
  | 0x06C => some (.tabCode 3)
  | 0x070 => some (.tabCode 4)
  | 0x074 => some (.tabCode 5)
  | 0x078 => some (.tabCode 6)
  | 0x07C => some (.tabCode 7)
  | _ => none

/-- The access class of each register (10_state.md R40). -/
def Reg.access : Reg → RegClass
  | .cmd => .wo
  | .irqStat => .w1c
  | .irqEn | .srcAddr | .srcLen | .dstAddr | .dstCap | .bitcntLo | .bitcntHi | .tabSel => .rw
  | .id | .status | .errCode | .errInfo | .outLen | .nsym | .total | .tabNsym | .maxlen
  | .hdrSize | .hdrLen | .tabFreq | .tabLen | .tabCode _ => .ro

/-- The registers whose whole value is unspecified while BUSY = 1 (40_command_protocol.md R161; of STATUS
only two bits are, see `Machine.readStatusBusy`). -/
def Reg.unspecifiedWhileBusy : Reg → Bool
  | .outLen | .bitcntLo | .bitcntHi | .nsym | .total | .tabNsym | .maxlen | .hdrSize | .hdrLen
  | .tabFreq | .tabLen | .tabCode _ => true
  | .id | .cmd | .status | .errCode | .errInfo | .irqEn | .irqStat | .srcAddr | .srcLen
  | .dstAddr | .dstCap | .tabSel => false

end Sys2Proof
end

