-- ==== Sys2Proof/Machine/State.lean ====
section
/-! DEFINITION. The state of the block (10_state.md R30, R81), the memory and platform it reaches, the
schedule of the agents, and the ways a step can stop. -/

namespace Sys2Proof.Machine

/-- Why a step stops where the spec says a model faults. -/
inductive Fault where
  /-- ENCODE or DECODE with a source and a destination window that share an address, raised at the command's
  acceptance and by its meaning (20_memory.md R105; 70_reset_and_hazards.md R363). Safe. -/
  | windowOverlap
  /-- A host memory access at this address, into a window of the running command, raised by the host's step
  (70_reset_and_hazards.md R362). Safe. -/
  | windowRace (a : Addr)
  /-- COUNT, ENCODE, PARSE or DECODE reading this source address, which maps a device: a read with side effects,
  raised by the command's meaning (20_memory.md R98; 70_reset_and_hazards.md R368; 93_implementation_defined.md U7;
  log entry 7). Safe. -/
  | sourceDevice (a : Addr)
deriving DecidableEq, Repr

/-- Why a step is refused. -/
inductive Refusal where
  /-- No meaning for the instruction yet: raised by an arm of `exec`. Safe. -/
  | notModelled (mnemonic : String)
  /-- A register access that is not an aligned 32-bit word access, raised by the host's step
  (20_memory.md R96; 93_implementation_defined.md U1). Safe. -/
  | badRegisterAccess (off : Offset) (size : Nat)
deriving DecidableEq, Repr

/-- The error codes (60_exceptions.md R311). Codes 0x0D..0xFF are never produced and have no name. -/
inductive ErrCode where
  | success | emptyAlphabet | treeConstructionFailure | noTree | unknownSymbol | headerParse
  | headerIntegrity | truncatedStream | illegalCommand | noTable | dstOverflow | countOverflow | busError
deriving DecidableEq, Repr

/-- The tree of BUILD_TREE (10_state.md R75). Weights are exact numbers (log entry 19). -/
inductive Tree where
  | leaf (sym : Byte) (weight : Nat)
  | node (weight key : Nat) (left right : Tree)
deriving DecidableEq, Repr

/-- Addresses `base .. base + size - 1`, modulo 2^32. -/
structure Region where
  base : Addr
  size : Nat
deriving DecidableEq, Repr

/-- The platform's parameters (00_scope.md R7 BusOk; 70_reset_and_hazards.md R368), plain data (log entries 6, 7). -/
structure Platform where
  /-- Where a one-byte read by the master ends in a bus error: BusOk(a, read) is false. -/
  noRead : List Region
  /-- Where a one-byte write by the master ends in a bus error: BusOk(a, write) is false. -/
  noWrite : List Region
  /-- Where the address maps a device and not memory. -/
  device : List Region
deriving DecidableEq, Repr

/-- System memory: listed cells, addresses strictly rising, none equal to what an unlisted address reads as. -/
abbrev Memory := List Host.Cell

/-- What an unlisted address reads as (DESIGN CHOICE, unsafe, log entry 5). -/
def unlistedByte : Byte := 0x00#8

/-- The state. -/
structure State where
  /-- The accepted command, while BUSY = 1; `none` is BUSY = 0 (10_state.md R43, R78, R81). -/
  running : Option Instr
  /-- STATUS.LAST_OP (10_state.md R43). -/
  lastOp : BitVec 4
  /-- ERR_CODE (10_state.md R44). -/
  errCode : ErrCode
  /-- ERR_INFO (10_state.md R45). -/
  errInfo : Word
  /-- IRQ_EN: bit 0 DONE_EN, 1 ERR_EN, 2 DROP_EN (10_state.md R46). -/
  irqEn : BitVec 3
  /-- IRQ_STAT: bit 0 DONE, 1 ERR, 2 DROP (10_state.md R47). -/
  irqStat : BitVec 3
  /-- SRC_ADDR (10_state.md R48). -/
  srcAddr : Addr
  /-- SRC_LEN (10_state.md R49). -/
  srcLen : Word
  /-- DST_ADDR (10_state.md R50). -/
  dstAddr : Addr
  /-- DST_CAP (10_state.md R51). -/
  dstCap : Word
  /-- OUT_LEN (10_state.md R52). -/
  outLen : Word
  /-- BITCNT, BITCNT_HI above BITCNT_LO (10_state.md R53). -/
  bitcnt : BitVec 64
  /-- HDR_LEN (10_state.md R59). -/
  hdrLen : Word
  /-- TAB_SEL (10_state.md R60). -/
  tabSel : Byte
  /-- FREQ (10_state.md R71). -/
  freq : Vector Word 256
  /-- CODE; CODE_LEN[s] is the length of CODE[s] (10_state.md R70, R72(a); log entry 13). -/
  code : Vector Code 256
  /-- TREE; TREE_VALID is `some` (10_state.md R75, R76; log entry 14). -/
  tree : Option Tree
  /-- System memory (10_state.md R80 item 2), one coherent memory for every agent (log entry 24). At a device's
  address, the last byte written there, which no read returns (log entry 7). -/
  mem : Memory
  /-- The platform's parameters (00_scope.md R7). -/
  platform : Platform
  /-- MODEL's field: the host's transactions and the schedule still to come (log entry 1). -/
  beats : List Beat
  /-- MODEL's field: what the host's last read returned (log entry 10). -/
  rdata : Word
  /-- MODEL's field: how many free values have been drawn (log entry 9). -/
  draws : Nat
deriving DecidableEq, Repr

/-- FREQ with every counter 0 (70_reset_and_hazards.md R351). -/
def zeroFreq : Vector Word 256 := Vector.replicate 256 0#32

/-- The empty code table: every CODE[s] = "" (70_reset_and_hazards.md R351). -/
def emptyTable : Vector Code 256 := Vector.replicate 256 []

/-- The machine right after reset (70_reset_and_hazards.md R351): "Nothing is left unspecified by reset".
`mem`, `platform`, `beats`, `rdata` and `draws` are not the block's state (log entries 5, 6, 9, 10, 11). -/
def State.reset : State where
  running := none
  lastOp := 0#4
  errCode := .success
  errInfo := 0#32
  irqEn := 0#3
  irqStat := 0#3
  srcAddr := 0#32
  srcLen := 0#32
  dstAddr := 0#32
  dstCap := 0#32
  outLen := 0#32
  bitcnt := 0#64
  hdrLen := 0#32
  tabSel := 0#8
  freq := zeroFreq
  code := emptyTable
  tree := none
  mem := []
  platform := { noRead := [], noWrite := [], device := [] }
  beats := []
  rdata := 0#32
  draws := 0

end Sys2Proof.Machine
end

