-- ==== Sys2Proof/Machine/Ops.lean ====
section
/-! DEFINITION. The shared operations: bits and bytes, tables, memory, the bus master, and how a command
ends (completion, error, acknowledgement). -/

namespace Sys2Proof.Machine

/-! ### Bits and bytes (00_scope.md R10, R11, R12) -/

/-- `ceil8(n) = (n + 7) div 8` (R11). -/
def ceil8 (n : Nat) : Nat := (n + 7) / 8

/-- The first `n` bits of a bit string as a number, first bit most significant, missing bits 0 (R11). -/
def natOfBits : Nat → Code → Nat
  | 0, _ => 0
  | n + 1, bs => (bs.headD false).toNat * 2 ^ n + natOfBits n bs.tail

/-- The byte whose bit 7 - k is bit k of the string, and 0 past its end (R11). -/
def byteOfBits (bs : Code) : Byte := BitVec.ofNat 8 (natOfBits 8 bs)

/-- The 8 bits of a byte, most significant first (R11). -/
def byteBits (b : Byte) : Code := (List.range 8).map fun k => b.getLsbD (7 - k)

/-- `pack(c)`: the ceil8(|c|) bytes that hold `c` MSB-first, padded with 0 (R11). -/
def pack (c : Code) : List Byte := (List.range (ceil8 c.length)).map fun j => byteOfBits (c.drop (8 * j))

/-- `unpack(bytes, n)`: the first `n` bits of the bytes (R11). -/
def unpack (bytes : List Byte) (n : Nat) : Code := (bytes.flatMap byteBits).take n

/-- `v[i] <- bit` (R9). -/
def setBit (v : Byte) (i : Nat) (bit : Bool) : Byte :=
  if bit then v ||| (1#8 <<< i) else v &&& ~~~(1#8 <<< i)

/-- The `n` bytes of `v`, most significant first: `bytes_be16`, `bytes_be64` (R12). -/
def beBytes (n v : Nat) : List Byte := (List.range n).map fun i => BitVec.ofNat 8 (v / 256 ^ (n - 1 - i))

/-- The number whose bytes these are, most significant first: `be16`, `be64` (R12). -/
def beValue (bytes : List Byte) : Nat := bytes.foldl (fun acc b => acc * 256 + b.toNat) 0

/-! ### Tables indexed by symbol (10_state.md R70, R71) -/

/-- The 256 symbols in ascending order (irreducible, so that proofs do not unfold it by accident). -/
@[irreducible] def symbols : List Byte := (List.range 256).map fun n => BitVec.ofNat 8 n

/-- `T[s]`. -/
def tabGet {α : Type} (t : Vector α 256) (s : Byte) : α := t[s.toNat]'s.isLt

/-- `T[s] <- x`. -/
def tabSet {α : Type} (t : Vector α 256) (s : Byte) (x : α) : Vector α 256 := t.set s.toNat x s.isLt

/-- The rows (s, T[s]) of a table, in ascending symbol order. -/
def rows {α : Type} (t : Vector α 256) : List (Byte × α) := symbols.zip t.toList

/-! ### System memory (10_state.md R80 item 2) -/

/-- The canonical form: addresses below 2^32 and strictly rising, no cell equal to an unlisted byte. -/
def Memory.wf : Memory → Bool
  | [] => true
  | [(a, b)] => decide (a < 2 ^ 32) && decide (b ≠ unlistedByte)
  | (a, b) :: (a', b') :: m => decide (a < a') && decide (b ≠ unlistedByte) && Memory.wf ((a', b') :: m)

/-- The byte at an address. -/
def memRead : Memory → Nat → Byte
  | [], _ => unlistedByte
  | (k, v) :: m, a => if k = a then v else memRead m a

/-- Store a byte, keeping the canonical form. -/
def memWrite : Memory → Nat → Byte → Memory
  | [], a, b => if b = unlistedByte then [] else [(a, b)]
  | (k, v) :: m, a, b =>
    if a < k then (if b = unlistedByte then (k, v) :: m else (a, b) :: (k, v) :: m)
    else if k = a then (if b = unlistedByte then m else (a, b) :: m)
    else (k, v) :: memWrite m a b

/-! ### Windows (20_memory.md R91, R105) -/

/-- The address of offset `i` in the window at `base`, modulo 2^ADDR_W (R91). -/
def winAddr (base : Addr) (i : Nat) : Addr := base + BitVec.ofNat 32 i

/-- The address lies in the window of `len` bytes at `base` (R91). -/
def inWindow (base : Addr) (len : Nat) (a : Addr) : Bool := decide ((a - base).toNat < len)

/-- Two windows share an address (R105): neither is empty, and one starts inside the other. -/
def windowsOverlap (base₁ : Addr) (len₁ : Nat) (base₂ : Addr) (len₂ : Nat) : Bool :=
  decide (0 < len₁) && decide (0 < len₂) && (inWindow base₁ len₁ base₂ || inWindow base₂ len₂ base₁)

/-! ### The bus master (20_memory.md R90 to R95; 60_exceptions.md R312) -/

/-- The direction of an access. -/
inductive Dir where
  | read | write
deriving DecidableEq, Repr

/-- The address lies in a region. -/
def Region.has (r : Region) (a : Addr) : Bool := inWindow r.base r.size a

/-- The platform predicate BusOk(a, dir) (00_scope.md R7). -/
def Platform.busOk (p : Platform) (d : Dir) (a : Addr) : Bool :=
  match d with
  | .read => !p.noRead.any (·.has a)
  | .write => !p.noWrite.any (·.has a)

/-- The address maps a device, not memory (70_reset_and_hazards.md R368). -/
def Platform.isDevice (p : Platform) (a : Addr) : Bool := p.device.any (·.has a)

/-- A read by the master at this address returns a byte of memory: BusOk holds, and no device is there. -/
def Platform.readable (p : Platform) (a : Addr) : Bool := p.busOk .read a && !p.isDevice a

/-- What ends a command before its last line: `raise E(info)`, or a read of a device. -/
inductive Stop where
  | err (e : ErrCode) (info : Word)
  | device (a : Addr)
deriving DecidableEq, Repr

/-- `MemRead(a, 1)` (00_scope.md R12): a bus error where BusOk is false (60_exceptions.md R312), and a stop at a device
(20_memory.md R98; 93_implementation_defined.md U7). -/
def busRead (p : Platform) (m : Memory) (a : Addr) : Except Stop Byte :=
  if p.busOk .read a then
    if p.isDevice a then .error (.device a) else .ok (memRead m a.toNat)
  else .error (.err .busError a)

/-- `MemWrite(a, 1, b)` (00_scope.md R12): a failed write changes nothing (60_exceptions.md R312). A write to a device
is performed like any other; what the device does with the byte is outside the spec (70_reset_and_hazards.md R368). -/
def busWrite (p : Platform) (m : Memory) (a : Addr) (b : Byte) : Except Stop Memory :=
  if p.busOk .write a then .ok (memWrite m a.toNat b) else .error (.err .busError a)

/-- Give each of `n` bytes at `base` the free value of its draw, `draw + offset` (60_exceptions.md R317). -/
def drawWindow (base : Addr) (draw : Nat) : Nat → Memory → Memory
  | 0, m => m
  | n + 1, m => drawWindow base draw n (memWrite m (winAddr base n).toNat (Config.freeByte (draw + n)))

/-- The destination window becomes unspecified: one draw per byte (60_exceptions.md R317; U3, U4). -/
def freeDst (s : State) : State :=
  { s with
    mem := drawWindow s.dstAddr s.draws s.dstCap.toNat s.mem
    draws := s.draws + s.dstCap.toNat }

/-! ### How a command starts and ends (40_command_protocol.md R164, R167, R168) -/

/-- IRQ_STAT.DONE (10_state.md R47). -/
def irqDone : BitVec 3 := 1#3
/-- IRQ_STAT.ERR (10_state.md R47). -/
def irqErr : BitVec 3 := 2#3
/-- IRQ_STAT.DROP (10_state.md R47). -/
def irqDrop : BitVec 3 := 4#3

/-- The register part of an acceptance: LAST_OP, ERR_CODE and ERR_INFO (R164). BUSY is `running`. -/
def markAccepted (w : Word) (s : State) : State :=
  { s with lastOp := opField w, errCode := .success, errInfo := 0#32 }

/-- `complete()` (R167). -/
def complete (s : State) : State :=
  { s with errCode := .success, errInfo := 0#32, irqStat := s.irqStat ||| irqDone, running := none }

/-- `raise E(info)` (R168): taking an error, the block's only exception (60_exceptions.md R323). The error
effects of the command's own rule are already in `s`. -/
def raiseError (e : ErrCode) (info : Word) (s : State) : State :=
  { s with
    outLen := 0#32
    errCode := e
    errInfo := info
    irqStat := s.irqStat ||| irqDone ||| irqErr
    running := none }

/-- The host's acknowledgement, a W1C write to IRQ_STAT (10_state.md R47): all there is of a return
(60_exceptions.md R324). -/
def ackIrq (v : Word) (s : State) : State :=
  { s with irqStat := s.irqStat &&& ~~~(v.extractLsb' 0 3) }

/-- A command ends early: the error is raised, or the read of a device faults (93_implementation_defined.md U7). -/
def stopCommand (stop : Stop) (s : State) : Host.Outcome State Fault Refusal :=
  match stop with
  | .err e info => .next (raiseError e info s)
  | .device a => .fault (.sourceDevice a)

end Sys2Proof.Machine
end

