-- ==== Sys2Proof/Machine/Operands.lean ====
section
/-! DEFINITION. The operand forms: each command's operands are registers and tables fixed by its opcode
(30_encoding.md R123). The source and destination windows, the table views, and the derived
registers (10_state.md R54 to R63). -/

namespace Sys2Proof.Machine

/-! ### Windows of the operand registers (20_memory.md R91) -/

/-- Address of source offset `i`. -/
def State.src (s : State) (i : Nat) : Addr := winAddr s.srcAddr i

/-- Address of destination offset `i`. -/
def State.dst (s : State) (i : Nat) : Addr := winAddr s.dstAddr i

/-- The address lies in the source window. -/
def State.inSrc (s : State) (a : Addr) : Bool := inWindow s.srcAddr s.srcLen.toNat a

/-- The address lies in the destination window. -/
def State.inDst (s : State) (a : Addr) : Bool := inWindow s.dstAddr s.dstCap.toNat a

/-- The command reads its source window (30_encoding.md R123; 20_memory.md R92). -/
def readsSrc : Instr → Bool
  | .count | .encode | .parse | .decode => true
  | .clear | .buildTree | .genCodes | .serialize => false

/-- The command writes its destination window (30_encoding.md R123; 20_memory.md R93). -/
def writesDst : Instr → Bool
  | .encode | .serialize | .decode => true
  | .clear | .count | .buildTree | .genCodes | .parse => false

/-- The overlap hazard of a command with both windows (20_memory.md R105; 70_reset_and_hazards.md R363). -/
def overlapHazard (i : Instr) (s : State) : Bool :=
  readsSrc i && writesDst i && windowsOverlap s.srcAddr s.srcLen.toNat s.dstAddr s.dstCap.toNat

/-! ### The tables -/

/-- FREQ[x] (10_state.md R71). -/
def State.freqOf (s : State) (x : Byte) : Word := tabGet s.freq x

/-- CODE[x] (10_state.md R70). -/
def State.codeOf (s : State) (x : Byte) : Code := tabGet s.code x

/-- CODE_LEN[x], 0 when x has no entry (10_state.md R70, R72(a)). -/
def State.codeLen (s : State) (x : Byte) : Nat := (s.codeOf x).length

/-- The table entries in ascending symbol order (00_scope.md R14, 44_header.md R261). -/
def entriesOf (code : Vector Code 256) : List (Byte × Code) :=
  (rows code).filter fun e => !e.2.isEmpty

/-- The entries of the state's table. -/
def State.entries (s : State) : List (Byte × Code) := entriesOf s.code

/-! ### The derived registers -/

/-- NSYM: the symbols with a nonzero count (10_state.md R54). -/
def State.nsym (s : State) : Nat := ((rows s.freq).filter fun e => e.2 != 0#32).length

/-- TOTAL: the sum of the counts (10_state.md R55). -/
def State.total (s : State) : Nat := ((rows s.freq).map fun e => e.2.toNat).sum

/-- TAB_NSYM: the number of table entries (10_state.md R56). -/
def State.tabNsym (s : State) : Nat := s.entries.length

/-- The longest of these codes. -/
def maxLenOf (es : List (Byte × Code)) : Nat := es.foldl (fun n e => max n e.2.length) 0

/-- MAXLEN: the longest code's length, 0 when the table is empty (10_state.md R57). -/
def State.maxlen (s : State) : Nat := maxLenOf s.entries

/-- The bytes of one header entry: symbol, length, code bits (30_encoding.md R143). -/
def entrySize (c : Code) : Nat := 2 + ceil8 c.length

/-- HDR_SIZE (10_state.md R58). -/
def State.hdrSize (s : State) : Nat :=
  if s.tabNsym = 0 then 0 else 2 + (s.entries.map fun e => entrySize e.2).sum + 8

/-- TAB_FREQ (10_state.md R61). -/
def State.tabFreq (s : State) : Word := s.freqOf s.tabSel

/-- TAB_LEN (10_state.md R62). -/
def State.tabLen (s : State) : Nat := s.codeLen s.tabSel

/-- TAB_CODEk: code bits 32k .. 32k+31, the first in bit 31, 0 past the end (10_state.md R63). -/
def State.tabCode (s : State) (k : Nat) : Word :=
  BitVec.ofNat 32 (natOfBits 32 ((s.codeOf s.tabSel).drop (32 * k)))

end Sys2Proof.Machine
end

