-- ==== Sys2Proof/Machine/Flags.lean ====
section
/-! DEFINITION. The flags (10_state.md R34): STATUS, the error code's value, and the interrupt output. -/

namespace Sys2Proof.Machine

/-- The value of ERR_CODE bits [7:0] (60_exceptions.md R311). -/
def ErrCode.value : ErrCode → Byte
  | .success => 0x00#8
  | .emptyAlphabet => 0x01#8
  | .treeConstructionFailure => 0x02#8
  | .noTree => 0x03#8
  | .unknownSymbol => 0x04#8
  | .headerParse => 0x05#8
  | .headerIntegrity => 0x06#8
  | .truncatedStream => 0x07#8
  | .illegalCommand => 0x08#8
  | .noTable => 0x09#8
  | .dstOverflow => 0x0A#8
  | .countOverflow => 0x0B#8
  | .busError => 0x0C#8

/-- STATUS.BUSY (10_state.md R43). -/
def State.busy (s : State) : Bool := s.running.isSome

/-- STATUS.ERR: ERR_CODE != 0 (10_state.md R43). -/
def State.errFlag (s : State) : Bool := s.errCode.value != 0x00#8

/-- STATUS.TREE_VALID (10_state.md R76). -/
def State.treeValid (s : State) : Bool := s.tree.isSome

/-- STATUS.TABLE_VALID: TAB_NSYM != 0 (10_state.md R56). -/
def State.tableValid (s : State) : Bool := s.tabNsym != 0

/-- The STATUS word from its fields: LAST_OP in [7:4], then TABLE_VALID, TREE_VALID, ERR, BUSY (10_state.md R43). -/
def statusWord (lastOp : BitVec 4) (tableValid treeValid err busy : Bool) : Word :=
  0#24 ++ lastOp ++ BitVec.ofBool tableValid ++ BitVec.ofBool treeValid ++ BitVec.ofBool err ++ BitVec.ofBool busy

/-- STATUS, every bit exact (10_state.md R43). -/
def State.status (s : State) : Word :=
  statusWord s.lastOp s.tableValid s.treeValid s.errFlag s.busy

/-- The interrupt output (60_exceptions.md R320): some bit is pending and enabled. -/
def State.irq (s : State) : Bool :=
  (s.irqStat.getLsbD 0 && s.irqEn.getLsbD 0) || (s.irqStat.getLsbD 1 && s.irqEn.getLsbD 1)
    || (s.irqStat.getLsbD 2 && s.irqEn.getLsbD 2)

end Sys2Proof.Machine
end

