-- ==== Sys2Proof/Machine/Frequency.lean ====
section
/-! DEFINITION. CLEAR and COUNT (41_frequency.md). -/

namespace Sys2Proof.Machine

/-- CLEAR (41_frequency.md R190, R191). -/
def execClear (s : State) : Host.Outcome State Fault Refusal :=
  .next (complete
    { s with
      freq := zeroFreq
      code := emptyTable
      tree := none
      bitcnt := 0#64
      hdrLen := 0#32
      outLen := 0#32 })

/-- FREQ[x] <- FREQ[x] + 1 (41_frequency.md R195). -/
def bumpFreq (f : Vector Word 256) (x : Byte) : Vector Word 256 := tabSet f x (tabGet f x + 1#32)

/-- The counting loop over `n` more source bytes from offset `i`: the counters it leaves, and what stopped it
if it did not reach the end (41_frequency.md R195, R198). -/
def countLoop (s : State) : Nat → Nat → Vector Word 256 → Vector Word 256 × Option Stop
  | 0, _, f => (f, none)
  | n + 1, i, f =>
    match busRead s.platform s.mem (s.src i) with
    | .ok x => countLoop s n (i + 1) (bumpFreq f x)
    | .error stop => (f, some stop)

/-- COUNT (41_frequency.md R195, R197, R198). -/
def execCount (s : State) : Host.Outcome State Fault Refusal :=
  if s.total + s.srcLen.toNat > Config.totalMax then
    .next (raiseError .countOverflow 0#32 s)
  else
    match countLoop s s.srcLen.toNat 0 s.freq with
    | (f, none) => .next (complete { s with tree := none, freq := f, outLen := 0#32 })
    | (f, some stop) => stopCommand stop { s with tree := none, freq := f }

end Sys2Proof.Machine
end

