-- ==== Sys2Proof/Machine/Header.lean ====
section
/-! DEFINITION. SERIALIZE and PARSE, the header codec (44_header.md; layout 30_encoding.md R140 to R148). -/

namespace Sys2Proof.Machine

/-! ### SERIALIZE -/

/-- One entry: symbol value, code length, packed code (30_encoding.md R143, R144). -/
def entryBytes (e : Byte × Code) : List Byte := e.1 :: BitVec.ofNat 8 e.2.length :: pack e.2

/-- The header of a list of entries and a bit count: 16-bit symbol count, entries, 64-bit total, the
integers big-endian (30_encoding.md R140, R142, R145). -/
def headerBytes (es : List (Byte × Code)) (total : Nat) : List Byte :=
  beBytes 2 es.length ++ es.flatMap entryBytes ++ beBytes 8 total

/-- `emit(b)` for each byte, from destination offset `p` (44_header.md R260). -/
def emitBytes (s : State) : List Byte → Nat → Memory → Except Stop Memory
  | [], _, m => .ok m
  | b :: bs, p, m =>
    match busWrite s.platform m (s.dst p) b with
    | .ok m' => emitBytes s bs (p + 1) m'
    | .error stop => .error stop

/-- SERIALIZE (44_header.md R260 to R263). -/
def execSerialize (s : State) : Host.Outcome State Fault Refusal :=
  if s.tabNsym = 0 then
    .next (raiseError .noTable 0#32 (freeDst s))
  else if s.hdrSize > s.dstCap.toNat then
    .next (raiseError .dstOverflow 0#32 (freeDst s))
  else
    match emitBytes s (headerBytes s.entries s.bitcnt.toNat) 0 s.mem with
    | .ok m => .next (complete { s with mem := m, outLen := BitVec.ofNat 32 s.hdrSize })
    | .error stop => stopCommand stop (freeDst s)

/-! ### PARSE -/

/-- `byte()`: the header byte at offset `p` and the next offset (44_header.md R270, R271). -/
def hdrByte (s : State) (p : Nat) : Except Stop (Byte × Nat) :=
  if p ≥ s.srcLen.toNat then
    .error (.err .headerParse (BitVec.ofNat 32 p))
  else
    match busRead s.platform s.mem (s.src p) with
    | .ok b => .ok (b, p + 1)
    | .error stop => .error stop

/-- `n` header bytes from offset `p`, and the next offset. -/
def hdrBytes (s : State) : Nat → Nat → Except Stop (List Byte × Nat)
  | 0, p => .ok ([], p)
  | n + 1, p =>
    match hdrByte s p with
    | .error stop => .error stop
    | .ok (b, p₁) =>
      match hdrBytes s n p₁ with
      | .error stop => .error stop
      | .ok (bs, p₂) => .ok (b :: bs, p₂)

/-- Entry (x, c) conflicts with an earlier one: the symbol repeats, or one code is a prefix of the other
(44_header.md R272). -/
def conflicts (es : List (Byte × Code)) (x : Byte) (c : Code) : Bool :=
  es.any fun e => e.1 == x || e.2.isPrefixOf c || c.isPrefixOf e.2

/-- Entry `j`, after the entries `es`, from offset `p`: the entry and the next offset (44_header.md R270 to R273). -/
def parseEntry (s : State) (j : Nat) (es : List (Byte × Code)) (p : Nat) :
    Except Stop ((Byte × Code) × Nat) :=
  match hdrByte s p with
  | .error stop => .error stop
  | .ok (x, p₁) =>
    match hdrByte s p₁ with
    | .error stop => .error stop
    | .ok (len, p₂) =>
      if len = 0#8 then
        .error (.err .headerParse (BitVec.ofNat 32 p₁))
      else
        match hdrBytes s (ceil8 len.toNat) p₂ with
        | .error stop => .error stop
        | .ok (bytes, p₃) =>
          if conflicts es x (unpack bytes len.toNat) then
            .error (.err .headerIntegrity (BitVec.ofNat 32 j))
          else
            .ok ((x, unpack bytes len.toNat), p₃)

/-- `n` more entries, the next one numbered `j` (44_header.md R270). -/
def parseEntries (s : State) : Nat → Nat → List (Byte × Code) → Nat →
    Except Stop (List (Byte × Code) × Nat)
  | 0, _, es, p => .ok (es, p)
  | n + 1, j, es, p =>
    match parseEntry s j es p with
    | .error stop => .error stop
    | .ok (e, p') => parseEntries s n (j + 1) (es ++ [e]) p'

/-- What PARSE finds: the entries, the total bit count, the header's length. -/
structure Header where
  entries : List (Byte × Code)
  total : Nat
  len : Nat
deriving DecidableEq, Repr

/-- The three fields of the header, in order (44_header.md R270). -/
def parseHeader (s : State) : Except Stop Header :=
  match hdrBytes s 2 0 with
  | .error stop => .error stop
  | .ok (countBytes, p) =>
    if beValue countBytes = 0 ∨ beValue countBytes > Config.nsymMax then
      .error (.err .headerParse 0#32)
    else
      match parseEntries s (beValue countBytes) 0 [] p with
      | .error stop => .error stop
      | .ok (es, p') =>
        match hdrBytes s 8 p' with
        | .error stop => .error stop
        | .ok (totalBytes, p'') => .ok { entries := es, total := beValue totalBytes, len := p'' }

/-- `for (s, c) in E: CODE[s] <- c`, on the emptied table (44_header.md R270). -/
def tableOf (es : List (Byte × Code)) : Vector Code 256 :=
  es.foldl (fun t e => tabSet t e.1 e.2) emptyTable

/-- PARSE (44_header.md R270 to R277): the old table is lost even when the header is rejected (R275). -/
def execParse (s : State) : Host.Outcome State Fault Refusal :=
  match parseHeader s with
  | .ok h =>
    .next (complete
      { s with
        code := tableOf h.entries
        bitcnt := BitVec.ofNat 64 h.total
        hdrLen := BitVec.ofNat 32 h.len
        outLen := 0#32 })
  | .error stop => stopCommand stop { s with code := emptyTable, hdrLen := 0#32 }

end Sys2Proof.Machine
end

