-- ==== Sys2Proof/Machine/Packing.lean ====
section
/-! DEFINITION. ENCODE, the bit packer (43_encode.md). -/

namespace Sys2Proof.Machine

/-- The packer's progress: `n` bits emitted, the byte being filled, memory so far (43_encode.md R240). -/
structure Packer where
  n : Nat
  cur : Byte
  mem : Memory
deriving DecidableEq, Repr

/-- Emit one bit: DST_OVERFLOW when it would need byte DST_CAP, and the byte is written once it is full
(43_encode.md R240, R244). -/
def emitBit (s : State) (p : Packer) (bit : Bool) : Except Stop Packer :=
  if p.n % 8 = 0 ∧ p.n / 8 ≥ s.dstCap.toNat then
    .error (.err .dstOverflow 0#32)
  else
    let cur := setBit p.cur (7 - p.n % 8) bit
    let n := p.n + 1
    if n % 8 = 0 then
      match busWrite s.platform p.mem (s.dst (n / 8 - 1)) cur with
      | .ok m => .ok { n := n, cur := 0#8, mem := m }
      | .error stop => .error stop
    else
      .ok { n := n, cur := cur, mem := p.mem }

/-- Emit a code's bits, first bit first (43_encode.md R240). -/
def emitBits (s : State) : Code → Packer → Except Stop Packer
  | [], p => .ok p
  | bit :: bits, p =>
    match emitBit s p bit with
    | .ok p' => emitBits s bits p'
    | .error stop => .error stop

/-- The loop over `n` more source bytes from offset `i` (43_encode.md R240, R243). -/
def encodeLoop (s : State) : Nat → Nat → Packer → Except Stop Packer
  | 0, _, p => .ok p
  | n + 1, i, p =>
    match busRead s.platform p.mem (s.src i) with
    | .error stop => .error stop
    | .ok x =>
      if s.codeLen x = 0 then
        .error (.err .unknownSymbol (BitVec.ofNat 32 i))
      else
        match emitBits s (s.codeOf x) p with
        | .ok p' => encodeLoop s n (i + 1) p'
        | .error stop => .error stop

/-- Write the last byte if it is partly filled; its low-order bits are 0 (43_encode.md R240, R242). -/
def flushPacker (s : State) (p : Packer) : Except Stop Packer :=
  if p.n % 8 = 0 then .ok p
  else
    match busWrite s.platform p.mem (s.dst (p.n / 8)) p.cur with
    | .ok m => .ok { p with mem := m }
    | .error stop => .error stop

/-- The whole packing: every symbol, then the last byte (43_encode.md R240). -/
def packWindow (s : State) : Except Stop Packer :=
  match encodeLoop s s.srcLen.toNat 0 { n := 0, cur := 0#8, mem := s.mem } with
  | .ok p => flushPacker s p
  | .error stop => .error stop

/-- ENCODE (43_encode.md R240 to R248). Overlapping windows fault (70_reset_and_hazards.md R363); an error
leaves BITCNT and frees the destination window (R246). -/
def execEncode (s : State) : Host.Outcome State Fault Refusal :=
  if overlapHazard .encode s then
    .fault .windowOverlap
  else if s.tabNsym = 0 then
    .next (raiseError .noTable 0#32 (freeDst s))
  else
    match packWindow s with
    | .ok p =>
      .next (complete
        { s with
          mem := p.mem
          bitcnt := BitVec.ofNat 64 p.n
          outLen := BitVec.ofNat 32 (ceil8 p.n) })
    | .error stop => stopCommand stop (freeDst s)

end Sys2Proof.Machine
end

