-- ==== Sys2Proof/Machine/TreeCodes.lean ====
section
/-! DEFINITION. BUILD_TREE and GEN_CODES (42_tree_codes.md). -/

namespace Sys2Proof.Machine

/-- A node's weight (42_tree_codes.md R210). -/
def Tree.weight : Tree → Nat
  | .leaf _ w => w
  | .node w _ _ _ => w

/-- A node's order key: the symbol of a leaf, 256 + m of the m-th merge (42_tree_codes.md R210). -/
def Tree.key : Tree → Nat
  | .leaf x _ => x.toNat
  | .node _ k _ _ => k

/-- The order of the building queue (42_tree_codes.md R211). -/
def precedes (x y : Tree) : Bool :=
  decide (x.weight < y.weight) || (decide (x.weight = y.weight) && decide (x.key < y.key))

/-- `Q + {x}`. The queue is kept in the order of R211, so `least(Q)` is its head. -/
def enqueue (x : Tree) : List Tree → List Tree
  | [] => [x]
  | y :: q => if precedes x y then x :: y :: q else y :: enqueue x q

/-- The first queue: one leaf for each symbol with a nonzero count (42_tree_codes.md R212). -/
def leafQueue (freq : Vector Word 256) : List Tree :=
  (rows freq).foldr (fun e q => if e.2 = 0#32 then q else enqueue (.leaf e.1 e.2.toNat) q) []

/-- The m-th merge of the two least nodes: `x` was extracted first and becomes the right child
(42_tree_codes.md R212, R213). -/
def mergeNodes (m : Nat) (x y : Tree) : Tree := .node (x.weight + y.weight) (256 + m) y x

/-- `while |Q| >= 2` (42_tree_codes.md R212): at most `n` merges, the next one numbered `m`. -/
def mergeLoop : Nat → Nat → List Tree → List Tree
  | n + 1, m, x :: y :: q => mergeLoop n (m + 1) (enqueue (mergeNodes m x y) q)
  | _, _, q => q

/-- The tree of a frequency table: the single element the merges leave; `none` when no symbol was counted. -/
def buildTree (freq : Vector Word 256) : Option Tree :=
  (mergeLoop (leafQueue freq).length 0 (leafQueue freq)).head?

/-- BUILD_TREE (42_tree_codes.md R212 to R216). -/
def execBuildTree (s : State) : Host.Outcome State Fault Refusal :=
  if s.nsym = 0 then
    .next (raiseError .emptyAlphabet 0#32 s)
  else
    .next (complete { s with tree := buildTree s.freq, outLen := 0#32 })

/-- `walk(n, p)`: each leaf's code is the path to it, 0 = left, 1 = right (42_tree_codes.md R220). -/
def walk : Tree → Code → Vector Code 256 → Vector Code 256
  | .leaf x _, p, t => tabSet t x p
  | .node _ _ l r, p, t => walk r (p ++ [true]) (walk l (p ++ [false]) t)

/-- The code table of a tree; a single leaf gets the code "0" (42_tree_codes.md R220, R221). -/
def codesOf : Tree → Vector Code 256
  | .leaf x _ => tabSet emptyTable x [false]
  | .node w k l r => walk (.node w k l r) [] emptyTable

/-- GEN_CODES (42_tree_codes.md R220 to R222). -/
def execGenCodes (s : State) : Host.Outcome State Fault Refusal :=
  match s.tree with
  | none => .next (raiseError .noTree 0#32 s)
  | some t => .next (complete { s with code := codesOf t, tree := none, outLen := 0#32 })

end Sys2Proof.Machine
end

