-- ==== Sys2Proof/Machine/Unpacking.lean ====
section
/-! DEFINITION. DECODE, the bit unpacker (45_decode.md). -/

namespace Sys2Proof.Machine

/-- The unpacker's progress: the payload byte in hand, the accumulator ACC, the symbols emitted, memory so
far (45_decode.md R290, R291). -/
structure Unpacker where
  cur : Byte
  acc : Code
  j : Nat
  mem : Memory
deriving DecidableEq, Repr

/-- The table entry whose code is the accumulator (45_decode.md R294; log entry 17). -/
def matchCode (es : List (Byte × Code)) (acc : Code) : Option Byte :=
  (es.find? fun e => e.2 == acc).map (·.1)

/-- Read the payload byte that holds bit `k`, when `k` is its first bit (45_decode.md R290, R293). -/
def fetchByte (s : State) (k : Nat) (u : Unpacker) : Except Stop Byte :=
  if k % 8 = 0 then busRead s.platform u.mem (s.src (k / 8)) else .ok u.cur

/-- Take one bit into the accumulator and emit a symbol if it resolves (45_decode.md R290, R294, R295, R297).
`es` are the table's entries and `maxLen` is MAXLEN. -/
def takeBit (s : State) (es : List (Byte × Code)) (maxLen : Nat) (bit : Bool) (cur : Byte) (u : Unpacker) :
    Except Stop Unpacker :=
  match matchCode es (u.acc ++ [bit]) with
  | some x =>
    if u.j ≥ s.dstCap.toNat then
      .error (.err .dstOverflow 0#32)
    else
      match busWrite s.platform u.mem (s.dst u.j) x with
      | .ok m => .ok { cur := cur, acc := [], j := u.j + 1, mem := m }
      | .error stop => .error stop
  | none =>
    if (u.acc ++ [bit]).length = maxLen then
      .error (.err .truncatedStream 2#32)
    else
      .ok { cur := cur, acc := u.acc ++ [bit], j := u.j, mem := u.mem }

/-- The loop over `n` more payload bits from bit `k` (45_decode.md R290, R293). -/
def decodeLoop (s : State) (es : List (Byte × Code)) (maxLen : Nat) : Nat → Nat → Unpacker → Except Stop Unpacker
  | 0, _, u => .ok u
  | n + 1, k, u =>
    match fetchByte s k u with
    | .error stop => .error stop
    | .ok cur =>
      match takeBit s es maxLen (cur.getLsbD (7 - k % 8)) cur u with
      | .error stop => .error stop
      | .ok u' => decodeLoop s es maxLen n (k + 1) u'

/-- The whole unpacking, with the end check (45_decode.md R290, R296). -/
def unpackWindow (s : State) : Except Stop Unpacker :=
  match decodeLoop s s.entries s.maxlen s.bitcnt.toNat 0 { cur := 0#8, acc := [], j := 0, mem := s.mem } with
  | .error stop => .error stop
  | .ok u => if u.acc = [] then .ok u else .error (.err .truncatedStream 3#32)

/-- DECODE (45_decode.md R290 to R300). Overlapping windows fault (70_reset_and_hazards.md R363); an error
frees the destination window (R299). -/
def execDecode (s : State) : Host.Outcome State Fault Refusal :=
  if overlapHazard .decode s then
    .fault .windowOverlap
  else if s.tabNsym = 0 then
    .next (raiseError .noTable 0#32 (freeDst s))
  else if s.srcLen.toNat ≠ ceil8 s.bitcnt.toNat then
    .next (raiseError .truncatedStream 1#32 (freeDst s))
  else
    match unpackWindow s with
    | .ok u => .next (complete { s with mem := u.mem, outLen := BitVec.ofNat 32 u.j })
    | .error stop => stopCommand stop (freeDst s)

end Sys2Proof.Machine
end

