-- ==== Sys2Proof/Machine/Dispatch.lean ====
section
/-! DEFINITION. The meaning of each command: its rule, run to completion (40_command_protocol.md R166, R170). -/

namespace Sys2Proof.Machine

def exec (i : Instr) (s : State) : Host.Outcome State Fault Refusal :=
  match i with
  | .clear => Sys2Proof.Machine.execClear s
  | .count => Sys2Proof.Machine.execCount s
  | .buildTree => Sys2Proof.Machine.execBuildTree s
  | .genCodes => Sys2Proof.Machine.execGenCodes s
  | .encode => Sys2Proof.Machine.execEncode s
  | .serialize => Sys2Proof.Machine.execSerialize s
  | .parse => Sys2Proof.Machine.execParse s
  | .decode => Sys2Proof.Machine.execDecode s

end Sys2Proof.Machine
end

