-- ==== Sys2Proof/Machine/Registers.lean ====
section
/-! DEFINITION. The host's register accesses (10_state.md R40 to R65; 40_command_protocol.md R160 to R165). -/

namespace Sys2Proof.Machine

/-! ### Reads -/

/-- The exact value of each register (10_state.md R41 to R63). -/
def regValue (s : State) : Reg → Word
  | .id => Config.idValue
  | .cmd => 0#32
  | .status => s.status
  | .errCode => s.errCode.value.setWidth 32
  | .errInfo => s.errInfo
  | .irqEn => s.irqEn.setWidth 32
  | .irqStat => s.irqStat.setWidth 32
  | .srcAddr => s.srcAddr
  | .srcLen => s.srcLen
  | .dstAddr => s.dstAddr
  | .dstCap => s.dstCap
  | .outLen => s.outLen
  | .bitcntLo => s.bitcnt.extractLsb' 0 32
  | .bitcntHi => s.bitcnt.extractLsb' 32 32
  | .nsym => BitVec.ofNat 32 s.nsym
  | .total => BitVec.ofNat 32 s.total
  | .tabNsym => BitVec.ofNat 32 s.tabNsym
  | .maxlen => BitVec.ofNat 32 s.maxlen
  | .hdrSize => BitVec.ofNat 32 s.hdrSize
  | .hdrLen => s.hdrLen
  | .tabSel => s.tabSel.setWidth 32
  | .tabFreq => s.tabFreq
  | .tabLen => BitVec.ofNat 32 s.tabLen
  | .tabCode k => s.tabCode k.val

/-- STATUS while BUSY = 1: TREE_VALID and TABLE_VALID come from the draw, the rest is exact
(40_command_protocol.md R161; U2). -/
def readStatusBusy (s : State) (draw : Word) : Word :=
  statusWord s.lastOp (draw.getLsbD 3) (draw.getLsbD 2) s.errFlag s.busy

/-- A read of the register at an offset (40_command_protocol.md R160, R161; a reserved offset reads 0,
10_state.md R64). It changes no state of the block: `rdata` is the host's, `draws` counts the free values. -/
def readReg (off : Offset) (s : State) : State :=
  match regAt off with
  | none => { s with rdata := 0#32 }
  | some r =>
    if s.busy && r.unspecifiedWhileBusy then
      { s with rdata := Config.freeWord s.draws, draws := s.draws + 1 }
    else if s.busy && r == .status then
      { s with rdata := readStatusBusy s (Config.freeWord s.draws), draws := s.draws + 1 }
    else
      { s with rdata := regValue s r }

/-! ### Writes -/

/-- REG <- v masked to the writable bits, for the RW registers (10_state.md R46, R48 to R51, R53, R60). -/
def storeReg (r : Reg) (v : Word) (s : State) : State :=
  match r with
  | .irqEn => { s with irqEn := v.extractLsb' 0 3 }
  | .srcAddr => { s with srcAddr := v }
  | .srcLen => { s with srcLen := v }
  | .dstAddr => { s with dstAddr := v }
  | .dstCap => { s with dstCap := v }
  | .bitcntLo => { s with bitcnt := s.bitcnt.extractLsb' 32 32 ++ v }
  | .bitcntHi => { s with bitcnt := v ++ s.bitcnt.extractLsb' 0 32 }
  | .tabSel => { s with tabSel := v.extractLsb' 0 8 }
  | .id | .cmd | .status | .errCode | .errInfo | .irqStat | .outLen | .nsym | .total | .tabNsym
  | .maxlen | .hdrSize | .hdrLen | .tabFreq | .tabLen | .tabCode _ => s

/-- A write dropped because BUSY = 1 (40_command_protocol.md R162, R165). -/
def dropWrite (s : State) : State := { s with irqStat := s.irqStat ||| irqDrop }

/-- `accept(w)` on an idle block (40_command_protocol.md R164, R169): an illegal word completes at once
(30_encoding.md R124), overlapping windows fault (70_reset_and_hazards.md R363), and a command
starts to run. -/
def accept (w : Word) (s : State) : Host.Outcome State Fault Refusal :=
  match decode w with
  | .illegal v => .next (raiseError .illegalCommand v (markAccepted w s))
  | .cmd i =>
    if overlapHazard i s then .fault .windowOverlap
    else .next { markAccepted w s with running := some i }

/-- A write to a register (40_command_protocol.md R162). -/
def writeAt (r : Reg) (v : Word) (s : State) : Host.Outcome State Fault Refusal :=
  match r.access with
  | .ro => .next s
  | .w1c => .next (ackIrq v s)
  | .wo => if s.busy then .next (dropWrite s) else accept v s
  | .rw => .next (if s.busy then dropWrite s else storeReg r v s)

/-- A write at an offset; a reserved offset ignores it (10_state.md R64; 40_command_protocol.md R162). -/
def writeReg (off : Offset) (v : Word) (s : State) : Host.Outcome State Fault Refusal :=
  match regAt off with
  | none => .next s
  | some r => writeAt r v s

end Sys2Proof.Machine
end

