-- ==== Sys2Proof/Machine/HostActs.lean ====
section
/-! DEFINITION. What the host, another agent or the reset input does in a step. -/

namespace Sys2Proof.Machine

/-- A write of this address races with the running command: it lies in a window the command uses
(70_reset_and_hazards.md R362; log entry 15). -/
def writeRaces (s : State) (a : Addr) : Bool :=
  match s.running with
  | none => false
  | some i => (readsSrc i && s.inSrc a) || (writesDst i && s.inDst a)

/-- A read of this address races with the running command: it lies in the destination window
(70_reset_and_hazards.md R362; log entry 15). -/
def readRaces (s : State) (a : Addr) : Bool :=
  match s.running with
  | none => false
  | some i => writesDst i && s.inDst a

/-- The host reads a byte: of a device a free value, one draw (log entry 7), else the byte of memory. The memory is
coherent: the host sees every write the block's master has performed (20_memory.md R104 and U20 leave that to the
platform; DESIGN CHOICE, log entry 24). -/
def hostMemRead (a : Addr) (s : State) : Host.Outcome State Fault Refusal :=
  if readRaces s a then .fault (.windowRace a)
  else if s.platform.isDevice a then
    .next { s with rdata := (Config.freeByte s.draws).setWidth 32, draws := s.draws + 1 }
  else .next { s with rdata := (memRead s.mem a.toNat).setWidth 32 }

/-- The host, or another agent, writes a byte. The memory is coherent: the block's master sees the write at once
(20_memory.md R104 and U20 leave that to the platform; DESIGN CHOICE, log entry 24). -/
def hostMemWrite (a : Addr) (b : Byte) (s : State) : Host.Outcome State Fault Refusal :=
  if writeRaces s a then .fault (.windowRace a)
  else .next { s with mem := memWrite s.mem a.toNat b }

/-- The destination window of a writing command that reset stops is unspecified (70_reset_and_hazards.md R352). -/
def abandonRunning (s : State) : State :=
  match s.running with
  | none => s
  | some i => if writesDst i then freeDst s else s

/-- Reset (70_reset_and_hazards.md R350 to R352): every piece of block state takes its reset value; memory, the
platform, the schedule, the host's last read and the draw counter are not the block's (log entry 12). -/
def resetBlock (s : State) : State :=
  { State.reset with
    mem := (abandonRunning s).mem
    platform := s.platform
    beats := s.beats
    rdata := s.rdata
    draws := (abandonRunning s).draws }

/-- One host action. A register access that is not an aligned word access is refused (20_memory.md R96). -/
def hostAct (a : HostAct) (s : State) : Host.Outcome State Fault Refusal :=
  match a with
  | .regRead off size =>
    if a.wellFormed then .next (readReg off s) else .refused (.badRegisterAccess off size)
  | .regWrite off size v =>
    if a.wellFormed then writeReg off v s else .refused (.badRegisterAccess off size)
  | .memRead addr => hostMemRead addr s
  | .memWrite addr b => hostMemWrite addr b s
  | .reset => .next (resetBlock s)

end Sys2Proof.Machine
end

