-- ==== Sys2Proof/Machine/Engine.lean ====
section
/-! DEFINITION. The command engine's part of a step, and one beat of the schedule. -/

namespace Sys2Proof.Machine

/-- The running command, if any, completes: its whole effect in one transition (40_command_protocol.md R170). -/
def finishRunning (s : State) : Host.Outcome State Fault Refusal :=
  match s.running with
  | none => .next s
  | some i => exec i s

/-- The engine's part of a beat. -/
def engineBeat (finish : Bool) (s : State) : Host.Outcome State Fault Refusal :=
  if finish then finishRunning s else .next s

/-- One beat: the host acts, then the running command completes if the beat says so. A completion thus
sets IRQ_STAT bits after a W1C write of the same beat: the set wins (60_exceptions.md R315). -/
def runBeat (b : Beat) (s : State) : Host.Outcome State Fault Refusal :=
  match b.act with
  | none => engineBeat b.finish s
  | some a =>
    match hostAct a s with
    | .next t => engineBeat b.finish t
    | .fault f => .fault f
    | .refused r => .refused r

/-- One step: the next beat of the schedule; when none is left the host does nothing and a running command
completes, as it eventually must (40_command_protocol.md R171; log entry 3). -/
def nextBeat (s : State) : Host.Outcome State Fault Refusal :=
  match s.beats with
  | [] => finishRunning s
  | b :: bs => runBeat b { s with beats := bs }

/-- The beat in which the host writes a command word to CMD and the command completes. -/
def commandBeat (w : Word) : Beat := { act := some (.regWrite Reg.cmd.offset 4 w), finish := true }

/-- The state in which the next step is the host's write of this command word to an idle block. -/
def withCommand (s : State) (w : Word) : State :=
  { s with running := none, beats := commandBeat w :: s.beats }

end Sys2Proof.Machine
end

