-- ==== Sys2Proof/Machine/Step.lean ====
section
/-! DEFINITION. One step of the machine. -/

namespace Sys2Proof.Machine

/-- One step: one beat of the schedule of the two agents (10_state.md R30, R33). -/
def step (s : State) : Host.Outcome State Fault Refusal := nextBeat s

/-- The state in which the next step runs the command of these table bits: the host's CMD write and the
command's completion in one beat, on an idle block (log entries 11, 16). -/
def State.withFetchWord (s : State) (nbits w : Nat) : State := withCommand s (tableWord nbits w)

end Sys2Proof.Machine
end

