-- ==== Sys2Proof/Safety.lean ====
section
/-! DEFINITION. The terms claims are made in: what a window holds, which tables and trees are sound, and the
invariant of the machine. -/

namespace Sys2Proof.Machine

/-! ### Windows -/

/-- The byte of memory at source offset `i`. -/
def State.srcByte (s : State) (i : Nat) : Byte := memRead s.mem (s.src i).toNat

/-- The byte of memory at destination offset `j`. -/
def State.dstByte (s : State) (j : Nat) : Byte := memRead s.mem (s.dst j).toNat

/-- The bytes of the source window, in offset order (20_memory.md R91). -/
def State.srcBytes (s : State) : List Byte := (List.range s.srcLen.toNat).map s.srcByte

/-- Bit `k` of the source window's stream (00_scope.md R11). -/
def State.srcBit (s : State) (k : Nat) : Bool := (s.srcByte (k / 8)).getLsbD (7 - k % 8)

/-- The first `n` source bytes can be read as memory: BusOk holds and none is a device's. -/
def State.ReadableTo (s : State) (n : Nat) : Prop := ∀ i, i < n → s.platform.readable (s.src i) = true

/-- The first `n` destination bytes can be written: BusOk holds. -/
def State.WritableTo (s : State) (n : Nat) : Prop := ∀ j, j < n → s.platform.busOk .write (s.dst j) = true

/-- Address `a` is none of the first `n` bytes of the destination window. -/
def State.OutsideDst (s : State) (n : Nat) (a : Nat) : Prop := ∀ j, j < n → a ≠ (s.dst j).toNat

/-- The source window holds these bytes from offset `p`. -/
def HoldsAt (s : State) (p : Nat) (bs : List Byte) : Prop := ∀ k, k < bs.length → s.srcByte (p + k) = bs.getD k 0#8

/-- Memory `m` holds these bytes from destination offset 0, within the window, and every other byte is as `s` has
it (20_memory.md R93). -/
structure Stored (s : State) (bs : List Byte) (m : Memory) : Prop where
  fits : bs.length ≤ s.dstCap.toNat
  wf : Memory.wf m = true
  bytes : ∀ j, j < bs.length → memRead m (s.dst j).toNat = bs.getD j 0#8
  outside : ∀ a, s.OutsideDst bs.length a → memRead m a = memRead s.mem a

/-- No byte of the source window maps a device (20_memory.md R98; 70_reset_and_hazards.md R368). -/
def State.SourceIsMemory (s : State) : Prop := ∀ k, k < s.srcLen.toNat → s.platform.isDevice (s.src k) = false

/-- The two windows share no address (20_memory.md R105). -/
def State.WindowsApart (s : State) : Prop :=
  ∀ i j, i < s.srcLen.toNat → j < s.dstCap.toNat → s.src i ≠ s.dst j

/-- The bits ENCODE emits for these symbols: their codes, one after the other (43_encode.md R241). -/
def codeBits (code : Vector Code 256) (xs : List Byte) : Code := xs.flatMap fun x => tabGet code x

/-! ### Code tables -/

/-- Every code fits LEN_MAX bits (10_state.md R72(a)). -/
def CodesFit (code : Vector Code 256) : Prop := ∀ x, (tabGet code x).length ≤ Config.lenMax

/-- No entry's code is a prefix of another's (10_state.md R72(b)). -/
def PrefixFree (code : Vector Code 256) : Prop :=
  ∀ x y, x ≠ y → tabGet code x ≠ [] → tabGet code y ≠ [] → ¬ (tabGet code x <+: tabGet code y)

/-- The sum over the entries of 2^(LEN_MAX - CODE_LEN): 2^LEN_MAX when the table is complete
(10_state.md R72(c)). -/
def kraftSum (code : Vector Code 256) : Nat :=
  ((entriesOf code).map fun e => 2 ^ (Config.lenMax - e.2.length)).sum

/-- Entries that can stand in one header: lengths 1 to 255, and no two of them conflict
(44_header.md R271, R272). -/
def EntriesAgree (es : List (Byte × Code)) : Prop :=
  (∀ e ∈ es, 1 ≤ e.2.length ∧ e.2.length ≤ Config.lenMax) ∧
  es.Pairwise fun e f => e.1 ≠ f.1 ∧ ¬ (e.2 <+: f.2) ∧ ¬ (f.2 <+: e.2)

/-- These are the bytes of an entry: symbol, length, and code bits with any padding (30_encoding.md R143;
44_header.md R273). -/
def EntryFits (e : Byte × Code) (bs : List Byte) : Prop :=
  ∃ body, bs = e.1 :: BitVec.ofNat 8 e.2.length :: body ∧ body.length = ceil8 e.2.length ∧
    unpack body e.2.length = e.2

/-- These are the bytes of a header with these entries and this bit count (30_encoding.md R140 to R145). -/
def HeaderFits (es : List (Byte × Code)) (total : Nat) (bs : List Byte) : Prop :=
  ∃ parts, List.Forall₂ EntryFits es parts ∧ bs = beBytes 2 es.length ++ parts.flatten ++ beBytes 8 total

/-- PARSE that has read these bytes asks for one more (44_header.md R270): fewer than the two bytes of the count; or a
legal count, entries that agree, and the start of a further entry or of the total. Whether the further entry
conflicts with an earlier one shows only once all its bytes are read (R272). -/
def HeaderStart (bs : List Byte) : Prop :=
  bs.length < 2 ∨
  ∃ (count : Nat) (es : List (Byte × Code)) (parts : List (List Byte)) (start : List Byte),
    1 ≤ count ∧ count ≤ 256 ∧ EntriesAgree es ∧ List.Forall₂ EntryFits es parts ∧
    bs = beBytes 2 count ++ parts.flatten ++ start ∧
    ((es.length < count ∧ ∃ (e : Byte × Code) (tail : List Byte), 1 ≤ e.2.length ∧ e.2.length ≤ Config.lenMax ∧
        tail ≠ [] ∧ EntryFits e (start ++ tail)) ∨
      (es.length = count ∧ start.length < 8))

/-! ### Trees -/

/-- The leaves, left to right: symbol and weight (10_state.md R75). -/
def Tree.leaves : Tree → List (Byte × Nat)
  | .leaf x w => [(x, w)]
  | .node _ _ l r => l.leaves ++ r.leaves

/-- Each leaf with the branches from the root to it, 0 = left, 1 = right (42_tree_codes.md R220). -/
def Tree.paths : Tree → List (Byte × Code)
  | .leaf x _ => [(x, [])]
  | .node _ _ l r => (l.paths.map fun e => (e.1, false :: e.2)) ++ r.paths.map fun e => (e.1, true :: e.2)

/-- The tree and all the trees in it (10_state.md R75). -/
def Tree.subtrees : Tree → List Tree
  | .leaf x w => [.leaf x w]
  | .node w k l r => .node w k l r :: (l.subtrees ++ r.subtrees)

/-- Each internal node weighs what its children weigh (42_tree_codes.md R215). -/
def Tree.WeightsAdd : Tree → Prop
  | .leaf _ _ => True
  | .node w _ l r => w = l.weight + r.weight ∧ l.WeightsAdd ∧ r.WeightsAdd

/-- Each right child precedes its left sibling (42_tree_codes.md R213). -/
def Tree.RightPrecedes : Tree → Prop
  | .leaf _ _ => True
  | .node _ _ l r => precedes r l = true ∧ l.RightPrecedes ∧ r.RightPrecedes

/-- The order keys of the internal nodes (42_tree_codes.md R210). -/
def Tree.innerKeys : Tree → List Nat
  | .leaf _ _ => []
  | .node _ k l r => k :: (l.innerKeys ++ r.innerKeys)

/-- The symbols with a nonzero count, ascending, each with its count (10_state.md R71). -/
def countedSymbols (freq : Vector Word 256) : List (Byte × Nat) :=
  (symbols.filter fun x => tabGet freq x != 0#32).map fun x => (x, (tabGet freq x).toNat)

/-- A tree of these counts: one leaf per counted symbol with its count as weight, and weights add up
(10_state.md R75; 42_tree_codes.md R215). -/
def TreeOf (freq : Vector Word 256) (t : Tree) : Prop :=
  t.leaves.Perm (countedSymbols freq) ∧ t.WeightsAdd

/-! ### The invariant -/

/-- What every step keeps. -/
structure State.Inv (s : State) : Prop where
  /-- Memory is in its canonical form. -/
  memory : Memory.wf s.mem = true
  /-- TOTAL fits its register (10_state.md R55). -/
  total : s.total ≤ Config.totalMax
  /-- No code is longer than LEN_MAX (10_state.md R72(a)). -/
  codesFit : CodesFit s.code
  /-- The table is prefix-free (10_state.md R72(b)). -/
  prefixFree : PrefixFree s.code
  /-- A valid tree is a tree of the current counts (10_state.md R75, R76). -/
  tree : ∀ t, s.tree = some t → TreeOf s.freq t
  /-- A running command has cleared the last error and shows its opcode (40_command_protocol.md R164). -/
  accepted : ∀ i, s.running = some i → s.errCode = .success ∧ s.lastOp = opcode i
  /-- A running command's windows do not overlap (70_reset_and_hazards.md R363). -/
  apart : ∀ i, s.running = some i → overlapHazard i s = false
  /-- After a success ERR_INFO is 0 (60_exceptions.md R313). -/
  noInfo : s.errCode = .success → s.errInfo = 0#32
  /-- After an error OUT_LEN is 0 (60_exceptions.md R316). -/
  noOutput : s.errCode ≠ .success → s.outLen = 0#32
  /-- TREE_CONSTRUCTION_FAILURE is never reported (42_tree_codes.md R216). -/
  noTreeFailure : s.errCode ≠ .treeConstructionFailure

end Sys2Proof.Machine
end

