-- ==== Sys2Proof/Certificates/Slice0/Obligations.lean ====
section
/-! DEFINITION. The statements for the provers. Each docstring names the rules of spec/ it formalises. -/

open Sys2Proof Sys2Proof.Machine

/-! ### Encodings (30_encoding.md) -/

/-- The eight command words, the reserved words around them, and the encoder's words decode as the opcode map says
(R122, R124). -/
def Obligations.CommandWordsDecode : Prop :=
  decode 0x00000001#32 = .cmd .clear ∧ decode 0x00000002#32 = .cmd .count ∧
  decode 0x00000003#32 = .cmd .buildTree ∧ decode 0x00000004#32 = .cmd .genCodes ∧
  decode 0x00000005#32 = .cmd .encode ∧ decode 0x00000006#32 = .cmd .serialize ∧
  decode 0x00000007#32 = .cmd .parse ∧ decode 0x00000008#32 = .cmd .decode ∧
  decode 0x00000000#32 = .illegal 0x00000000#32 ∧ decode 0x00000009#32 = .illegal 0x00000009#32 ∧
  decode 0x0000000F#32 = .illegal 0x0000000F#32 ∧ decode 0x00000011#32 = .illegal 0x00000011#32 ∧
  decode 0x80000003#32 = .illegal 0x80000003#32 ∧
  ∀ i : Instr, decode (encode i) = .cmd i ∧ decodeTableWord 32 (encode i).toNat = some i

/-- Decoding is total (R125): a word whose RSVD is 0 and whose OP is 1 to 8 is the one command whose word it is, and
every other word is illegal. -/
def Obligations.DecodingIsTotal : Prop :=
  (∀ w : Word, w.toNat / 16 = 0 ∧ 1 ≤ w.toNat % 16 ∧ w.toNat % 16 ≤ 8 →
    ∃ i, decode w = .cmd i ∧ (opcode i).toNat = w.toNat % 16 ∧ w = encode i) ∧
  (∀ w : Word, ¬ (w.toNat / 16 = 0 ∧ 1 ≤ w.toNat % 16 ∧ w.toNat % 16 ≤ 8) → decode w = .illegal w) ∧
  ∀ (w : Word) (i : Instr), decode w = .cmd i ↔ w = encode i

/-! ### Registers (10_state.md) -/

/-- The register map: every register's offset is decoded back to it, the offsets and access classes of R40 (CMD write
only, IRQ_STAT W1C, eight registers RW, every other register read only), and what each register reads after reset; ID is the constant of R41, whose two halves are the letters and the revision. -/
def Obligations.RegisterMapOffsets : Prop :=
  (∀ r : Reg, regAt r.offset = some r) ∧
  (Reg.offset .id = 0x000#12 ∧ Reg.offset .cmd = 0x004#12 ∧ Reg.offset .status = 0x008#12 ∧
    Reg.offset .errCode = 0x00C#12 ∧ Reg.offset .errInfo = 0x010#12 ∧ Reg.offset .irqEn = 0x014#12 ∧
    Reg.offset .irqStat = 0x018#12 ∧ Reg.offset .srcAddr = 0x01C#12 ∧ Reg.offset .srcLen = 0x020#12 ∧
    Reg.offset .dstAddr = 0x024#12 ∧ Reg.offset .dstCap = 0x028#12 ∧ Reg.offset .outLen = 0x02C#12 ∧
    Reg.offset .bitcntLo = 0x030#12 ∧ Reg.offset .bitcntHi = 0x034#12 ∧ Reg.offset .nsym = 0x038#12 ∧
    Reg.offset .total = 0x03C#12 ∧ Reg.offset .tabNsym = 0x040#12 ∧ Reg.offset .maxlen = 0x044#12 ∧
    Reg.offset .hdrSize = 0x048#12 ∧ Reg.offset .hdrLen = 0x04C#12 ∧ Reg.offset .tabSel = 0x050#12 ∧
    Reg.offset .tabFreq = 0x054#12 ∧ Reg.offset .tabLen = 0x058#12 ∧
    ∀ k : Fin 8, (Reg.offset (.tabCode k)).toNat = 0x060 + 4 * k.val) ∧
  (Reg.access .cmd = .wo ∧ Reg.access .irqStat = .w1c ∧
    (∀ r ∈ [Reg.irqEn, .srcAddr, .srcLen, .dstAddr, .dstCap, .bitcntLo, .bitcntHi, .tabSel], Reg.access r = .rw) ∧
    ∀ r : Reg, r ∉ [Reg.cmd, .irqStat, .irqEn, .srcAddr, .srcLen, .dstAddr, .dstCap, .bitcntLo, .bitcntHi, .tabSel] →
      Reg.access r = .ro) ∧
  (∀ r : Reg, regValue State.reset r = if r = .id then 0x48460001#32 else 0#32) ∧
  ∀ s : State, (regValue s .id).extractLsb' 16 16 = 0x4846#16 ∧ (regValue s .id).extractLsb' 0 16 = 0x0001#16

/-- Reserved offsets read 0 and ignore writes, whether BUSY is 0 or 1, and never set DROP (R64). -/
def Obligations.ReservedOffsetsReadZero : Prop :=
  ∀ (s : State) (off : Offset) (v : Word), off.toNat % 4 = 0 → (off.toNat = 0x05C ∨ 0x080 ≤ off.toNat) →
    hostAct (.regRead off 4) s = .next { s with rdata := 0#32 } ∧
    hostAct (.regWrite off 4 v) s = .next s

/-- On an idle block a register read returns the register's value and changes nothing else; on any block a read
changes no state of the block, only what the host last read and the count of free values (40_command_protocol.md
R160; `rdata` and `draws` are the model's fields, log entries 9 and 10). -/
def Obligations.ReadsChangeNoBlockState : Prop :=
  (∀ (s : State) (r : Reg), s.busy = false →
    hostAct (.regRead r.offset 4) s = .next { s with rdata := regValue s r }) ∧
  ∀ (s : State) (off : Offset), off.toNat % 4 = 0 →
    ∃ v n, hostAct (.regRead off 4) s = .next { s with rdata := v, draws := s.draws + n }

/-- The fields of STATUS (R43), on an idle block every one exact. -/
def Obligations.StatusWordFields : Prop :=
  ∀ s : State,
    (regValue s .status).getLsbD 0 = s.busy ∧
    ((regValue s .status).getLsbD 1 = true ↔ (regValue s .errCode) ≠ 0#32) ∧
    (regValue s .status).getLsbD 2 = s.tree.isSome ∧
    ((regValue s .status).getLsbD 3 = true ↔ s.tabNsym ≠ 0) ∧
    (regValue s .status).extractLsb' 4 4 = s.lastOp ∧
    (regValue s .status).extractLsb' 8 24 = 0#24

/-- NSYM, TAB_NSYM, MAXLEN and HDR_SIZE as functions of the tables (R54, R56, R57, R58); TOTAL is the sum of FREQ, which
the invariant keeps within its register, and the weight of the root of the tree BUILD_TREE builds (R55; `BuildTreeBuilds`). -/
def Obligations.DerivedRegisterValues : Prop :=
  (∀ s : State, s.Inv →
    (regValue s .total).toNat = ∑ n : Fin 256, (s.freqOf (BitVec.ofFin n)).toNat ∧
    (∑ n : Fin 256, (s.freqOf (BitVec.ofFin n)).toNat) ≤ 2 ^ 32 - 1 ∧
    ∀ tr, buildTree s.freq = some tr → tr.weight = (regValue s .total).toNat) ∧
  ∀ s : State, CodesFit s.code →
    ((regValue s .nsym).toNat = (Finset.univ.filter fun n : Fin 256 => s.freqOf (BitVec.ofFin n) ≠ 0#32).card ∧
      (regValue s .nsym).toNat ≤ 256) ∧
    ((regValue s .tabNsym).toNat = (Finset.univ.filter fun n : Fin 256 => s.codeLen (BitVec.ofFin n) ≠ 0).card ∧
      (regValue s .tabNsym).toNat ≤ 256 ∧
      (s.tableValid = true ↔ regValue s .tabNsym ≠ 0#32)) ∧
    ((∀ x, s.codeLen x ≤ (regValue s .maxlen).toNat) ∧
      (regValue s .maxlen ≠ 0#32 → ∃ x, s.codeLen x = (regValue s .maxlen).toNat) ∧
      (regValue s .maxlen).toNat ≤ 255) ∧
    ((regValue s .hdrSize).toNat =
        (if regValue s .tabNsym = 0#32 then 0 else
          2 + (∑ n : Fin 256, if s.codeLen (BitVec.ofFin n) = 0 then 0
            else 2 + ceil8 (s.codeLen (BitVec.ofFin n))) + 8) ∧
      (regValue s .hdrSize).toNat ≤ 8714)

/-- The table window: TAB_FREQ, TAB_LEN, and bit 31 - j of TAB_CODEk is code bit 32k + j, or 0 past the end
(R61, R62, R63). -/
def Obligations.TableWindowRegisters : Prop :=
  ∀ s : State, CodesFit s.code →
    regValue s .tabFreq = s.freqOf s.tabSel ∧
    (regValue s .tabLen).toNat = s.codeLen s.tabSel ∧ (regValue s .tabLen).toNat ≤ 255 ∧
    ∀ (k : Fin 8) (j : Nat), j < 32 →
      (regValue s (.tabCode k)).getLsbD (31 - j) =
        if 32 * k.val + j < s.codeLen s.tabSel then (s.codeOf s.tabSel).getD (32 * k.val + j) false else false

/-- While BUSY = 1 the registers a running command cannot change read exactly, with ERR_CODE and ERR_INFO 0; STATUS is
exact but for its two table flags; every other register but CMD returns a free value, and is exact once BUSY = 0
(40_command_protocol.md R161; the free value is a draw, log entry 9). CMD, which R161 does not name, reads 0 at any
time (10_state.md R42, R65). -/
def Obligations.BusyReadsExactOrFree : Prop :=
  (∀ (s : State) (r : Reg), s.busy = false →
    hostAct (.regRead r.offset 4) s = .next { s with rdata := regValue s r }) ∧
  ∀ s : State, s.Inv → s.busy = true →
    (∀ r ∈ [Reg.id, .cmd, .errCode, .errInfo, .irqEn, .irqStat, .srcAddr, .srcLen, .dstAddr, .dstCap, .tabSel],
      hostAct (.regRead r.offset 4) s = .next { s with rdata := regValue s r }) ∧
    regValue s .errCode = 0#32 ∧ regValue s .errInfo = 0#32 ∧ regValue s .cmd = 0#32 ∧
    (∃ v : Word, hostAct (.regRead Reg.status.offset 4) s = .next { s with rdata := v, draws := s.draws + 1 } ∧
      v.getLsbD 0 = true ∧ v.getLsbD 1 = false ∧ v.extractLsb' 4 4 = s.lastOp ∧ v.extractLsb' 8 24 = 0#24 ∧
      v.getLsbD 2 = (Config.freeWord s.draws).getLsbD 2 ∧ v.getLsbD 3 = (Config.freeWord s.draws).getLsbD 3) ∧
    ∀ r : Reg, r ∈ [Reg.outLen, .bitcntLo, .bitcntHi, .nsym, .total, .tabNsym, .maxlen, .hdrSize, .hdrLen, .tabFreq,
        .tabLen] ∨ (∃ k, r = .tabCode k) →
      hostAct (.regRead r.offset 4) s =
        .next { s with rdata := Config.freeWord s.draws, draws := s.draws + 1 }

/-- What a host write does (40_command_protocol.md R162): nothing at a read-only register or a reserved offset; the
W1C write to IRQ_STAT at any time; a dropped write at CMD and every RW register while BUSY = 1; and on an idle block
acceptance at CMD, and the masked store at each RW register. -/
def Obligations.HostWriteRule : Prop :=
  ∀ (s : State) (v : Word),
    (∀ off : Offset, off.toNat % 4 = 0 → (regAt off = none ∨ ∃ r, regAt off = some r ∧ r.access = .ro) →
      hostAct (.regWrite off 4 v) s = .next s) ∧
    (hostAct (.regWrite Reg.irqStat.offset 4 v) s =
      .next { s with irqStat := s.irqStat &&& ~~~ (v.extractLsb' 0 3) }) ∧
    (s.busy = true → ∀ r : Reg, r = .cmd ∨ r.access = .rw →
      hostAct (.regWrite r.offset 4 v) s = .next { s with irqStat := s.irqStat ||| 4#3 }) ∧
    (s.busy = false →
      hostAct (.regWrite Reg.cmd.offset 4 v) s = accept v s ∧
      hostAct (.regWrite Reg.irqEn.offset 4 v) s = .next { s with irqEn := v.extractLsb' 0 3 } ∧
      hostAct (.regWrite Reg.srcAddr.offset 4 v) s = .next { s with srcAddr := v } ∧
      hostAct (.regWrite Reg.srcLen.offset 4 v) s = .next { s with srcLen := v } ∧
      hostAct (.regWrite Reg.dstAddr.offset 4 v) s = .next { s with dstAddr := v } ∧
      hostAct (.regWrite Reg.dstCap.offset 4 v) s = .next { s with dstCap := v } ∧
      hostAct (.regWrite Reg.bitcntLo.offset 4 v) s =
        .next { s with bitcnt := s.bitcnt.extractLsb' 32 32 ++ v } ∧
      hostAct (.regWrite Reg.bitcntHi.offset 4 v) s =
        .next { s with bitcnt := v ++ s.bitcnt.extractLsb' 0 32 } ∧
      hostAct (.regWrite Reg.tabSel.offset 4 v) s = .next { s with tabSel := v.extractLsb' 0 8 })

/-- A register access of another size or alignment is refused, and no other is: an aligned word read always answers
(20_memory.md R96; a refusal, 93_implementation_defined.md U1). -/
def Obligations.UnalignedAccessIsRefused : Prop :=
  ∀ (s : State) (off : Offset) (size : Nat) (v : Word),
    (size ≠ 4 ∨ off.toNat % 4 ≠ 0 →
      hostAct (.regRead off size) s = .refused (.badRegisterAccess off size) ∧
      hostAct (.regWrite off size v) s = .refused (.badRegisterAccess off size)) ∧
    (size = 4 ∧ off.toNat % 4 = 0 → ∃ t, hostAct (.regRead off size) s = .next t)

/-- The interrupt output (60_exceptions.md R320), which is 0 after reset. -/
def Obligations.InterruptOutput : Prop :=
  (∀ s : State, s.irq = true ↔
    (s.irqStat.getLsbD 0 = true ∧ s.irqEn.getLsbD 0 = true) ∨
    (s.irqStat.getLsbD 1 = true ∧ s.irqEn.getLsbD 1 = true) ∨
    (s.irqStat.getLsbD 2 = true ∧ s.irqEn.getLsbD 2 = true)) ∧
  State.reset.irq = false

/-! ### The command protocol (40_command_protocol.md) -/

/-- Acceptance of a word on an idle block (R164): LAST_OP, ERR_CODE, ERR_INFO and BUSY are written, then an illegal
word raises ILLEGAL_COMMAND and a command starts to run. That the illegal word completes in the step of its write, with
no time at BUSY = 1, is the model's reading (DEDUCED, log entry 4) of 30_encoding.md R124, "is accepted and completes
at once with error ILLEGAL_COMMAND". -/
def Obligations.CommandWriteAccepted : Prop :=
  ∀ (s : State) (w : Word), s.busy = false →
    (∀ v, decode w = .illegal v →
      hostAct (.regWrite Reg.cmd.offset 4 w) s =
        .next (raiseError .illegalCommand w { s with
          lastOp := w.extractLsb' 0 4, errCode := .success, errInfo := 0#32, running := none })) ∧
    (∀ i, decode w = .cmd i → overlapHazard i s = false →
      hostAct (.regWrite Reg.cmd.offset 4 w) s =
        .next { s with
          lastOp := w.extractLsb' 0 4, errCode := .success, errInfo := 0#32, running := some i })

/-- An illegal word on an idle block completes with ILLEGAL_COMMAND, and changes no table, tree, BITCNT, HDR_LEN or
memory (R169). That it does so in the step of its write, with no time at BUSY = 1, is the model's reading (DEDUCED, log
entry 4) of 30_encoding.md R124, "is accepted and completes at once with error ILLEGAL_COMMAND". -/
def Obligations.IllegalWordCompletes : Prop :=
  ∀ (s : State) (w : Word), s.busy = false → (w.toNat % 16 = 0 ∨ 9 ≤ w.toNat % 16 ∨ 16 ≤ w.toNat) →
    hostAct (.regWrite Reg.cmd.offset 4 w) s =
      .next { s with
        lastOp := w.extractLsb' 0 4, errCode := .illegalCommand, errInfo := w, outLen := 0#32,
        irqStat := s.irqStat ||| 1#3 ||| 2#3 }

/-- ENCODE and DECODE with windows that share an address fault at acceptance; the other commands have no overlap
hazard and are accepted (20_memory.md R105; 70_reset_and_hazards.md R363). -/
def Obligations.OverlapFaultsAtAcceptance : Prop :=
  (∀ (s : State) (i : Instr), s.busy = false → i = .encode ∨ i = .decode →
    (∃ k j, k < s.srcLen.toNat ∧ j < s.dstCap.toNat ∧ s.src k = s.dst j) →
    hostAct (.regWrite Reg.cmd.offset 4 (encode i)) s = .fault .windowOverlap) ∧
  ∀ (s : State) (i : Instr), s.busy = false → i ≠ .encode → i ≠ .decode →
    hostAct (.regWrite Reg.cmd.offset 4 (encode i)) s =
      .next { s with lastOp := opcode i, errCode := .success, errInfo := 0#32, running := some i }

/-- Which host memory accesses race with a running command (70_reset_and_hazards.md R362): a write into a window the
command has and a read of its destination window fault; every other access is plain, on an idle block every one. That
a plain read of a device returns a free value is the model's choice (DESIGN CHOICE, log entry 7). That a command's
windows are those it has as operands, and that a read of the source window is plain, is the model's reading (DEDUCED, log
entry 15); that the host and the block see one coherent memory is its choice (DESIGN CHOICE, log entry 24). -/
def Obligations.WindowRaceFaults : Prop :=
  (∀ (s : State) (i : Instr) (a : Addr) (b : Byte), s.running = some i →
    ((readsSrc i = true ∧ ∃ k, k < s.srcLen.toNat ∧ a = s.src k) ∨
        (writesDst i = true ∧ ∃ j, j < s.dstCap.toNat ∧ a = s.dst j) →
      hostAct (.memWrite a b) s = .fault (.windowRace a)) ∧
    ((writesDst i = true ∧ ∃ j, j < s.dstCap.toNat ∧ a = s.dst j) →
      hostAct (.memRead a) s = .fault (.windowRace a)) ∧
    ((readsSrc i = true → ∀ k, k < s.srcLen.toNat → a ≠ s.src k) →
      (writesDst i = true → ∀ j, j < s.dstCap.toNat → a ≠ s.dst j) →
      hostAct (.memWrite a b) s = .next { s with mem := memWrite s.mem a.toNat b }) ∧
    ((writesDst i = true → ∀ j, j < s.dstCap.toNat → a ≠ s.dst j) →
      hostAct (.memRead a) s =
        if s.platform.isDevice a then
          .next { s with rdata := (Config.freeByte s.draws).setWidth 32, draws := s.draws + 1 }
        else .next { s with rdata := (memRead s.mem a.toNat).setWidth 32 })) ∧
  ∀ (s : State) (a : Addr) (b : Byte), s.busy = false →
    hostAct (.memWrite a b) s = .next { s with mem := memWrite s.mem a.toNat b } ∧
    (s.platform.isDevice a = false →
      hostAct (.memRead a) s = .next { s with rdata := (memRead s.mem a.toNat).setWidth 32 }) ∧
    (s.platform.isDevice a = true →
      hostAct (.memRead a) s =
        .next { s with rdata := (Config.freeByte s.draws).setWidth 32, draws := s.draws + 1 })

/-- One step: the host's action of the next beat, then, if the beat says so or no beat is left, the meaning of the
command that runs after the action; where none runs, no command starts (60_exceptions.md R335; 70_reset_and_hazards.md
R353). If the action faults or is refused, so is the step. A command word written to an idle block in a beat
that also completes runs exactly the command it decodes to. The schedule is the model's choice (DESIGN CHOICE, log entries
1, 3 and 11), and so is that the load in the first two clauses, `withCommand`, drops a command that was running (DESIGN
CHOICE, log entry 16). -/
def Obligations.StepRunsDecodedCommand : Prop :=
  (∀ (s : State) (w : Word) (i : Instr), decode w = .cmd i → overlapHazard i s = false →
    step (withCommand s w) =
      exec i { s with lastOp := opcode i, errCode := .success, errInfo := 0#32, running := some i }) ∧
  (∀ (s : State) (w : Nat), s.withFetchWord 32 w = withCommand s (BitVec.ofNat 32 w)) ∧
  (∀ (s : State) (i : Instr), s.running = some i → s.beats = [] → step s = exec i s) ∧
  (∀ (s : State) (i : Instr) (bs : List Beat), s.running = some i → s.beats = { act := none, finish := true } :: bs →
    step s = exec i { s with beats := bs }) ∧
  (∀ (s : State) (a : HostAct) (bs : List Beat), s.beats = { act := some a, finish := false } :: bs →
    step s = hostAct a { s with beats := bs }) ∧
  (∀ (s : State) (bs : List Beat), s.beats = { act := none, finish := false } :: bs →
    step s = .next { s with beats := bs }) ∧
  (∀ (s t : State) (a : HostAct) (bs : List Beat), s.beats = { act := some a, finish := true } :: bs →
    hostAct a { s with beats := bs } = .next t →
    (∀ i, t.running = some i → step s = exec i t) ∧ (t.running = none → step s = .next t)) ∧
  (∀ (s : State) (a : HostAct) (bs : List Beat), s.beats = { act := some a, finish := true } :: bs →
    (∀ f, hostAct a { s with beats := bs } = .fault f → step s = .fault f) ∧
    ∀ r, hostAct a { s with beats := bs } = .refused r → step s = .refused r) ∧
  (∀ s : State, s.running = none → s.beats = [] → step s = .next s) ∧
  ∀ (s : State) (bs : List Beat), s.running = none → s.beats = { act := none, finish := true } :: bs →
    step s = .next { s with beats := bs }

/-- Events in one step (60_exceptions.md R315): a dropped write does not affect the command that completes; a W1C
write and a completion that sets a bit leave the bit 1; reset takes precedence over the completion. That the host's
action of a beat comes first is the model's choice (log entries 1 and 18). -/
def Obligations.SimultaneousEvents : Prop :=
  ∀ (s : State) (i : Instr) (bs : List Beat) (v : Word), s.running = some i →
    (s.beats = { act := some (.regWrite Reg.cmd.offset 4 v), finish := true } :: bs →
      step s = exec i { s with beats := bs, irqStat := s.irqStat ||| 4#3 }) ∧
    (s.beats = { act := some (.regWrite Reg.irqStat.offset 4 v), finish := true } :: bs →
      ∀ t, step s = .next t →
        t.irqStat.getLsbD 0 = true ∧ (t.errCode ≠ .success → t.irqStat.getLsbD 1 = true)) ∧
    (s.beats = { act := some .reset, finish := true } :: bs →
      step s = .next (resetBlock { s with beats := bs }) ∧ (resetBlock { s with beats := bs }).irqStat = 0#3)

/-- Every command completes (R171): without the overlap hazard, and for a command that reads its source window with no
device in it, the meaning answers a next state with BUSY = 0, and so does the step that finishes it, whatever the
destination window maps (70_reset_and_hazards.md R368). Under the overlap hazard the meaning faults before any error of
its own (DEDUCED, log entry 23); no other fault but a read of a device in the source window, the model's choice (DESIGN
CHOICE, log entry 7; 93_implementation_defined.md U7), and no refusal. -/
def Obligations.EveryCommandCompletes : Prop :=
  (∀ (i : Instr) (s : State), overlapHazard i s = false → (readsSrc i = true → s.SourceIsMemory) →
    (∃ t, exec i s = .next t ∧ t.running = none) ∧
    (s.running = some i → s.beats = [] → ∃ t, step s = .next t ∧ t.running = none)) ∧
  (∀ (i : Instr) (s : State), overlapHazard i s = true → exec i s = .fault .windowOverlap) ∧
  (∀ (i : Instr) (s : State) (f : Fault), exec i s = .fault f →
    (f = .windowOverlap ∧ overlapHazard i s = true) ∨
    (readsSrc i = true ∧ ∃ k, k < s.srcLen.toNat ∧ s.platform.isDevice (s.src k) = true ∧
      f = .sourceDevice (s.src k))) ∧
  ∀ (i : Instr) (s : State) (r : Refusal), exec i s ≠ .refused r

/-- What every completion leaves (R167, R168; 60_exceptions.md R313, R316, R321): BUSY = 0; DONE is set, ERR exactly on
an error, DROP kept; ERR_INFO is 0 after a success and OUT_LEN is 0 after an error, of a command or of an illegal word.
That the state right after an illegal word's write is the one after its completion is the model's reading (DEDUCED, log
entry 4) of 30_encoding.md R124, "is accepted and completes at once". -/
def Obligations.CompletionEffects : Prop :=
  (∀ (i : Instr) (s t : State), exec i s = .next t →
    t.running = none ∧
    t.irqStat.getLsbD 0 = true ∧
    t.irqStat.getLsbD 1 = (s.irqStat.getLsbD 1 || decide (t.errCode ≠ .success)) ∧
    t.irqStat.getLsbD 2 = s.irqStat.getLsbD 2 ∧
    (t.errCode = .success → t.errInfo = 0#32) ∧
    (t.errCode ≠ .success → t.outLen = 0#32)) ∧
  ∀ (s t : State) (w v : Word), s.busy = false → decode w = .illegal v →
    hostAct (.regWrite Reg.cmd.offset 4 w) s = .next t → t.errCode ≠ .success ∧ t.outLen = 0#32

/-- No command writes SRC_ADDR, SRC_LEN, DST_ADDR, DST_CAP or TAB_SEL; BITCNT changes only by CLEAR (to 0), a
successful ENCODE (to the number of bits) and a successful PARSE (to the header's total) (10_state.md R32). The
frame of the other registers no command writes goes with it. -/
def Obligations.CommandsKeepOperandRegisters : Prop :=
  ∀ (i : Instr) (s t : State), Memory.wf s.mem = true → exec i s = .next t →
    (t.srcAddr = s.srcAddr ∧ t.srcLen = s.srcLen ∧ t.dstAddr = s.dstAddr ∧ t.dstCap = s.dstCap ∧
      t.tabSel = s.tabSel) ∧
    (t.irqEn = s.irqEn ∧ t.lastOp = s.lastOp ∧ t.platform = s.platform ∧ t.beats = s.beats ∧ t.rdata = s.rdata) ∧
    (i ≠ .clear → i ≠ .encode → i ≠ .parse → t.bitcnt = s.bitcnt) ∧
    (i ≠ .clear → t.errCode ≠ .success → t.bitcnt = s.bitcnt) ∧
    (i = .clear → t.bitcnt = 0#64) ∧
    (i = .encode → t.errCode = .success → t.bitcnt = BitVec.ofNat 64 (codeBits s.code s.srcBytes).length) ∧
    (i = .parse → t.errCode = .success → ∃ h, parseHeader s = .ok h ∧ t.bitcnt = BitVec.ofNat 64 h.total)

/-- Which command may change which table, and HDR_LEN: the frame of FREQ (10_state.md R71), CODE (R70), TREE (R76)
and HDR_LEN (R59). -/
def Obligations.WhoWritesTheTables : Prop :=
  ∀ (i : Instr) (s t : State), exec i s = .next t →
    (i ≠ .clear → i ≠ .count → t.freq = s.freq) ∧
    (i ≠ .clear → i ≠ .genCodes → i ≠ .parse → t.code = s.code) ∧
    (i = .genCodes → t.errCode ≠ .success → t.code = s.code) ∧
    (i ≠ .clear → i ≠ .count → i ≠ .buildTree → i ≠ .genCodes → t.tree = s.tree) ∧
    (i ≠ .clear → i ≠ .parse → t.hdrLen = s.hdrLen)

/-- The frame of memory (20_memory.md R93): a command that has no destination window leaves all of memory and draws
nothing; the others leave every byte outside the window, and after a success every byte but those at offsets
0 to OUT_LEN - 1. -/
def Obligations.MemoryOnlyInDestination : Prop :=
  ∀ (i : Instr) (s t : State), Memory.wf s.mem = true → exec i s = .next t →
    (i ≠ .encode → i ≠ .serialize → i ≠ .decode → t.mem = s.mem ∧ t.draws = s.draws) ∧
    (∀ a, s.OutsideDst s.dstCap.toNat a → memRead t.mem a = memRead s.mem a) ∧
    (t.errCode = .success →
      t.draws = s.draws ∧ t.outLen.toNat ≤ s.dstCap.toNat ∧
      ∀ a, s.OutsideDst t.outLen.toNat a → memRead t.mem a = memRead s.mem a)

/-- After an error of ENCODE, SERIALIZE or DECODE every byte of the destination window is a free value and no byte
outside changes, BITCNT and the table stay and OUT_LEN is 0; the other commands and an illegal word leave all of memory
on an error (60_exceptions.md R317; 43_encode.md R246; 45_decode.md R299). -/
def Obligations.FailedWindowIsFree : Prop :=
  (∀ (s t : State) (w v : Word), s.busy = false → decode w = .illegal v →
    hostAct (.regWrite Reg.cmd.offset 4 w) s = .next t → t.mem = s.mem) ∧
  ∀ (i : Instr) (s t : State), Memory.wf s.mem = true → exec i s = .next t → t.errCode ≠ .success →
    (i = .encode ∨ i = .serialize ∨ i = .decode →
      (∀ j, j < s.dstCap.toNat → t.dstByte j = Config.freeByte (s.draws + j)) ∧
      t.draws = s.draws + s.dstCap.toNat ∧
      (∀ a, s.OutsideDst s.dstCap.toNat a → memRead t.mem a = memRead s.mem a) ∧
      t.bitcnt = s.bitcnt ∧ t.code = s.code ∧ t.outLen = 0#32) ∧
    (i = .clear ∨ i = .count ∨ i = .buildTree ∨ i = .genCodes ∨ i = .parse → t.mem = s.mem)

/-- The error codes and which command can report which (60_exceptions.md R311). -/
def Obligations.ErrorCodesPerCommand : Prop :=
  (ErrCode.success.value = 0x00#8 ∧ ErrCode.emptyAlphabet.value = 0x01#8 ∧
    ErrCode.treeConstructionFailure.value = 0x02#8 ∧ ErrCode.noTree.value = 0x03#8 ∧
    ErrCode.unknownSymbol.value = 0x04#8 ∧ ErrCode.headerParse.value = 0x05#8 ∧
    ErrCode.headerIntegrity.value = 0x06#8 ∧ ErrCode.truncatedStream.value = 0x07#8 ∧
    ErrCode.illegalCommand.value = 0x08#8 ∧ ErrCode.noTable.value = 0x09#8 ∧
    ErrCode.dstOverflow.value = 0x0A#8 ∧ ErrCode.countOverflow.value = 0x0B#8 ∧
    ErrCode.busError.value = 0x0C#8 ∧ ∀ s : State, regValue s .errCode = s.errCode.value.setWidth 32) ∧
  ∀ (i : Instr) (s t : State), Memory.wf s.mem = true → exec i s = .next t →
    (i = .clear → t.errCode = .success) ∧
    (i = .count → t.errCode ∈ [ErrCode.success, .countOverflow, .busError]) ∧
    (i = .buildTree → t.errCode ∈ [ErrCode.success, .emptyAlphabet]) ∧
    (i = .genCodes → t.errCode ∈ [ErrCode.success, .noTree]) ∧
    (i = .encode → t.errCode ∈ [ErrCode.success, .noTable, .unknownSymbol, .dstOverflow, .busError]) ∧
    (i = .serialize → t.errCode ∈ [ErrCode.success, .noTable, .dstOverflow, .busError]) ∧
    (i = .parse → t.errCode ∈ [ErrCode.success, .headerParse, .headerIntegrity, .busError]) ∧
    (i = .decode → t.errCode ∈ [ErrCode.success, .noTable, .truncatedStream, .dstOverflow, .busError])

/-- The block's state after an error, per command (60_exceptions.md R318). -/
def Obligations.ErrorStatePerCommand : Prop :=
  (∀ (i : Instr) (s t : State), s.Inv → exec i s = .next t → t.errCode ≠ .success →
    t.bitcnt = s.bitcnt ∧
    (i ≠ .count → t.freq = s.freq ∧ t.tree = s.tree) ∧
    (i ≠ .parse → t.code = s.code ∧ t.hdrLen = s.hdrLen) ∧
    (i = .count → t.errCode = .countOverflow → t.freq = s.freq ∧ t.tree = s.tree) ∧
    (i = .count → t.errCode = .busError → t.tree = none ∧
      ∃ k, k < s.srcLen.toNat ∧ t.errInfo = s.src k ∧
        ∀ x, (t.freqOf x).toNat = (s.freqOf x).toNat + ((List.range k).map s.srcByte).count x) ∧
    (i = .buildTree → t.tree = none) ∧
    (i = .genCodes → t.tree = none) ∧
    (i = .parse → (∀ x, t.codeOf x = []) ∧ t.hdrLen = 0#32)) ∧
  ∀ (s t : State) (w v : Word), s.busy = false → decode w = .illegal v →
    hostAct (.regWrite Reg.cmd.offset 4 w) s = .next t →
    t.freq = s.freq ∧ t.tree = s.tree ∧ t.code = s.code ∧ t.bitcnt = s.bitcnt ∧ t.hdrLen = s.hdrLen

/-! ### CLEAR and COUNT (41_frequency.md) -/

/-- CLEAR empties the tables, drops the tree and zeroes BITCNT, HDR_LEN and OUT_LEN, and keeps the host's
configuration; after reset it changes IRQ_STAT.DONE alone (R190, R191). -/
def Obligations.ClearEmptiesSession : Prop :=
  exec .clear State.reset = .next { State.reset with irqStat := 1#3 } ∧
  ∀ s : State, ∃ t, exec .clear s = .next t ∧
    t = { s with
      freq := zeroFreq, code := emptyTable, tree := none, bitcnt := 0#64, hdrLen := 0#32, outLen := 0#32,
      errCode := .success, errInfo := 0#32, irqStat := s.irqStat ||| 1#3, running := none } ∧
    (∀ x, t.freqOf x = 0#32 ∧ t.codeOf x = []) ∧
    t.treeValid = false ∧ t.tableValid = false ∧ t.nsym = 0 ∧ t.total = 0 ∧ t.maxlen = 0 ∧ t.hdrSize = 0

/-- COUNT of a readable window within the overflow check adds to each counter the occurrences of its symbol in the
window, drops the tree, adds SRC_LEN to TOTAL and changes nothing else (R195, R197). -/
def Obligations.CountAddsWindow : Prop :=
  ∀ s : State, s.total + s.srcLen.toNat ≤ 2 ^ 32 - 1 → s.ReadableTo s.srcLen.toNat →
    ∃ f, exec .count s = .next { s with
        freq := f, tree := none, outLen := 0#32,
        errCode := .success, errInfo := 0#32, irqStat := s.irqStat ||| 1#3, running := none } ∧
      (∀ x, (tabGet f x).toNat = (s.freqOf x).toNat + s.srcBytes.count x) ∧
      ({ s with freq := f } : State).total = s.total + s.srcLen.toNat

/-- COUNT past the overflow limit changes no table or tree (R195); COUNT ending in BUS_ERROR at offset k has counted
exactly the k bytes before it (R198). That COUNT faults if it reads a device at offset k is the model's choice (DESIGN
CHOICE, log entry 7; 20_memory.md R98; 93_implementation_defined.md U7). -/
def Obligations.CountErrors : Prop :=
  (∀ s : State, 2 ^ 32 - 1 < s.total + s.srcLen.toNat →
    exec .count s = .next { s with
      outLen := 0#32, errCode := .countOverflow, errInfo := 0#32, irqStat := s.irqStat ||| 1#3 ||| 2#3,
      running := none }) ∧
  ∀ (s : State) (k : Nat), s.total + s.srcLen.toNat ≤ 2 ^ 32 - 1 → k < s.srcLen.toNat → s.ReadableTo k →
    (s.platform.busOk .read (s.src k) = false →
      ∃ f, exec .count s = .next { s with
          freq := f, tree := none, outLen := 0#32, errCode := .busError, errInfo := s.src k,
          irqStat := s.irqStat ||| 1#3 ||| 2#3, running := none } ∧
        ∀ x, (tabGet f x).toNat = (s.freqOf x).toNat + ((List.range k).map s.srcByte).count x) ∧
    (s.platform.busOk .read (s.src k) = true → s.platform.isDevice (s.src k) = true →
      exec .count s = .fault (.sourceDevice (s.src k)))

/-- COUNT of window A then of window B leaves the counters of one COUNT of A followed by B, in either order (R196). -/
def Obligations.CountAccumulates : Prop :=
  ∀ (s : State) (a b c : Addr) (m n l : Word),
    l.toNat = m.toNat + n.toNat → s.total + l.toNat ≤ 2 ^ 32 - 1 →
    ({ s with srcAddr := a, srcLen := m } : State).ReadableTo m.toNat →
    ({ s with srcAddr := b, srcLen := n } : State).ReadableTo n.toNat →
    ({ s with srcAddr := c, srcLen := l } : State).ReadableTo l.toNat →
    ({ s with srcAddr := c, srcLen := l } : State).srcBytes =
      ({ s with srcAddr := a, srcLen := m } : State).srcBytes ++ ({ s with srcAddr := b, srcLen := n } : State).srcBytes →
    ∃ tA tAB tB tBA tC,
      exec .count { s with srcAddr := a, srcLen := m } = .next tA ∧
      exec .count { tA with srcAddr := b, srcLen := n } = .next tAB ∧
      exec .count { s with srcAddr := b, srcLen := n } = .next tB ∧
      exec .count { tB with srcAddr := a, srcLen := m } = .next tBA ∧
      exec .count { s with srcAddr := c, srcLen := l } = .next tC ∧
      tAB.freq = tC.freq ∧ tBA.freq = tC.freq

/-! ### BUILD_TREE and GEN_CODES (42_tree_codes.md) -/

/-- BUILD_TREE without a counted symbol fails with EMPTY_ALPHABET (R212) and GEN_CODES without a tree fails with
NO_TREE (R220), each before any change; with an empty table ENCODE, SERIALIZE and DECODE fail with NO_TABLE before any
access, and SERIALIZE with too small a window fails with DST_OVERFLOW (43_encode.md R240, R245; 44_header.md R260;
45_decode.md R290). -/
def Obligations.MissingInputErrors : Prop :=
  (∀ s : State, (∀ x, s.freqOf x = 0#32) →
    exec .buildTree s = .next { s with
      outLen := 0#32, errCode := .emptyAlphabet, errInfo := 0#32, irqStat := s.irqStat ||| 1#3 ||| 2#3,
      running := none }) ∧
  (∀ s : State, s.tree = none →
    exec .genCodes s = .next { s with
      outLen := 0#32, errCode := .noTree, errInfo := 0#32, irqStat := s.irqStat ||| 1#3 ||| 2#3, running := none }) ∧
  (∀ s : State, s.tabNsym = 0 →
    (exec .serialize s = .next { freeDst s with
      outLen := 0#32, errCode := .noTable, errInfo := 0#32, irqStat := s.irqStat ||| 1#3 ||| 2#3, running := none }) ∧
    (s.WindowsApart →
      exec .encode s = .next { freeDst s with
        outLen := 0#32, errCode := .noTable, errInfo := 0#32, irqStat := s.irqStat ||| 1#3 ||| 2#3, running := none } ∧
      exec .decode s = .next { freeDst s with
        outLen := 0#32, errCode := .noTable, errInfo := 0#32, irqStat := s.irqStat ||| 1#3 ||| 2#3, running := none })) ∧
  ∀ s : State, s.tabNsym ≠ 0 → s.dstCap.toNat < s.hdrSize →
    exec .serialize s = .next { freeDst s with
      outLen := 0#32, errCode := .dstOverflow, errInfo := 0#32, irqStat := s.irqStat ||| 1#3 ||| 2#3, running := none }

/-- BUILD_TREE with a counted symbol completes with the tree `buildTree` of FREQ, whose merges `MergeTakesTwoLeast` and
`WorkedMergeTrace` describe (R212, R213). It has exactly one leaf per counted symbol, weighted by its count; every node
weighs what the leaves below it weigh and fits 32 bits, every leaf at least 1, the root TOTAL; at most 255 internal nodes,
and depth at most 255; a single symbol's tree is its leaf (R212, R214, R215; 10_state.md R75). -/
def Obligations.BuildTreeBuilds : Prop :=
  ∀ s : State, (∃ x, s.freqOf x ≠ 0#32) →
    ∃ tr, exec .buildTree s = .next { s with
        tree := some tr, outLen := 0#32,
        errCode := .success, errInfo := 0#32, irqStat := s.irqStat ||| 1#3, running := none } ∧
      buildTree s.freq = some tr ∧
      tr.leaves.Perm (countedSymbols s.freq) ∧ tr.leaves.length = s.nsym ∧
      (∀ n ∈ tr.subtrees, n.weight = (n.leaves.map (·.2)).sum) ∧
      (∀ w k l r, Machine.Tree.node w k l r ∈ tr.subtrees → w = l.weight + r.weight) ∧
      (∀ e ∈ tr.leaves, 1 ≤ e.2) ∧ tr.weight = s.total ∧
      (s.total ≤ 2 ^ 32 - 1 → ∀ n ∈ tr.subtrees, n.weight ≤ 2 ^ 32 - 1) ∧
      tr.innerKeys.length ≤ 255 ∧ (∀ e ∈ tr.paths, e.2.length ≤ 255) ∧
      (∀ x, (∀ y, s.freqOf y ≠ 0#32 ↔ y = x) → tr = .leaf x (s.freqOf x).toNat)

/-- The order of nodes is a strict total order where keys differ; of equal weights a leaf precedes an internal node,
the lower symbol precedes, and the node created earlier precedes (R210, R211). -/
def Obligations.NodeOrder : Prop :=
  (∀ x y : Machine.Tree, precedes x y = true ↔ x.weight < y.weight ∨ (x.weight = y.weight ∧ x.key < y.key)) ∧
  (∀ x : Machine.Tree, precedes x x = false) ∧
  (∀ x y z : Machine.Tree, precedes x y = true → precedes y z = true → precedes x z = true) ∧
  (∀ x y : Machine.Tree, x.key ≠ y.key → precedes x y = true ∨ precedes y x = true) ∧
  (∀ (a : Byte) (w m : Nat) (l r : Machine.Tree), precedes (.leaf a w) (.node w (256 + m) l r) = true) ∧
  (∀ (a b : Byte) (w : Nat), a.toNat < b.toNat → precedes (.leaf a w) (.leaf b w) = true) ∧
  ∀ (w m m' : Nat) (l r l' r' : Machine.Tree), m < m' →
    precedes (.node w (256 + m) l r) (.node w (256 + m') l' r') = true

/-- The merges (R212, R213): the queue starts as the counted leaves in order; merge `m` takes the least node `x` and
the next least `y`, puts the node of weight x.w + y.w and key 256 + m with `y` left and `x` right into the queue, and
keeps the order; a queue of one node is the end, and that node is the tree `buildTree` answers, which BUILD_TREE stores
(`BuildTreeBuilds`). -/
def Obligations.MergeTakesTwoLeast : Prop :=
  (∀ freq, (leafQueue freq).Perm ((countedSymbols freq).map fun e => .leaf e.1 e.2) ∧
    (leafQueue freq).Pairwise fun x y => precedes x y = true) ∧
  (∀ (n m : Nat) (x y : Machine.Tree) (q : List Machine.Tree), (x :: y :: q).Pairwise (fun x y => precedes x y = true) →
    (∀ z ∈ x :: y :: q, z.key < 256 + m) →
    ∃ q', mergeLoop (n + 1) m (x :: y :: q) = mergeLoop n (m + 1) q' ∧
      q'.Perm (.node (x.weight + y.weight) (256 + m) y x :: q) ∧
      (q'.Pairwise fun x y => precedes x y = true) ∧ ∀ z ∈ q', z.key < 256 + (m + 1)) ∧
  (∀ (n m : Nat) (x : Machine.Tree), mergeLoop n m [x] = [x]) ∧
  ∀ freq t, buildTree freq = some t → mergeLoop (leafQueue freq).length 0 (leafQueue freq) = [t]

/-- The worked trace for the counts 5, 2, 1, 1 of the symbols 0x61 to 0x64, and the codes of its tree (R218, R225). -/
def Obligations.WorkedMergeTrace : Prop :=
  let freq := tabSet (tabSet (tabSet (tabSet zeroFreq 0x61#8 5#32) 0x62#8 2#32) 0x63#8 1#32) 0x64#8 1#32
  let i0 := Machine.Tree.node 2 256 (.leaf 0x64#8 1) (.leaf 0x63#8 1)
  let i1 := Machine.Tree.node 4 257 i0 (.leaf 0x62#8 2)
  let root := Machine.Tree.node 9 258 (.leaf 0x61#8 5) i1
  leafQueue freq = [.leaf 0x63#8 1, .leaf 0x64#8 1, .leaf 0x62#8 2, .leaf 0x61#8 5] ∧
  (∀ n, mergeLoop (n + 1) 0 [.leaf 0x63#8 1, .leaf 0x64#8 1, .leaf 0x62#8 2, .leaf 0x61#8 5] =
    mergeLoop n 1 [.leaf 0x62#8 2, i0, .leaf 0x61#8 5]) ∧
  (∀ n, mergeLoop (n + 1) 1 [.leaf 0x62#8 2, i0, .leaf 0x61#8 5] = mergeLoop n 2 [i1, .leaf 0x61#8 5]) ∧
  (∀ n, mergeLoop (n + 1) 2 [i1, .leaf 0x61#8 5] = mergeLoop n 3 [root]) ∧
  buildTree freq = some root ∧
  tabGet (codesOf root) 0x61#8 = [false] ∧ tabGet (codesOf root) 0x62#8 = [true, true] ∧
  tabGet (codesOf root) 0x64#8 = [true, false, false] ∧ tabGet (codesOf root) 0x63#8 = [true, false, true]

/-- GEN_CODES with a tree completes, gives a single leaf the code "0" and otherwise each leaf the branches from the
root to it, no other symbol a code, and consumes the tree (R220, R221, R222). -/
def Obligations.GenCodesWritesPaths : Prop :=
  ∀ (s : State) (tr : Machine.Tree), s.tree = some tr → (tr.leaves.map (·.1)).Nodup →
    ∃ code, exec .genCodes s = .next { s with
        code := code, tree := none, outLen := 0#32,
        errCode := .success, errInfo := 0#32, irqStat := s.irqStat ||| 1#3, running := none } ∧
      (∀ x w, tr = .leaf x w → tabGet code x = [false]) ∧
      (∀ w k l r, tr = .node w k l r → ∀ e ∈ tr.paths, tabGet code e.1 = e.2) ∧
      ∀ x, x ∉ tr.leaves.map (·.1) → tabGet code x = []

/-- The properties (a) to (e) of a table GEN_CODES writes from a tree of the current counts (R223). -/
def Obligations.GenCodesTableProperties : Prop :=
  ∀ (s : State) (tr : Machine.Tree), s.tree = some tr → TreeOf s.freq tr →
    ∃ t, exec .genCodes s = .next t ∧
      (t.tabNsym = tr.leaves.length ∧ ∀ x, t.codeLen x ≠ 0 ↔ s.freqOf x ≠ 0#32) ∧
      (2 ≤ tr.leaves.length → ∀ x, t.codeLen x ≠ 0 → t.codeLen x ≤ tr.leaves.length - 1) ∧
      (tr.leaves.length = 1 → ∀ x, t.codeLen x ≠ 0 → t.codeLen x = 1) ∧
      (∀ x, t.codeLen x ≤ 255) ∧
      PrefixFree t.code ∧
      (2 ≤ tr.leaves.length → kraftSum t.code = 2 ^ 255) ∧
      (tr.leaves.length = 1 → (∃ x, t.entries = [(x, [false])]) ∧ kraftSum t.code = 2 ^ 254)

/-- The table BUILD_TREE and GEN_CODES make is a function of FREQ alone (R224). -/
def Obligations.CodesDependOnCountsOnly : Prop :=
  ∀ s₁ s₂ : State, s₁.freq = s₂.freq → (∃ x, s₁.freqOf x ≠ 0#32) →
    ∃ u₁ u₂ t₁ t₂, exec .buildTree s₁ = .next u₁ ∧ exec .genCodes u₁ = .next t₁ ∧
      exec .buildTree s₂ = .next u₂ ∧ exec .genCodes u₂ = .next t₂ ∧
      t₁.errCode = .success ∧ t₂.errCode = .success ∧ t₁.code = t₂.code

/-! ### ENCODE (43_encode.md) -/

/-- ENCODE of known symbols whose bits fit: the destination bytes are the codes of the source bytes in order, packed
most significant bit first, with 0 in the padding bits; BITCNT and OUT_LEN say how much; nothing else changes. A
source of length 0 writes nothing (R240, R241, R242, R245). -/
def Obligations.EncodePacksWindow : Prop :=
  ∀ s : State, Memory.wf s.mem = true → s.WindowsApart → s.tabNsym ≠ 0 → s.ReadableTo s.srcLen.toNat →
    (∀ x ∈ s.srcBytes, s.codeOf x ≠ []) →
    (codeBits s.code s.srcBytes).length ≤ 8 * s.dstCap.toNat →
    s.WritableTo (ceil8 (codeBits s.code s.srcBytes).length) →
    ∃ m, exec .encode s = .next { s with
        mem := m, bitcnt := BitVec.ofNat 64 (codeBits s.code s.srcBytes).length,
        outLen := BitVec.ofNat 32 (ceil8 (codeBits s.code s.srcBytes).length),
        errCode := .success, errInfo := 0#32, irqStat := s.irqStat ||| 1#3, running := none } ∧
      (∀ k, k < 8 * ceil8 (codeBits s.code s.srcBytes).length →
        (memRead m (s.dst (k / 8)).toNat).getLsbD (7 - k % 8) = (codeBits s.code s.srcBytes).getD k false) ∧
      (∀ a, s.OutsideDst (ceil8 (codeBits s.code s.srcBytes).length) a → memRead m a = memRead s.mem a) ∧
      (s.srcLen = 0#32 → m = s.mem)

/-- The errors of ENCODE behind `k` source bytes that have codes, in the order of 60_exceptions.md R314. Byte `k` not
readable stops it with BUS_ERROR at its address (R312). That a device there faults is the model's choice (DESIGN CHOICE,
log entry 7; 20_memory.md R98; 93_implementation_defined.md U7).
Byte `k` without a code stops it with its offset (R243). Bits of the `k` bytes that need more than DST_CAP bytes stop it
(R244; that exactly 8 * DST_CAP bits fit is said by `EncodePacksWindow`). The first byte of the payload that the
platform refuses, completed by the bits of the `k` bytes or the padded last one, stops it with BUS_ERROR at its address
(R312). No byte after the last one looked at need be readable. -/
def Obligations.EncodeErrors : Prop :=
  ∀ (s : State) (k : Nat), Memory.wf s.mem = true → s.WindowsApart → s.tabNsym ≠ 0 →
    (∀ i, i < k → s.codeOf (s.srcByte i) ≠ []) →
    (k < s.srcLen.toNat → s.ReadableTo (k + 1) → s.codeOf (s.srcByte k) = [] →
      (codeBits s.code ((List.range k).map s.srcByte)).length ≤ 8 * s.dstCap.toNat →
      s.WritableTo ((codeBits s.code ((List.range k).map s.srcByte)).length / 8) →
      exec .encode s = .next { freeDst s with
        outLen := 0#32, errCode := .unknownSymbol, errInfo := BitVec.ofNat 32 k,
        irqStat := s.irqStat ||| 1#3 ||| 2#3, running := none }) ∧
    (k ≤ s.srcLen.toNat → s.ReadableTo k →
      8 * s.dstCap.toNat < (codeBits s.code ((List.range k).map s.srcByte)).length →
      s.WritableTo s.dstCap.toNat →
      exec .encode s = .next { freeDst s with
        outLen := 0#32, errCode := .dstOverflow, errInfo := 0#32,
        irqStat := s.irqStat ||| 1#3 ||| 2#3, running := none }) ∧
    (k < s.srcLen.toNat → s.ReadableTo k →
      (codeBits s.code ((List.range k).map s.srcByte)).length ≤ 8 * s.dstCap.toNat →
      s.WritableTo ((codeBits s.code ((List.range k).map s.srcByte)).length / 8) →
      (s.platform.busOk .read (s.src k) = false →
        exec .encode s = .next { freeDst s with
          outLen := 0#32, errCode := .busError, errInfo := s.src k,
          irqStat := s.irqStat ||| 1#3 ||| 2#3, running := none }) ∧
      (s.platform.busOk .read (s.src k) = true → s.platform.isDevice (s.src k) = true →
        exec .encode s = .fault (.sourceDevice (s.src k)))) ∧
    ∀ j, k ≤ s.srcLen.toNat → s.ReadableTo k → j < s.dstCap.toNat → s.WritableTo j →
      s.platform.busOk .write (s.dst j) = false →
      (8 * (j + 1) ≤ (codeBits s.code ((List.range k).map s.srcByte)).length ∨
        (k = s.srcLen.toNat ∧ 8 * j < (codeBits s.code ((List.range k).map s.srcByte)).length ∧
          (codeBits s.code ((List.range k).map s.srcByte)).length < 8 * (j + 1))) →
      exec .encode s = .next { freeDst s with
        outLen := 0#32, errCode := .busError, errInfo := s.dst j,
        irqStat := s.irqStat ||| 1#3 ||| 2#3, running := none }

/-- The bounds of a successful ENCODE, and its bit count as the weighted sum when the counters are those of the
window it encodes (R247). -/
def Obligations.EncodeBitCount : Prop :=
  ∀ s t : State, s.Inv → exec .encode s = .next t → t.errCode = .success →
    t.bitcnt.toNat = (codeBits s.code s.srcBytes).length ∧
    t.bitcnt.toNat ≤ 255 * s.srcLen.toNat ∧ t.bitcnt.toNat < 2 ^ 40 ∧
    t.outLen.toNat = ceil8 t.bitcnt.toNat ∧ t.outLen.toNat ≤ s.dstCap.toNat ∧
    ((∀ x, (s.freqOf x).toNat = s.srcBytes.count x) →
      t.bitcnt.toNat = ∑ n : Fin 256, (s.freqOf (BitVec.ofFin n)).toNat * s.codeLen (BitVec.ofFin n))

/-! ### SERIALIZE and PARSE (44_header.md; layout 30_encoding.md) -/

/-- SERIALIZE with a table and room writes the header of its entries, in ascending symbol order, one per table entry,
and BITCNT; OUT_LEN is HDR_SIZE and nothing else changes (R260, R261). If byte `j` of the window is the first of the
header's the platform refuses, it stops with BUS_ERROR at that byte's address (60_exceptions.md R312, R314). -/
def Obligations.SerializeWritesHeader : Prop :=
  (∀ s : State, Memory.wf s.mem = true → s.tabNsym ≠ 0 → s.hdrSize ≤ s.dstCap.toNat → s.WritableTo s.hdrSize →
    (∃ m, exec .serialize s = .next { s with
        mem := m, outLen := BitVec.ofNat 32 s.hdrSize,
        errCode := .success, errInfo := 0#32, irqStat := s.irqStat ||| 1#3, running := none } ∧
      (headerBytes s.entries s.bitcnt.toNat).length = s.hdrSize ∧
      Stored s (headerBytes s.entries s.bitcnt.toNat) m) ∧
    (s.entries.Pairwise fun e f => e.1.toNat < f.1.toNat) ∧
    ∀ x c, (x, c) ∈ s.entries ↔ c = s.codeOf x ∧ s.codeLen x ≠ 0) ∧
  ∀ (s : State) (j : Nat), s.tabNsym ≠ 0 → s.hdrSize ≤ s.dstCap.toNat → j < s.hdrSize → s.WritableTo j →
    s.platform.busOk .write (s.dst j) = false →
    exec .serialize s = .next { freeDst s with
      outLen := 0#32, errCode := .busError, errInfo := s.dst j,
      irqStat := s.irqStat ||| 1#3 ||| 2#3, running := none }

/-- The layout of the header the serializer writes and its length: the count and the total big-endian, each entry its
symbol, its length and its code most significant bit first with padding 0 (30_encoding.md R142 to R145, R147). The
length of the current table's header is HDR_SIZE; the smallest is 13 bytes and the largest 8714. -/
def Obligations.HeaderLayout : Prop :=
  (∀ (es : List (Byte × Code)) (total : Nat), es.length < 2 ^ 16 → total < 2 ^ 64 →
    ∃ c₁ c₀ tail, headerBytes es total = [c₁, c₀] ++ es.flatMap entryBytes ++ tail ∧
      c₁.toNat * 256 + c₀.toNat = es.length ∧
      tail.length = 8 ∧ total = ∑ i : Fin 8, (tail.getD i.val 0#8).toNat * 256 ^ (7 - i.val)) ∧
  (∀ (x : Byte) (c : Code), c.length ≤ 255 →
    ∃ body, entryBytes (x, c) = x :: BitVec.ofNat 8 c.length :: body ∧ body.length = (c.length + 7) / 8 ∧
      ∀ k, k < 8 * body.length → (body.getD (k / 8) 0#8).getLsbD (7 - k % 8) = c.getD k false) ∧
  (∀ (es : List (Byte × Code)) (total : Nat),
    (headerBytes es total).length = 2 + (es.map fun e => 2 + (e.2.length + 7) / 8).sum + 8) ∧
  (∀ (s : State) (total : Nat), s.tabNsym ≠ 0 → (headerBytes s.entries total).length = s.hdrSize) ∧
  ∀ (es : List (Byte × Code)) (total : Nat), es ≠ [] → es.length ≤ 256 →
    (∀ e ∈ es, 1 ≤ e.2.length ∧ e.2.length ≤ 255) →
    (13 ≤ (headerBytes es total).length ∧ (headerBytes es total).length ≤ 8714) ∧
    (es.length = 1 → (∀ e ∈ es, e.2.length = 1) → (headerBytes es total).length = 13) ∧
    (es.length = 256 → (∀ e ∈ es, 249 ≤ e.2.length) → (headerBytes es total).length = 8714)

/-- PARSE of a window that begins with a header, with any entry order and any padding bits, loads exactly its
entries, its total and its length, and reads no byte behind it (R270, R273, R274, R277). -/
def Obligations.ParseAcceptsHeader : Prop :=
  ∀ (s : State) (es : List (Byte × Code)) (total : Nat) (bs : List Byte),
    es ≠ [] → EntriesAgree es → total < 2 ^ 64 → HeaderFits es total bs →
    HoldsAt s 0 bs → bs.length ≤ s.srcLen.toNat → s.ReadableTo bs.length →
    ∃ code, exec .parse s = .next { s with
        code := code, bitcnt := BitVec.ofNat 64 total, hdrLen := BitVec.ofNat 32 bs.length, outLen := 0#32,
        errCode := .success, errInfo := 0#32, irqStat := s.irqStat ||| 1#3, running := none } ∧
      (∀ e ∈ es, tabGet code e.1 = e.2) ∧ (∀ x, x ∉ es.map (·.1) → tabGet code x = []) ∧
      ({ s with code := code } : State).tabNsym = es.length ∧
      ({ s with code := code } : State).hdrSize = bs.length ∧
      bs.length = 2 + (es.map fun e => 2 + (e.2.length + 7) / 8).sum + 8

/-- Header round trip (R276): after SERIALIZE of a sound non-empty table, PARSE of the window it wrote restores the
same table and BITCNT, with HDR_LEN = HDR_SIZE. -/
def Obligations.HeaderRoundTrip : Prop :=
  ∀ (s : State) (n : Word), s.Inv → s.tabNsym ≠ 0 → s.hdrSize ≤ s.dstCap.toNat → s.WritableTo s.hdrSize →
    s.hdrSize ≤ n.toNat →
    ({ s with srcAddr := s.dstAddr, srcLen := n } : State).ReadableTo s.hdrSize →
    ∃ t u, exec .serialize s = .next t ∧ t.errCode = .success ∧
      exec .parse { t with srcAddr := s.dstAddr, srcLen := n } = .next u ∧ u.errCode = .success ∧
      u.code = s.code ∧ u.bitcnt = s.bitcnt ∧ u.hdrLen.toNat = s.hdrSize

/-- After a failed PARSE the table is empty, HDR_LEN and OUT_LEN are 0 and BITCNT is kept, and a following DECODE
fails with NO_TABLE (R275). -/
def Obligations.ParseErrorEmptiesTable : Prop :=
  ∀ s t : State, exec .parse s = .next t → t.errCode ≠ .success →
    t.errCode ∈ [ErrCode.headerParse, .headerIntegrity, .busError] ∧
    (∀ x, t.codeLen x = 0) ∧ t.tabNsym = 0 ∧ t.tableValid = false ∧
    t.hdrLen = 0#32 ∧ t.outLen = 0#32 ∧ t.bitcnt = s.bitcnt ∧
    (t.WindowsApart → ∃ u, exec .decode t = .next u ∧ u.errCode = .noTable)

/-- HEADER_PARSE (R271): a window that ends where the header needs a byte names that byte, also inside an entry that
repeats an earlier symbol or code, which R272 rejects only once all its bytes are read; a count of 0 or above 256 names
offset 0; a length byte 0 behind good entries names that byte. A byte the header needs that is not readable stops PARSE
with BUS_ERROR at its address (60_exceptions.md R312, R314). That a device there faults is the model's choice (DESIGN
CHOICE, log entry 7; 20_memory.md R98; 93_implementation_defined.md U7). -/
def Obligations.ParseMalformedHeader : Prop :=
  (∀ (s : State) (bs : List Byte), HeaderStart bs → HoldsAt s 0 bs → s.ReadableTo bs.length →
    (s.srcLen.toNat = bs.length →
      exec .parse s = .next { s with
        code := emptyTable, hdrLen := 0#32, outLen := 0#32, errCode := .headerParse, errInfo := s.srcLen,
        irqStat := s.irqStat ||| 1#3 ||| 2#3, running := none }) ∧
    (bs.length < s.srcLen.toNat → s.platform.busOk .read (s.src bs.length) = false →
      exec .parse s = .next { s with
        code := emptyTable, hdrLen := 0#32, outLen := 0#32, errCode := .busError, errInfo := s.src bs.length,
        irqStat := s.irqStat ||| 1#3 ||| 2#3, running := none }) ∧
    (bs.length < s.srcLen.toNat → s.platform.busOk .read (s.src bs.length) = true →
      s.platform.isDevice (s.src bs.length) = true →
      exec .parse s = .fault (.sourceDevice (s.src bs.length)))) ∧
  (∀ s : State, 2 ≤ s.srcLen.toNat → s.ReadableTo 2 →
    ((s.srcByte 0).toNat * 256 + (s.srcByte 1).toNat = 0 ∨ 256 < (s.srcByte 0).toNat * 256 + (s.srcByte 1).toNat) →
    exec .parse s = .next { s with
      code := emptyTable, hdrLen := 0#32, outLen := 0#32, errCode := .headerParse, errInfo := 0#32,
      irqStat := s.irqStat ||| 1#3 ||| 2#3, running := none }) ∧
  ∀ (s : State) (es : List (Byte × Code)) (parts : List (List Byte)) (x : Byte) (count : Nat),
    EntriesAgree es → List.Forall₂ EntryFits es parts → es.length < count → count ≤ 256 →
    HoldsAt s 0 (beBytes 2 count ++ parts.flatten ++ [x, 0#8]) →
    2 + parts.flatten.length + 2 ≤ s.srcLen.toNat → s.ReadableTo (2 + parts.flatten.length + 2) →
    exec .parse s = .next { s with
      code := emptyTable, hdrLen := 0#32, outLen := 0#32, errCode := .headerParse,
      errInfo := BitVec.ofNat 32 (2 + parts.flatten.length + 1),
      irqStat := s.irqStat ||| 1#3 ||| 2#3, running := none }

/-- HEADER_INTEGRITY (R272): the first entry that repeats an earlier symbol, or whose code is a prefix of an earlier
one's or the other way round, is rejected with its index. -/
def Obligations.ParseRejectsConflict : Prop :=
  ∀ (s : State) (es : List (Byte × Code)) (parts : List (List Byte)) (e : Byte × Code) (bs : List Byte) (count : Nat),
    EntriesAgree es → List.Forall₂ EntryFits es parts → es.length < count → count ≤ 256 →
    1 ≤ e.2.length → e.2.length ≤ 255 → EntryFits e bs →
    (∃ f ∈ es, f.1 = e.1 ∨ f.2 <+: e.2 ∨ e.2 <+: f.2) →
    HoldsAt s 0 (beBytes 2 count ++ parts.flatten ++ bs) →
    2 + parts.flatten.length + bs.length ≤ s.srcLen.toNat → s.ReadableTo (2 + parts.flatten.length + bs.length) →
    exec .parse s = .next { s with
      code := emptyTable, hdrLen := 0#32, outLen := 0#32, errCode := .headerIntegrity,
      errInfo := BitVec.ofNat 32 es.length,
      irqStat := s.irqStat ||| 1#3 ||| 2#3, running := none }

/-- Every command keeps the invariants of the code table: lengths fit, the table is prefix-free, and a table of two or
more entries that GEN_CODES wrote is complete (10_state.md R72). -/
def Obligations.CodeTableStaysSound : Prop :=
  ∀ (i : Instr) (s t : State), s.Inv → exec i s = .next t →
    (∀ x, t.codeLen x ≤ 255) ∧
    (∀ x y, x ≠ y → t.codeLen x ≠ 0 → t.codeLen y ≠ 0 →
      ¬ (t.codeOf x <+: t.codeOf y) ∧ ¬ (t.codeOf y <+: t.codeOf x)) ∧
    (i = .genCodes → t.errCode = .success → 2 ≤ t.tabNsym → kraftSum t.code = 2 ^ 255)

/-! ### DECODE (45_decode.md) -/

/-- DECODE of the codes of some symbols writes the symbols: the first BITCNT source bits are their codes one after the
other, SRC_LEN is the payload's length, whatever the padding bits (R290, R293, R294). -/
def Obligations.DecodeReadsPayload : Prop :=
  ∀ (s : State) (xs : List Byte), Memory.wf s.mem = true → PrefixFree s.code → s.WindowsApart → s.tabNsym ≠ 0 →
    (∀ x ∈ xs, s.codeOf x ≠ []) → s.bitcnt.toNat = (codeBits s.code xs).length →
    s.srcLen.toNat = ceil8 s.bitcnt.toNat → s.ReadableTo s.srcLen.toNat →
    (∀ k, k < s.bitcnt.toNat → s.srcBit k = (codeBits s.code xs).getD k false) →
    xs.length ≤ s.dstCap.toNat → s.WritableTo xs.length →
    ∃ m, exec .decode s = .next { s with
        mem := m, outLen := BitVec.ofNat 32 xs.length,
        errCode := .success, errInfo := 0#32, irqStat := s.irqStat ||| 1#3, running := none } ∧
      Stored s xs m

/-- Whatever a successful DECODE writes, the codes of the symbols written are exactly the first BITCNT bits (R290,
R296). -/
def Obligations.DecodeConsumesAllBits : Prop :=
  ∀ s t : State, s.Inv → exec .decode s = .next t → t.errCode = .success →
    ∃ xs : List Byte, t.outLen.toNat = xs.length ∧ (∀ j, j < xs.length → t.dstByte j = xs.getD j 0#8) ∧
      (∀ x ∈ xs, s.codeOf x ≠ []) ∧ (List.range s.bitcnt.toNat).map s.srcBit = codeBits s.code xs ∧
      s.srcLen.toNat = ceil8 s.bitcnt.toNat

/-- TRUNCATED_STREAM (R292, R295, R296): 1 for a payload of another length, before any read; 2 as soon as MAXLEN bits
match no entry, with no later byte read; 3 for bits left over at the end. -/
def Obligations.DecodeTruncatedStream : Prop :=
  (∀ s : State, s.WindowsApart → s.tabNsym ≠ 0 → s.srcLen.toNat ≠ ceil8 s.bitcnt.toNat →
    exec .decode s = .next { freeDst s with
      outLen := 0#32, errCode := .truncatedStream, errInfo := 1#32,
      irqStat := s.irqStat ||| 1#3 ||| 2#3, running := none }) ∧
  ∀ (s : State) (xs : List Byte) (rest : Code), Memory.wf s.mem = true → PrefixFree s.code → s.WindowsApart →
    s.tabNsym ≠ 0 → s.srcLen.toNat = ceil8 s.bitcnt.toNat → (∀ x ∈ xs, s.codeOf x ≠ []) → rest ≠ [] →
    (∀ m, 1 ≤ m → m ≤ rest.length → ∀ x, s.codeOf x ≠ rest.take m) →
    (codeBits s.code xs).length + rest.length ≤ s.bitcnt.toNat →
    s.ReadableTo (ceil8 ((codeBits s.code xs).length + rest.length)) →
    (∀ k, k < (codeBits s.code xs ++ rest).length → s.srcBit k = (codeBits s.code xs ++ rest).getD k false) →
    xs.length ≤ s.dstCap.toNat → s.WritableTo xs.length →
    (rest.length = s.maxlen →
      exec .decode s = .next { freeDst s with
        outLen := 0#32, errCode := .truncatedStream, errInfo := 2#32,
        irqStat := s.irqStat ||| 1#3 ||| 2#3, running := none }) ∧
    (rest.length < s.maxlen → (codeBits s.code xs).length + rest.length = s.bitcnt.toNat →
      exec .decode s = .next { freeDst s with
        outLen := 0#32, errCode := .truncatedStream, errInfo := 3#32,
        irqStat := s.irqStat ||| 1#3 ||| 2#3, running := none })

/-- A payload of more symbols than DST_CAP stops with DST_OVERFLOW (R297; that exactly DST_CAP symbols fit is said by
`DecodeReadsPayload`). The first symbol's byte that the platform refuses stops DECODE with BUS_ERROR at its address, and
so does payload byte `i` if it is the first not readable, behind symbols and bits that resolve to nothing so far
(60_exceptions.md R312, R314). That a device there faults is the model's choice (DESIGN CHOICE, log entry 7; 20_memory.md
R98; 93_implementation_defined.md U7). -/
def Obligations.DecodeOverflow : Prop :=
  (∀ (s : State) (xs : List Byte) (x : Byte), Memory.wf s.mem = true → PrefixFree s.code → s.WindowsApart →
    s.tabNsym ≠ 0 → s.srcLen.toNat = ceil8 s.bitcnt.toNat → (∀ y ∈ xs ++ [x], s.codeOf y ≠ []) →
    (codeBits s.code (xs ++ [x])).length ≤ s.bitcnt.toNat →
    s.ReadableTo (ceil8 (codeBits s.code (xs ++ [x])).length) →
    (∀ k, k < (codeBits s.code (xs ++ [x])).length → s.srcBit k = (codeBits s.code (xs ++ [x])).getD k false) →
    s.WritableTo xs.length →
    (xs.length = s.dstCap.toNat →
      exec .decode s = .next { freeDst s with
        outLen := 0#32, errCode := .dstOverflow, errInfo := 0#32,
        irqStat := s.irqStat ||| 1#3 ||| 2#3, running := none }) ∧
    (xs.length < s.dstCap.toNat → s.platform.busOk .write (s.dst xs.length) = false →
      exec .decode s = .next { freeDst s with
        outLen := 0#32, errCode := .busError, errInfo := s.dst xs.length,
        irqStat := s.irqStat ||| 1#3 ||| 2#3, running := none })) ∧
  ∀ (s : State) (xs : List Byte) (rest : Code) (i : Nat), Memory.wf s.mem = true → PrefixFree s.code →
    s.WindowsApart → s.tabNsym ≠ 0 → s.srcLen.toNat = ceil8 s.bitcnt.toNat → (∀ x ∈ xs, s.codeOf x ≠ []) →
    rest.length < s.maxlen → (∀ m, 1 ≤ m → m ≤ rest.length → ∀ x, s.codeOf x ≠ rest.take m) →
    (codeBits s.code xs ++ rest).length = 8 * i → 8 * i < s.bitcnt.toNat → s.ReadableTo i →
    (∀ k, k < 8 * i → s.srcBit k = (codeBits s.code xs ++ rest).getD k false) →
    xs.length ≤ s.dstCap.toNat → s.WritableTo xs.length →
    (s.platform.busOk .read (s.src i) = false →
      exec .decode s = .next { freeDst s with
        outLen := 0#32, errCode := .busError, errInfo := s.src i,
        irqStat := s.irqStat ||| 1#3 ||| 2#3, running := none }) ∧
    (s.platform.busOk .read (s.src i) = true → s.platform.isDevice (s.src i) = true →
      exec .decode s = .fault (.sourceDevice (s.src i)))

/-- The round trip (R300): CLEAR, COUNT, BUILD_TREE, GEN_CODES and ENCODE of a non-empty window, then DECODE of the
payload with the BITCNT and OUT_LEN that ENCODE left, gives the window's bytes back; of an empty window the sequence
stops at BUILD_TREE with EMPTY_ALPHABET. -/
def Obligations.EncodeDecodeRoundTrip : Prop :=
  (∀ (s : State) (outAddr : Addr) (outCap : Word), Memory.wf s.mem = true → s.srcLen ≠ 0#32 → s.WindowsApart →
    s.ReadableTo s.srcLen.toNat → s.WritableTo s.dstCap.toNat →
    ({ s with srcAddr := s.dstAddr, srcLen := s.dstCap } : State).ReadableTo s.dstCap.toNat →
    ({ s with srcAddr := s.dstAddr, srcLen := s.dstCap, dstAddr := outAddr, dstCap := outCap } : State).WindowsApart →
    s.srcLen.toNat ≤ outCap.toNat →
    ({ s with dstAddr := outAddr, dstCap := outCap } : State).WritableTo s.srcLen.toNat →
    ∃ s₁ s₂ s₃ s₄, exec .clear s = .next s₁ ∧ exec .count s₁ = .next s₂ ∧ exec .buildTree s₂ = .next s₃ ∧
      exec .genCodes s₃ = .next s₄ ∧
      s₁.errCode = .success ∧ s₂.errCode = .success ∧ s₃.errCode = .success ∧ s₄.errCode = .success ∧
      ((codeBits s₄.code s.srcBytes).length ≤ 8 * s.dstCap.toNat →
        ∃ s₅ s₆, exec .encode s₄ = .next s₅ ∧ s₅.errCode = .success ∧
          exec .decode { s₅ with srcAddr := s.dstAddr, srcLen := s₅.outLen, dstAddr := outAddr, dstCap := outCap } =
            .next s₆ ∧
          s₆.errCode = .success ∧ s₆.outLen = s.srcLen ∧
          ∀ j, j < s.srcLen.toNat → s₆.dstByte j = s.srcByte j)) ∧
  ∀ s : State, s.srcLen = 0#32 →
    ∃ s₁ s₂ s₃, exec .clear s = .next s₁ ∧ exec .count s₁ = .next s₂ ∧ exec .buildTree s₂ = .next s₃ ∧
      s₁.errCode = .success ∧ s₂.errCode = .success ∧ s₃.errCode = .emptyAlphabet

/-! ### Reset, the invariant and isolation -/

/-- Every value of R351, and the derived registers' values after reset. -/
def Obligations.ResetValues : Prop :=
  State.reset.busy = false ∧ State.reset.lastOp = 0#4 ∧ State.reset.errCode.value = 0x00#8 ∧
  State.reset.errInfo = 0#32 ∧ State.reset.irqEn = 0#3 ∧ State.reset.irqStat = 0#3 ∧ State.reset.irq = false ∧
  State.reset.srcAddr = 0#32 ∧ State.reset.srcLen = 0#32 ∧ State.reset.dstAddr = 0#32 ∧ State.reset.dstCap = 0#32 ∧
  State.reset.outLen = 0#32 ∧ State.reset.bitcnt = 0#64 ∧ State.reset.hdrLen = 0#32 ∧ State.reset.tabSel = 0#8 ∧
  (∀ x, State.reset.freqOf x = 0#32 ∧ State.reset.codeLen x = 0 ∧ State.reset.codeOf x = []) ∧
  State.reset.treeValid = false ∧ State.reset.tree = none ∧ State.reset.running = none ∧
  regValue State.reset .id = 0x48460001#32 ∧ State.reset.status = 0#32 ∧
  State.reset.nsym = 0 ∧ State.reset.total = 0 ∧ State.reset.tabNsym = 0 ∧ State.reset.maxlen = 0 ∧
  State.reset.hdrSize = 0 ∧ State.reset.tabFreq = 0#32 ∧ State.reset.tabLen = 0 ∧
  ∀ k : Fin 8, State.reset.tabCode k.val = 0#32

/-- Reset at any time puts every piece of block state into its reset value and stops a running command, which never
completes; memory is kept, but the destination window of a running ENCODE, SERIALIZE or DECODE is free (R350, R352).
Of the model's own fields nothing is said (log entry 12). -/
def Obligations.ResetAtAnyTime : Prop :=
  ∀ s : State, Memory.wf s.mem = true → ∃ t, hostAct .reset s = .next t ∧
    t = { State.reset with
      mem := t.mem, platform := t.platform, beats := t.beats, rdata := t.rdata, draws := t.draws } ∧
    ((∀ i, s.running = some i → writesDst i = false) → t.mem = s.mem) ∧
    (∀ i, s.running = some i → writesDst i = true →
      (∀ j, j < s.dstCap.toNat → memRead t.mem (s.dst j).toNat = Config.freeByte (s.draws + j)) ∧
      ∀ a, s.OutsideDst s.dstCap.toNat a → memRead t.mem a = memRead s.mem a)

/-- The invariant holds after reset. -/
def Obligations.InvariantAtReset : Prop := State.reset.Inv

/-- Every step keeps the invariant (10_state.md R55, R72, R75, R76; 42_tree_codes.md R216; 60_exceptions.md R313,
R316; and the canonical form of memory). -/
def Obligations.StepKeepsInvariant : Prop := ∀ s t : State, s.Inv → step s = .next t → t.Inv

/-- A command reads only its source window (20_memory.md R92): two states that differ in memory alone, and agree on
the bytes of the source window, take the same step but for memory, and the bytes a success writes are the same. -/
def Obligations.ReadsOnlySourceWindow : Prop :=
  ∀ (i : Instr) (s t : State) (m : Memory), Memory.wf s.mem = true → Memory.wf m = true →
    (readsSrc i = true → ∀ k, k < s.srcLen.toNat → memRead m (s.src k).toNat = s.srcByte k) →
    exec i s = .next t →
    ∃ m', exec i { s with mem := m } = .next { t with mem := m' } ∧
      ∀ j, j < t.outLen.toNat → memRead m' (s.dst j).toNat = t.dstByte j
end

