-- ==== Sys2Proof/Laws/Bits.lean ====
section
/-! SUPPORT. Laws of bit strings and bytes: packing and unpacking are inverse (00_scope.md R11, R12). -/

namespace Sys2Proof.Machine

/-! ### natOfBits -/

theorem natOfBits_lt (n : Nat) (bs : Code) : natOfBits n bs < 2 ^ n := by
  induction n generalizing bs with
  | zero => simp [natOfBits]
  | succ n ih =>
    have h := ih bs.tail
    have hb : (bs.headD false).toNat ≤ 1 := Bool.toNat_le _
    have : (bs.headD false).toNat * 2 ^ n ≤ 1 * 2 ^ n := Nat.mul_le_mul_right _ hb
    simp only [natOfBits, Nat.pow_succ]
    omega

theorem natOfBits_testBit (n k : Nat) (bs : Code) (h : k < n) :
    (natOfBits n bs).testBit (n - 1 - k) = bs.getD k false := by
  induction n generalizing bs k with
  | zero => omega
  | succ n ih =>
    simp only [natOfBits]
    rw [Nat.mul_comm, Nat.testBit_two_pow_mul_add _ (natOfBits_lt n _)]
    cases k with
    | zero =>
      simp only [Nat.add_sub_cancel, Nat.sub_zero, Nat.lt_irrefl, if_false, Nat.sub_self]
      cases bs with
      | nil => simp
      | cons b bs => cases b <;> simp
    | succ k =>
      have h1 : n + 1 - 1 - (k + 1) < n := by omega
      have h2 : n + 1 - 1 - (k + 1) = n - 1 - k := by omega
      rw [if_pos h1, h2, ih k bs.tail (by omega)]
      cases bs <;> simp

/-! ### Bytes -/

/-- Bit 7 - k of a packed byte is bit k of the string. -/
theorem byteOfBits_getLsbD (bs : Code) (k : Nat) (h : k < 8) :
    (byteOfBits bs).getLsbD (7 - k) = bs.getD k false := by
  have h1 : 7 - k < 8 := by omega
  have := natOfBits_testBit 8 k bs h
  simp only [byteOfBits, BitVec.getLsbD_ofNat, h1, decide_true, Bool.true_and]
  exact this

@[simp] theorem byteBits_length (b : Byte) : (byteBits b).length = 8 := by simp [byteBits]

theorem byteBits_getD (b : Byte) (k : Nat) (h : k < 8) : (byteBits b).getD k false = b.getLsbD (7 - k) := by
  simp [byteBits, List.getD_eq_getElem?_getD, h]

/-- A byte read back: the first 8 bits, padded with 0. -/
theorem byteBits_byteOfBits (bs : Code) : byteBits (byteOfBits bs) = (List.range 8).map fun k => bs.getD k false := by
  unfold byteBits
  apply List.map_congr_left
  intro k hk
  exact byteOfBits_getLsbD bs k (List.mem_range.mp hk)

/-- Two bytes with the same bits are equal. -/
theorem byte_ext (a b : Byte) (h : ∀ k, k < 8 → a.getLsbD (7 - k) = b.getLsbD (7 - k)) : a = b := by
  apply BitVec.eq_of_getLsbD_eq
  intro i hi
  have := h (7 - i) (by omega)
  rwa [show 7 - (7 - i) = i by omega] at this

/-! ### pack and unpack -/

theorem ceil8_spec (n : Nat) : n ≤ 8 * ceil8 n ∧ 8 * ceil8 n < n + 8 := by
  unfold ceil8; omega

@[simp] theorem pack_length (c : Code) : (pack c).length = ceil8 c.length := by simp [pack]

theorem pack_getD (c : Code) (j : Nat) (h : j < ceil8 c.length) : (pack c).getD j 0#8 = byteOfBits (c.drop (8 * j)) := by
  simp [pack, List.getD_eq_getElem?_getD, h]

/-- Stream bit k of a list of bytes. -/
theorem flatMap_byteBits_getD (bs : List Byte) (k : Nat) :
    (bs.flatMap byteBits).getD k false = (bs.getD (k / 8) 0#8).getLsbD (7 - k % 8) := by
  induction bs generalizing k with
  | nil => simp
  | cons b bs ih =>
    simp only [List.flatMap_cons]
    by_cases hk : k < 8
    · have h0 : k / 8 = 0 := by omega
      have h1 : k % 8 = k := by omega
      rw [List.getD_append _ _ _ _ (by simpa using hk), byteBits_getD b k hk, h0, h1]
      simp
    · rw [List.getD_append_right _ _ _ _ (by simp; omega), ih]
      have h0 : k / 8 = (k - 8) / 8 + 1 := by omega
      have h1 : k % 8 = (k - 8) % 8 := by omega
      rw [byteBits_length, h0, h1]
      simp

theorem flatMap_byteBits_length (bs : List Byte) : (bs.flatMap byteBits).length = 8 * bs.length := by
  induction bs with
  | nil => rfl
  | cons b bs ih => simp [List.flatMap_cons, ih]; omega

/-- Bit k of a packed string, at bit 7 - k % 8 of byte k / 8, and 0 past the end (R11). -/
theorem pack_bit (c : Code) (k : Nat) (h : k < 8 * ceil8 c.length) :
    ((pack c).getD (k / 8) 0#8).getLsbD (7 - k % 8) = c.getD k false := by
  rw [pack_getD c (k / 8) (by omega), byteOfBits_getLsbD _ _ (by omega)]
  simp only [List.getD_eq_getElem?_getD, List.getElem?_drop]
  congr 2
  omega

theorem list_ext_getD {l₁ l₂ : Code} (hl : l₁.length = l₂.length)
    (h : ∀ k, k < l₁.length → l₁.getD k false = l₂.getD k false) : l₁ = l₂ := by
  apply List.ext_getElem hl
  intro k h1 h2
  have := h k h1
  simpa [List.getD_eq_getElem?_getD, h1, h2] using this

/-- The bits of any bytes that agree with `c` on its first |c| bits unpack to `c`. -/
theorem unpack_eq_of_bits (bs : List Byte) (c : Code) (hl : c.length ≤ 8 * bs.length)
    (h : ∀ k, k < c.length → (bs.getD (k / 8) 0#8).getLsbD (7 - k % 8) = c.getD k false) :
    unpack bs c.length = c := by
  apply list_ext_getD
  · simp [unpack]; omega
  · intro k hk
    have hk' : k < c.length := by simp [unpack] at hk; omega
    rw [← h k hk', ← flatMap_byteBits_getD]
    simp [unpack, List.getD_eq_getElem?_getD, hk']

theorem unpack_length (bs : List Byte) (n : Nat) (h : n ≤ 8 * bs.length) : (unpack bs n).length = n := by
  simp [unpack]; omega

/-- Unpacking a packed string gives it back (R11). -/
theorem unpack_pack (c : Code) : unpack (pack c) c.length = c := by
  apply unpack_eq_of_bits
  · have := ceil8_spec c.length; simpa using this.1
  · intro k hk
    exact pack_bit c k (by have := ceil8_spec c.length; omega)

/-! ### Big-endian integers -/

@[simp] theorem beBytes_length (n v : Nat) : (beBytes n v).length = n := by simp [beBytes]

theorem beValue_append (bs : List Byte) (b : Byte) : beValue (bs ++ [b]) = beValue bs * 256 + b.toNat := by
  simp [beValue, List.foldl_append]

theorem beBytes_succ (n v : Nat) : beBytes (n + 1) v = beBytes n (v / 256) ++ [BitVec.ofNat 8 v] := by
  unfold beBytes
  rw [List.range_succ, List.map_append]
  congr 1
  · apply List.map_congr_left
    intro i hi
    have hi := List.mem_range.mp hi
    rw [Nat.div_div_eq_div_mul, show n + 1 - 1 - i = (n - 1 - i) + 1 by omega, Nat.pow_succ, Nat.mul_comm]
  · simp

/-- The bytes of a number give it back modulo 256^n (R12). -/
theorem beValue_beBytes (n v : Nat) : beValue (beBytes n v) = v % 256 ^ n := by
  induction n generalizing v with
  | zero => simp [beBytes, beValue, Nat.mod_one]
  | succ n ih =>
    rw [beBytes_succ, beValue_append, ih]
    have h1 : (BitVec.ofNat 8 v).toNat = v % 256 := by simp
    rw [h1, Nat.pow_succ', Nat.mod_mul]
    omega

theorem beValue_lt (bs : List Byte) : beValue bs < 256 ^ bs.length := by
  induction bs using List.reverseRecOn with
  | nil => simp [beValue]
  | append_singleton bs b ih =>
    rw [beValue_append]
    have := b.isLt
    simp only [List.length_append, List.length_singleton, Nat.pow_succ]
    omega

/-! ### setBit -/

theorem setBit_getLsbD (v : Byte) (i : Nat) (bit : Bool) (j : Nat) (hi : i < 8) (hj : j < 8) :
    (setBit v i bit).getLsbD j = if j = i then bit else v.getLsbD j := by
  unfold setBit
  cases bit
  · simp only [Bool.false_eq_true, if_false, BitVec.getLsbD_and, BitVec.getLsbD_not, BitVec.getLsbD_shiftLeft,
      BitVec.getLsbD_one]
    by_cases h : j = i
    · subst h; simp [hj]
    · by_cases h2 : j < i
      · simp [h, h2, hj]
      · simp [h, hj]; omega
  · simp only [if_true, BitVec.getLsbD_or, BitVec.getLsbD_shiftLeft, BitVec.getLsbD_one]
    by_cases h : j = i
    · subst h; simp [hj]
    · by_cases h2 : j < i
      · simp [h, h2, hj]
      · simp [h, hj]; omega

end Sys2Proof.Machine
end

