-- ==== Sys2Proof/Laws/State.lean ====
section
/-! SUPPORT. What each shared update of the state does to each field, and to the views that read one field. -/

namespace Sys2Proof.Machine

/-! ### complete: `complete()` (40_command_protocol.md R167) -/

@[simp] theorem complete_running (s : State) : (complete s).running = none := rfl
@[simp] theorem complete_lastOp (s : State) : (complete s).lastOp = s.lastOp := rfl
@[simp] theorem complete_errCode (s : State) : (complete s).errCode = .success := rfl
@[simp] theorem complete_errInfo (s : State) : (complete s).errInfo = 0#32 := rfl
@[simp] theorem complete_irqEn (s : State) : (complete s).irqEn = s.irqEn := rfl
@[simp] theorem complete_irqStat (s : State) : (complete s).irqStat = s.irqStat ||| irqDone := rfl
@[simp] theorem complete_srcAddr (s : State) : (complete s).srcAddr = s.srcAddr := rfl
@[simp] theorem complete_srcLen (s : State) : (complete s).srcLen = s.srcLen := rfl
@[simp] theorem complete_dstAddr (s : State) : (complete s).dstAddr = s.dstAddr := rfl
@[simp] theorem complete_dstCap (s : State) : (complete s).dstCap = s.dstCap := rfl
@[simp] theorem complete_outLen (s : State) : (complete s).outLen = s.outLen := rfl
@[simp] theorem complete_bitcnt (s : State) : (complete s).bitcnt = s.bitcnt := rfl
@[simp] theorem complete_hdrLen (s : State) : (complete s).hdrLen = s.hdrLen := rfl
@[simp] theorem complete_tabSel (s : State) : (complete s).tabSel = s.tabSel := rfl
@[simp] theorem complete_freq (s : State) : (complete s).freq = s.freq := rfl
@[simp] theorem complete_code (s : State) : (complete s).code = s.code := rfl
@[simp] theorem complete_tree (s : State) : (complete s).tree = s.tree := rfl
@[simp] theorem complete_mem (s : State) : (complete s).mem = s.mem := rfl
@[simp] theorem complete_platform (s : State) : (complete s).platform = s.platform := rfl
@[simp] theorem complete_beats (s : State) : (complete s).beats = s.beats := rfl
@[simp] theorem complete_rdata (s : State) : (complete s).rdata = s.rdata := rfl
@[simp] theorem complete_draws (s : State) : (complete s).draws = s.draws := rfl
@[simp] theorem complete_total (s : State) : (complete s).total = s.total := rfl
@[simp] theorem complete_nsym (s : State) : (complete s).nsym = s.nsym := rfl
@[simp] theorem complete_entries (s : State) : (complete s).entries = s.entries := rfl
@[simp] theorem complete_tabNsym (s : State) : (complete s).tabNsym = s.tabNsym := rfl
@[simp] theorem complete_maxlen (s : State) : (complete s).maxlen = s.maxlen := rfl
@[simp] theorem complete_hdrSize (s : State) : (complete s).hdrSize = s.hdrSize := rfl
@[simp] theorem complete_freqOf (s : State) (x : Byte) : (complete s).freqOf x = s.freqOf x := rfl
@[simp] theorem complete_codeOf (s : State) (x : Byte) : (complete s).codeOf x = s.codeOf x := rfl
@[simp] theorem complete_codeLen (s : State) (x : Byte) : (complete s).codeLen x = s.codeLen x := rfl
@[simp] theorem complete_src (s : State) (i : Nat) : (complete s).src i = s.src i := rfl
@[simp] theorem complete_dst (s : State) (i : Nat) : (complete s).dst i = s.dst i := rfl

/-! ### raiseError: `raise E(info)` (40_command_protocol.md R168) -/

@[simp] theorem raiseError_running (e : ErrCode) (info : Word) (s : State) : (raiseError e info s).running = none := rfl
@[simp] theorem raiseError_lastOp (e : ErrCode) (info : Word) (s : State) : (raiseError e info s).lastOp = s.lastOp := rfl
@[simp] theorem raiseError_errCode (e : ErrCode) (info : Word) (s : State) : (raiseError e info s).errCode = e := rfl
@[simp] theorem raiseError_errInfo (e : ErrCode) (info : Word) (s : State) : (raiseError e info s).errInfo = info := rfl
@[simp] theorem raiseError_irqEn (e : ErrCode) (info : Word) (s : State) : (raiseError e info s).irqEn = s.irqEn := rfl
@[simp] theorem raiseError_irqStat (e : ErrCode) (info : Word) (s : State) : (raiseError e info s).irqStat = s.irqStat ||| irqDone ||| irqErr := rfl
@[simp] theorem raiseError_srcAddr (e : ErrCode) (info : Word) (s : State) : (raiseError e info s).srcAddr = s.srcAddr := rfl
@[simp] theorem raiseError_srcLen (e : ErrCode) (info : Word) (s : State) : (raiseError e info s).srcLen = s.srcLen := rfl
@[simp] theorem raiseError_dstAddr (e : ErrCode) (info : Word) (s : State) : (raiseError e info s).dstAddr = s.dstAddr := rfl
@[simp] theorem raiseError_dstCap (e : ErrCode) (info : Word) (s : State) : (raiseError e info s).dstCap = s.dstCap := rfl
@[simp] theorem raiseError_outLen (e : ErrCode) (info : Word) (s : State) : (raiseError e info s).outLen = 0#32 := rfl
@[simp] theorem raiseError_bitcnt (e : ErrCode) (info : Word) (s : State) : (raiseError e info s).bitcnt = s.bitcnt := rfl
@[simp] theorem raiseError_hdrLen (e : ErrCode) (info : Word) (s : State) : (raiseError e info s).hdrLen = s.hdrLen := rfl
@[simp] theorem raiseError_tabSel (e : ErrCode) (info : Word) (s : State) : (raiseError e info s).tabSel = s.tabSel := rfl
@[simp] theorem raiseError_freq (e : ErrCode) (info : Word) (s : State) : (raiseError e info s).freq = s.freq := rfl
@[simp] theorem raiseError_code (e : ErrCode) (info : Word) (s : State) : (raiseError e info s).code = s.code := rfl
@[simp] theorem raiseError_tree (e : ErrCode) (info : Word) (s : State) : (raiseError e info s).tree = s.tree := rfl
@[simp] theorem raiseError_mem (e : ErrCode) (info : Word) (s : State) : (raiseError e info s).mem = s.mem := rfl
@[simp] theorem raiseError_platform (e : ErrCode) (info : Word) (s : State) : (raiseError e info s).platform = s.platform := rfl
@[simp] theorem raiseError_beats (e : ErrCode) (info : Word) (s : State) : (raiseError e info s).beats = s.beats := rfl
@[simp] theorem raiseError_rdata (e : ErrCode) (info : Word) (s : State) : (raiseError e info s).rdata = s.rdata := rfl
@[simp] theorem raiseError_draws (e : ErrCode) (info : Word) (s : State) : (raiseError e info s).draws = s.draws := rfl
@[simp] theorem raiseError_total (e : ErrCode) (info : Word) (s : State) : (raiseError e info s).total = s.total := rfl
@[simp] theorem raiseError_nsym (e : ErrCode) (info : Word) (s : State) : (raiseError e info s).nsym = s.nsym := rfl
@[simp] theorem raiseError_entries (e : ErrCode) (info : Word) (s : State) : (raiseError e info s).entries = s.entries := rfl
@[simp] theorem raiseError_tabNsym (e : ErrCode) (info : Word) (s : State) : (raiseError e info s).tabNsym = s.tabNsym := rfl
@[simp] theorem raiseError_maxlen (e : ErrCode) (info : Word) (s : State) : (raiseError e info s).maxlen = s.maxlen := rfl
@[simp] theorem raiseError_hdrSize (e : ErrCode) (info : Word) (s : State) : (raiseError e info s).hdrSize = s.hdrSize := rfl
@[simp] theorem raiseError_freqOf (e : ErrCode) (info : Word) (s : State) (x : Byte) : (raiseError e info s).freqOf x = s.freqOf x := rfl
@[simp] theorem raiseError_codeOf (e : ErrCode) (info : Word) (s : State) (x : Byte) : (raiseError e info s).codeOf x = s.codeOf x := rfl
@[simp] theorem raiseError_codeLen (e : ErrCode) (info : Word) (s : State) (x : Byte) : (raiseError e info s).codeLen x = s.codeLen x := rfl
@[simp] theorem raiseError_src (e : ErrCode) (info : Word) (s : State) (i : Nat) : (raiseError e info s).src i = s.src i := rfl
@[simp] theorem raiseError_dst (e : ErrCode) (info : Word) (s : State) (i : Nat) : (raiseError e info s).dst i = s.dst i := rfl

/-! ### markAccepted: the register part of an acceptance (40_command_protocol.md R164) -/

@[simp] theorem markAccepted_running (w : Word) (s : State) : (markAccepted w s).running = s.running := rfl
@[simp] theorem markAccepted_lastOp (w : Word) (s : State) : (markAccepted w s).lastOp = opField w := rfl
@[simp] theorem markAccepted_errCode (w : Word) (s : State) : (markAccepted w s).errCode = .success := rfl
@[simp] theorem markAccepted_errInfo (w : Word) (s : State) : (markAccepted w s).errInfo = 0#32 := rfl
@[simp] theorem markAccepted_irqEn (w : Word) (s : State) : (markAccepted w s).irqEn = s.irqEn := rfl
@[simp] theorem markAccepted_irqStat (w : Word) (s : State) : (markAccepted w s).irqStat = s.irqStat := rfl
@[simp] theorem markAccepted_srcAddr (w : Word) (s : State) : (markAccepted w s).srcAddr = s.srcAddr := rfl
@[simp] theorem markAccepted_srcLen (w : Word) (s : State) : (markAccepted w s).srcLen = s.srcLen := rfl
@[simp] theorem markAccepted_dstAddr (w : Word) (s : State) : (markAccepted w s).dstAddr = s.dstAddr := rfl
@[simp] theorem markAccepted_dstCap (w : Word) (s : State) : (markAccepted w s).dstCap = s.dstCap := rfl
@[simp] theorem markAccepted_outLen (w : Word) (s : State) : (markAccepted w s).outLen = s.outLen := rfl
@[simp] theorem markAccepted_bitcnt (w : Word) (s : State) : (markAccepted w s).bitcnt = s.bitcnt := rfl
@[simp] theorem markAccepted_hdrLen (w : Word) (s : State) : (markAccepted w s).hdrLen = s.hdrLen := rfl
@[simp] theorem markAccepted_tabSel (w : Word) (s : State) : (markAccepted w s).tabSel = s.tabSel := rfl
@[simp] theorem markAccepted_freq (w : Word) (s : State) : (markAccepted w s).freq = s.freq := rfl
@[simp] theorem markAccepted_code (w : Word) (s : State) : (markAccepted w s).code = s.code := rfl
@[simp] theorem markAccepted_tree (w : Word) (s : State) : (markAccepted w s).tree = s.tree := rfl
@[simp] theorem markAccepted_mem (w : Word) (s : State) : (markAccepted w s).mem = s.mem := rfl
@[simp] theorem markAccepted_platform (w : Word) (s : State) : (markAccepted w s).platform = s.platform := rfl
@[simp] theorem markAccepted_beats (w : Word) (s : State) : (markAccepted w s).beats = s.beats := rfl
@[simp] theorem markAccepted_rdata (w : Word) (s : State) : (markAccepted w s).rdata = s.rdata := rfl
@[simp] theorem markAccepted_draws (w : Word) (s : State) : (markAccepted w s).draws = s.draws := rfl
@[simp] theorem markAccepted_total (w : Word) (s : State) : (markAccepted w s).total = s.total := rfl
@[simp] theorem markAccepted_nsym (w : Word) (s : State) : (markAccepted w s).nsym = s.nsym := rfl
@[simp] theorem markAccepted_entries (w : Word) (s : State) : (markAccepted w s).entries = s.entries := rfl
@[simp] theorem markAccepted_tabNsym (w : Word) (s : State) : (markAccepted w s).tabNsym = s.tabNsym := rfl
@[simp] theorem markAccepted_maxlen (w : Word) (s : State) : (markAccepted w s).maxlen = s.maxlen := rfl
@[simp] theorem markAccepted_hdrSize (w : Word) (s : State) : (markAccepted w s).hdrSize = s.hdrSize := rfl
@[simp] theorem markAccepted_freqOf (w : Word) (s : State) (x : Byte) : (markAccepted w s).freqOf x = s.freqOf x := rfl
@[simp] theorem markAccepted_codeOf (w : Word) (s : State) (x : Byte) : (markAccepted w s).codeOf x = s.codeOf x := rfl
@[simp] theorem markAccepted_codeLen (w : Word) (s : State) (x : Byte) : (markAccepted w s).codeLen x = s.codeLen x := rfl
@[simp] theorem markAccepted_src (w : Word) (s : State) (i : Nat) : (markAccepted w s).src i = s.src i := rfl
@[simp] theorem markAccepted_dst (w : Word) (s : State) (i : Nat) : (markAccepted w s).dst i = s.dst i := rfl

/-! ### ackIrq: a W1C write to IRQ_STAT (10_state.md R47) -/

@[simp] theorem ackIrq_running (v : Word) (s : State) : (ackIrq v s).running = s.running := rfl
@[simp] theorem ackIrq_lastOp (v : Word) (s : State) : (ackIrq v s).lastOp = s.lastOp := rfl
@[simp] theorem ackIrq_errCode (v : Word) (s : State) : (ackIrq v s).errCode = s.errCode := rfl
@[simp] theorem ackIrq_errInfo (v : Word) (s : State) : (ackIrq v s).errInfo = s.errInfo := rfl
@[simp] theorem ackIrq_irqEn (v : Word) (s : State) : (ackIrq v s).irqEn = s.irqEn := rfl
@[simp] theorem ackIrq_irqStat (v : Word) (s : State) : (ackIrq v s).irqStat = s.irqStat &&& ~~~(v.extractLsb' 0 3) := rfl
@[simp] theorem ackIrq_srcAddr (v : Word) (s : State) : (ackIrq v s).srcAddr = s.srcAddr := rfl
@[simp] theorem ackIrq_srcLen (v : Word) (s : State) : (ackIrq v s).srcLen = s.srcLen := rfl
@[simp] theorem ackIrq_dstAddr (v : Word) (s : State) : (ackIrq v s).dstAddr = s.dstAddr := rfl
@[simp] theorem ackIrq_dstCap (v : Word) (s : State) : (ackIrq v s).dstCap = s.dstCap := rfl
@[simp] theorem ackIrq_outLen (v : Word) (s : State) : (ackIrq v s).outLen = s.outLen := rfl
@[simp] theorem ackIrq_bitcnt (v : Word) (s : State) : (ackIrq v s).bitcnt = s.bitcnt := rfl
@[simp] theorem ackIrq_hdrLen (v : Word) (s : State) : (ackIrq v s).hdrLen = s.hdrLen := rfl
@[simp] theorem ackIrq_tabSel (v : Word) (s : State) : (ackIrq v s).tabSel = s.tabSel := rfl
@[simp] theorem ackIrq_freq (v : Word) (s : State) : (ackIrq v s).freq = s.freq := rfl
@[simp] theorem ackIrq_code (v : Word) (s : State) : (ackIrq v s).code = s.code := rfl
@[simp] theorem ackIrq_tree (v : Word) (s : State) : (ackIrq v s).tree = s.tree := rfl
@[simp] theorem ackIrq_mem (v : Word) (s : State) : (ackIrq v s).mem = s.mem := rfl
@[simp] theorem ackIrq_platform (v : Word) (s : State) : (ackIrq v s).platform = s.platform := rfl
@[simp] theorem ackIrq_beats (v : Word) (s : State) : (ackIrq v s).beats = s.beats := rfl
@[simp] theorem ackIrq_rdata (v : Word) (s : State) : (ackIrq v s).rdata = s.rdata := rfl
@[simp] theorem ackIrq_draws (v : Word) (s : State) : (ackIrq v s).draws = s.draws := rfl
@[simp] theorem ackIrq_total (v : Word) (s : State) : (ackIrq v s).total = s.total := rfl
@[simp] theorem ackIrq_nsym (v : Word) (s : State) : (ackIrq v s).nsym = s.nsym := rfl
@[simp] theorem ackIrq_entries (v : Word) (s : State) : (ackIrq v s).entries = s.entries := rfl
@[simp] theorem ackIrq_tabNsym (v : Word) (s : State) : (ackIrq v s).tabNsym = s.tabNsym := rfl
@[simp] theorem ackIrq_maxlen (v : Word) (s : State) : (ackIrq v s).maxlen = s.maxlen := rfl
@[simp] theorem ackIrq_hdrSize (v : Word) (s : State) : (ackIrq v s).hdrSize = s.hdrSize := rfl
@[simp] theorem ackIrq_freqOf (v : Word) (s : State) (x : Byte) : (ackIrq v s).freqOf x = s.freqOf x := rfl
@[simp] theorem ackIrq_codeOf (v : Word) (s : State) (x : Byte) : (ackIrq v s).codeOf x = s.codeOf x := rfl
@[simp] theorem ackIrq_codeLen (v : Word) (s : State) (x : Byte) : (ackIrq v s).codeLen x = s.codeLen x := rfl
@[simp] theorem ackIrq_src (v : Word) (s : State) (i : Nat) : (ackIrq v s).src i = s.src i := rfl
@[simp] theorem ackIrq_dst (v : Word) (s : State) (i : Nat) : (ackIrq v s).dst i = s.dst i := rfl

/-! ### dropWrite: a dropped write (40_command_protocol.md R165) -/

@[simp] theorem dropWrite_running (s : State) : (dropWrite s).running = s.running := rfl
@[simp] theorem dropWrite_lastOp (s : State) : (dropWrite s).lastOp = s.lastOp := rfl
@[simp] theorem dropWrite_errCode (s : State) : (dropWrite s).errCode = s.errCode := rfl
@[simp] theorem dropWrite_errInfo (s : State) : (dropWrite s).errInfo = s.errInfo := rfl
@[simp] theorem dropWrite_irqEn (s : State) : (dropWrite s).irqEn = s.irqEn := rfl
@[simp] theorem dropWrite_irqStat (s : State) : (dropWrite s).irqStat = s.irqStat ||| irqDrop := rfl
@[simp] theorem dropWrite_srcAddr (s : State) : (dropWrite s).srcAddr = s.srcAddr := rfl
@[simp] theorem dropWrite_srcLen (s : State) : (dropWrite s).srcLen = s.srcLen := rfl
@[simp] theorem dropWrite_dstAddr (s : State) : (dropWrite s).dstAddr = s.dstAddr := rfl
@[simp] theorem dropWrite_dstCap (s : State) : (dropWrite s).dstCap = s.dstCap := rfl
@[simp] theorem dropWrite_outLen (s : State) : (dropWrite s).outLen = s.outLen := rfl
@[simp] theorem dropWrite_bitcnt (s : State) : (dropWrite s).bitcnt = s.bitcnt := rfl
@[simp] theorem dropWrite_hdrLen (s : State) : (dropWrite s).hdrLen = s.hdrLen := rfl
@[simp] theorem dropWrite_tabSel (s : State) : (dropWrite s).tabSel = s.tabSel := rfl
@[simp] theorem dropWrite_freq (s : State) : (dropWrite s).freq = s.freq := rfl
@[simp] theorem dropWrite_code (s : State) : (dropWrite s).code = s.code := rfl
@[simp] theorem dropWrite_tree (s : State) : (dropWrite s).tree = s.tree := rfl
@[simp] theorem dropWrite_mem (s : State) : (dropWrite s).mem = s.mem := rfl
@[simp] theorem dropWrite_platform (s : State) : (dropWrite s).platform = s.platform := rfl
@[simp] theorem dropWrite_beats (s : State) : (dropWrite s).beats = s.beats := rfl
@[simp] theorem dropWrite_rdata (s : State) : (dropWrite s).rdata = s.rdata := rfl
@[simp] theorem dropWrite_draws (s : State) : (dropWrite s).draws = s.draws := rfl
@[simp] theorem dropWrite_total (s : State) : (dropWrite s).total = s.total := rfl
@[simp] theorem dropWrite_nsym (s : State) : (dropWrite s).nsym = s.nsym := rfl
@[simp] theorem dropWrite_entries (s : State) : (dropWrite s).entries = s.entries := rfl
@[simp] theorem dropWrite_tabNsym (s : State) : (dropWrite s).tabNsym = s.tabNsym := rfl
@[simp] theorem dropWrite_maxlen (s : State) : (dropWrite s).maxlen = s.maxlen := rfl
@[simp] theorem dropWrite_hdrSize (s : State) : (dropWrite s).hdrSize = s.hdrSize := rfl
@[simp] theorem dropWrite_freqOf (s : State) (x : Byte) : (dropWrite s).freqOf x = s.freqOf x := rfl
@[simp] theorem dropWrite_codeOf (s : State) (x : Byte) : (dropWrite s).codeOf x = s.codeOf x := rfl
@[simp] theorem dropWrite_codeLen (s : State) (x : Byte) : (dropWrite s).codeLen x = s.codeLen x := rfl
@[simp] theorem dropWrite_src (s : State) (i : Nat) : (dropWrite s).src i = s.src i := rfl
@[simp] theorem dropWrite_dst (s : State) (i : Nat) : (dropWrite s).dst i = s.dst i := rfl

/-! ### freeDst: the unspecified destination window (60_exceptions.md R317) -/

@[simp] theorem freeDst_running (s : State) : (freeDst s).running = s.running := rfl
@[simp] theorem freeDst_lastOp (s : State) : (freeDst s).lastOp = s.lastOp := rfl
@[simp] theorem freeDst_errCode (s : State) : (freeDst s).errCode = s.errCode := rfl
@[simp] theorem freeDst_errInfo (s : State) : (freeDst s).errInfo = s.errInfo := rfl
@[simp] theorem freeDst_irqEn (s : State) : (freeDst s).irqEn = s.irqEn := rfl
@[simp] theorem freeDst_irqStat (s : State) : (freeDst s).irqStat = s.irqStat := rfl
@[simp] theorem freeDst_srcAddr (s : State) : (freeDst s).srcAddr = s.srcAddr := rfl
@[simp] theorem freeDst_srcLen (s : State) : (freeDst s).srcLen = s.srcLen := rfl
@[simp] theorem freeDst_dstAddr (s : State) : (freeDst s).dstAddr = s.dstAddr := rfl
@[simp] theorem freeDst_dstCap (s : State) : (freeDst s).dstCap = s.dstCap := rfl
@[simp] theorem freeDst_outLen (s : State) : (freeDst s).outLen = s.outLen := rfl
@[simp] theorem freeDst_bitcnt (s : State) : (freeDst s).bitcnt = s.bitcnt := rfl
@[simp] theorem freeDst_hdrLen (s : State) : (freeDst s).hdrLen = s.hdrLen := rfl
@[simp] theorem freeDst_tabSel (s : State) : (freeDst s).tabSel = s.tabSel := rfl
@[simp] theorem freeDst_freq (s : State) : (freeDst s).freq = s.freq := rfl
@[simp] theorem freeDst_code (s : State) : (freeDst s).code = s.code := rfl
@[simp] theorem freeDst_tree (s : State) : (freeDst s).tree = s.tree := rfl
@[simp] theorem freeDst_mem (s : State) : (freeDst s).mem = drawWindow s.dstAddr s.draws s.dstCap.toNat s.mem := rfl
@[simp] theorem freeDst_platform (s : State) : (freeDst s).platform = s.platform := rfl
@[simp] theorem freeDst_beats (s : State) : (freeDst s).beats = s.beats := rfl
@[simp] theorem freeDst_rdata (s : State) : (freeDst s).rdata = s.rdata := rfl
@[simp] theorem freeDst_draws (s : State) : (freeDst s).draws = s.draws + s.dstCap.toNat := rfl
@[simp] theorem freeDst_total (s : State) : (freeDst s).total = s.total := rfl
@[simp] theorem freeDst_nsym (s : State) : (freeDst s).nsym = s.nsym := rfl
@[simp] theorem freeDst_entries (s : State) : (freeDst s).entries = s.entries := rfl
@[simp] theorem freeDst_tabNsym (s : State) : (freeDst s).tabNsym = s.tabNsym := rfl
@[simp] theorem freeDst_maxlen (s : State) : (freeDst s).maxlen = s.maxlen := rfl
@[simp] theorem freeDst_hdrSize (s : State) : (freeDst s).hdrSize = s.hdrSize := rfl
@[simp] theorem freeDst_freqOf (s : State) (x : Byte) : (freeDst s).freqOf x = s.freqOf x := rfl
@[simp] theorem freeDst_codeOf (s : State) (x : Byte) : (freeDst s).codeOf x = s.codeOf x := rfl
@[simp] theorem freeDst_codeLen (s : State) (x : Byte) : (freeDst s).codeLen x = s.codeLen x := rfl
@[simp] theorem freeDst_src (s : State) (i : Nat) : (freeDst s).src i = s.src i := rfl
@[simp] theorem freeDst_dst (s : State) (i : Nat) : (freeDst s).dst i = s.dst i := rfl

end Sys2Proof.Machine
end

