-- ==== Sys2Proof/Laws/Memory.lean ====
section
/-! SUPPORT. Laws of memory, windows and the bus master (10_state.md R80; 20_memory.md R90 to R95). -/

namespace Sys2Proof.Machine

/-! ### Reads and writes -/

/-- Every address listed is above `a`. -/
def AllAbove (a : Nat) (m : Memory) : Prop := ∀ c ∈ m, a < c.1

theorem wf_cons_iff (a : Nat) (b : Byte) (m : Memory) :
    Memory.wf ((a, b) :: m) = true ↔ a < 2 ^ 32 ∧ b ≠ unlistedByte ∧ AllAbove a m ∧ Memory.wf m = true := by
  induction m generalizing a b with
  | nil => simp [Memory.wf, AllAbove]
  | cons c m ih =>
    obtain ⟨a', b'⟩ := c
    simp only [Memory.wf, Bool.and_eq_true, decide_eq_true_eq]
    constructor
    · rintro ⟨⟨h1, h2⟩, h3⟩
      obtain ⟨h4, h5, h6, h7⟩ := (ih a' b').mp h3
      refine ⟨by omega, h2, ?_, h3⟩
      intro c hc
      rcases List.mem_cons.mp hc with rfl | hc
      · exact h1
      · have := h6 c hc; omega
    · rintro ⟨_, h2, h3, h4⟩
      exact ⟨⟨h3 (a', b') (by simp), h2⟩, h4⟩

theorem memRead_of_allAbove {a k : Nat} {m : Memory} (h : AllAbove a m) (hk : k ≤ a) : memRead m k = unlistedByte := by
  induction m with
  | nil => rfl
  | cons c m ih =>
    obtain ⟨x, y⟩ := c
    have h1 : a < x := h (x, y) (by simp)
    simp only [memRead]
    rw [if_neg (by omega)]
    exact ih fun c hc => h c (by simp [hc])

theorem allAbove_mono {a a' : Nat} {m : Memory} (h : AllAbove a m) (ha : a' ≤ a) : AllAbove a' m :=
  fun c hc => Nat.lt_of_le_of_lt ha (h c hc)

/-- A write leaves every other address alone, and the address written reads as written. -/
theorem memRead_memWrite {m : Memory} (hm : Memory.wf m = true) (a k : Nat) (b : Byte) :
    memRead (memWrite m a b) k = if k = a then b else memRead m k := by
  induction m with
  | nil =>
    simp only [memWrite]
    by_cases hb : b = unlistedByte
    · simp only [hb, if_true, memRead]; split <;> rfl
    · simp only [hb, if_false, memRead]
      by_cases hk : k = a
      · simp [hk]
      · simp [hk, Ne.symm hk]
  | cons c m ih =>
    obtain ⟨x, y⟩ := c
    obtain ⟨_, _, h3, h4⟩ := (wf_cons_iff x y m).mp hm
    simp only [memWrite]
    by_cases h1 : a < x
    · simp only [h1, if_true]
      by_cases hb : b = unlistedByte
      · simp only [hb, if_true]
        split
        · rename_i hk
          subst hk
          simp only [memRead]
          rw [if_neg (by omega)]
          exact memRead_of_allAbove h3 (by omega)
        · rfl
      · simp only [hb, if_false]
        conv_lhs => rw [memRead]
        by_cases hk : k = a
        · simp [hk]
        · simp [hk, Ne.symm hk]
    · simp only [h1, if_false]
      by_cases h2 : x = a
      · subst h2
        simp only [if_true]
        by_cases hb : b = unlistedByte
        · simp only [hb, if_true, memRead]
          by_cases hk : k = x
          · subst hk; simp [memRead_of_allAbove h3 (Nat.le_refl _)]
          · simp [hk, Ne.symm hk]
        · simp only [hb, if_false, memRead]
          by_cases hk : k = x
          · simp [hk]
          · simp [hk, Ne.symm hk]
      · simp only [h2, if_false, memRead, ih h4]
        by_cases hk : x = k
        · subst hk; simp [h2]
        · simp [hk]

theorem memWrite_mem {m : Memory} {a : Nat} {b : Byte} {c : Host.Cell} (h : c ∈ memWrite m a b) :
    c = (a, b) ∨ c ∈ m := by
  induction m with
  | nil =>
    simp only [memWrite] at h
    split at h <;> simp_all
  | cons d m ih =>
    obtain ⟨x, y⟩ := d
    simp only [memWrite] at h
    repeat' split at h
    all_goals simp only [List.mem_cons] at h ⊢
    all_goals tauto

/-- A write to an address of the address space keeps the canonical form. -/
theorem memWrite_wf {m : Memory} (hm : Memory.wf m = true) {a : Nat} (ha : a < 2 ^ 32) (b : Byte) :
    Memory.wf (memWrite m a b) = true := by
  induction m with
  | nil =>
    simp only [memWrite]
    split
    · rfl
    · rename_i hb
      exact (wf_cons_iff a b []).mpr ⟨ha, hb, by simp [AllAbove], rfl⟩
  | cons d m ih =>
    obtain ⟨x, y⟩ := d
    obtain ⟨h1, h2, h3, h4⟩ := (wf_cons_iff x y m).mp hm
    simp only [memWrite]
    split
    · rename_i hax
      split
      · exact hm
      · rename_i hb
        refine (wf_cons_iff a b _).mpr ⟨ha, hb, ?_, hm⟩
        intro c hc
        rcases List.mem_cons.mp hc with rfl | hc
        · exact hax
        · have := h3 c hc; omega
    · split
      · rename_i hxa
        subst hxa
        split
        · exact h4
        · rename_i hb
          exact (wf_cons_iff x b m).mpr ⟨h1, hb, h3, h4⟩
      · refine (wf_cons_iff x y _).mpr ⟨h1, h2, ?_, ih h4⟩
        intro c hc
        rcases memWrite_mem hc with rfl | hc
        · show x < a; omega
        · exact h3 c hc

/-- Two memories in canonical form that read the same are equal. -/
theorem memory_ext {m₁ m₂ : Memory} (h₁ : Memory.wf m₁ = true) (h₂ : Memory.wf m₂ = true)
    (h : ∀ a, memRead m₁ a = memRead m₂ a) : m₁ = m₂ := by
  induction m₁ generalizing m₂ with
  | nil =>
    cases m₂ with
    | nil => rfl
    | cons c m =>
      obtain ⟨x, y⟩ := c
      have h3 := ((wf_cons_iff x y m).mp h₂).2.1
      have h4 := h x
      simp only [memRead, if_true] at h4
      exact absurd h4.symm h3
  | cons c m ih =>
    obtain ⟨x, y⟩ := c
    obtain ⟨_, hy, ha, hw⟩ := (wf_cons_iff x y m).mp h₁
    cases m₂ with
    | nil =>
      have h4 := h x
      simp only [memRead, if_true] at h4
      exact absurd h4 hy
    | cons c' m' =>
      obtain ⟨x', y'⟩ := c'
      obtain ⟨_, hy', ha', hw'⟩ := (wf_cons_iff x' y' m').mp h₂
      have hx : x = x' := by
        rcases Nat.lt_trichotomy x x' with hlt | heq | hgt
        · have h4 := h x
          rw [memRead_of_allAbove (m := (x', y') :: m') (a := x) ?_ (Nat.le_refl _)] at h4
          · simp only [memRead, if_true] at h4; exact absurd h4 hy
          · intro c hc
            rcases List.mem_cons.mp hc with rfl | hc
            · exact hlt
            · have := ha' c hc; omega
        · exact heq
        · have h4 := h x'
          rw [memRead_of_allAbove (m := (x, y) :: m) (a := x') ?_ (Nat.le_refl _)] at h4
          · simp only [memRead, if_true] at h4; exact absurd h4.symm hy'
          · intro c hc
            rcases List.mem_cons.mp hc with rfl | hc
            · exact hgt
            · have := ha c hc; omega
      subst hx
      have hyy : y = y' := by simpa [memRead] using h x
      subst hyy
      congr 1
      apply ih hw hw'
      intro a
      by_cases hax : a = x
      · subst hax
        rw [memRead_of_allAbove ha (Nat.le_refl _), memRead_of_allAbove ha' (Nat.le_refl _)]
      · have := h a
        simpa [memRead, Ne.symm hax] using this

/-! ### Windows -/

theorem winAddr_inj {base : Addr} {i j : Nat} (hi : i < 2 ^ 32) (hj : j < 2 ^ 32)
    (h : winAddr base i = winAddr base j) : i = j := by
  simp only [winAddr] at h
  have h2 : BitVec.ofNat 32 i = BitVec.ofNat 32 j := by
    have := congrArg (fun x => x - base) h
    simpa [BitVec.add_comm base, BitVec.add_sub_cancel] using this
  have h3 := congrArg BitVec.toNat h2
  simp only [BitVec.toNat_ofNat] at h3
  omega

/-- Membership of a window: some offset below its length is the address (20_memory.md R91). -/
theorem inWindow_iff (base : Addr) (len : Nat) (a : Addr) :
    inWindow base len a = true ↔ ∃ i, i < len ∧ winAddr base i = a := by
  simp only [inWindow, decide_eq_true_eq]
  constructor
  · intro h
    refine ⟨(a - base).toNat, h, ?_⟩
    simp only [winAddr, BitVec.ofNat_toNat, BitVec.setWidth_eq]
    rw [BitVec.add_comm, BitVec.sub_add_cancel]
  · rintro ⟨i, hi, rfl⟩
    simp only [winAddr]
    rw [BitVec.add_comm, BitVec.add_sub_cancel, BitVec.toNat_ofNat]
    exact Nat.lt_of_le_of_lt (Nat.mod_le _ _) hi

theorem winAddr_zero (base : Addr) : winAddr base 0 = base := by simp [winAddr]

theorem winAddr_add (base : Addr) (i j : Nat) : winAddr (winAddr base i) j = winAddr base (i + j) := by
  simp [winAddr, BitVec.ofNat_add, BitVec.add_assoc]

theorem inWindow_winAddr {base : Addr} {len i : Nat} (hi : i < len) :
    inWindow base len (winAddr base i) = true :=
  (inWindow_iff base len _).mpr ⟨i, hi, rfl⟩

/-- The overlap test is exact: the windows share an address (20_memory.md R105). -/
theorem windowsOverlap_iff (b₁ : Addr) (l₁ : Nat) (b₂ : Addr) (l₂ : Nat) :
    windowsOverlap b₁ l₁ b₂ l₂ = true ↔ ∃ i j, i < l₁ ∧ j < l₂ ∧ winAddr b₁ i = winAddr b₂ j := by
  simp only [windowsOverlap, Bool.and_eq_true, Bool.or_eq_true, decide_eq_true_eq]
  constructor
  · rintro ⟨⟨p₁, p₂⟩, h | h⟩
    · obtain ⟨i, hi, hw⟩ := (inWindow_iff _ _ _).mp h
      exact ⟨i, 0, hi, p₂, by rw [hw, winAddr_zero]⟩
    · obtain ⟨j, hj, hw⟩ := (inWindow_iff _ _ _).mp h
      exact ⟨0, j, p₁, hj, by rw [hw, winAddr_zero]⟩
  · rintro ⟨i, j, hi, hj, hw⟩
    refine ⟨⟨by omega, by omega⟩, ?_⟩
    by_cases hij : j ≤ i
    · left
      refine (inWindow_iff _ _ _).mpr ⟨i - j, by omega, ?_⟩
      have hs : winAddr b₁ i = winAddr (winAddr b₁ (i - j)) j := by rw [winAddr_add]; congr 1; omega
      rw [hs] at hw
      simp only [winAddr] at hw ⊢
      exact add_right_cancel hw
    · right
      refine (inWindow_iff _ _ _).mpr ⟨j - i, by omega, ?_⟩
      have hs : winAddr b₂ j = winAddr (winAddr b₂ (j - i)) i := by rw [winAddr_add]; congr 1; omega
      rw [hs] at hw
      simp only [winAddr] at hw ⊢
      exact (add_right_cancel hw).symm

/-! ### The bus master -/

theorem readable_iff (p : Platform) (a : Addr) :
    p.readable a = true ↔ p.busOk .read a = true ∧ p.isDevice a = false := by
  simp [Platform.readable]

theorem busRead_ok {p : Platform} {m : Memory} {a : Addr} (h : p.readable a = true) :
    busRead p m a = .ok (memRead m a.toNat) := by
  obtain ⟨h1, h2⟩ := (readable_iff p a).mp h
  simp [busRead, h1, h2]

/-- A refused read is a bus error (60_exceptions.md R312). -/
theorem busRead_busError {p : Platform} {m : Memory} {a : Addr} (h : p.busOk .read a = false) :
    busRead p m a = .error (.err .busError a) := by simp [busRead, h]

/-- A read of a device stops the command (93_implementation_defined.md U7). -/
theorem busRead_device {p : Platform} {m : Memory} {a : Addr} (h : p.busOk .read a = true) (hd : p.isDevice a = true) :
    busRead p m a = .error (.device a) := by simp [busRead, h, hd]

theorem busRead_eq_ok {p : Platform} {m : Memory} {a : Addr} {b : Byte} (h : busRead p m a = .ok b) :
    p.readable a = true ∧ b = memRead m a.toNat := by
  unfold busRead at h
  split at h
  · rename_i h1
    split at h
    · simp at h
    · rename_i h2; exact ⟨(readable_iff p a).mpr ⟨h1, by simpa using h2⟩, by simpa using h.symm⟩
  · simp at h

theorem busRead_eq_error {p : Platform} {m : Memory} {a : Addr} {stop : Stop} (h : busRead p m a = .error stop) :
    (stop = .err .busError a ∧ p.busOk .read a = false) ∨ (stop = .device a ∧ p.isDevice a = true) := by
  unfold busRead at h
  split at h
  · split at h
    · rename_i h2; exact .inr ⟨by simpa using h.symm, h2⟩
    · simp at h
  · rename_i h1; exact .inl ⟨by simpa using h.symm, by simpa using h1⟩

theorem busWrite_ok {p : Platform} {m : Memory} {a : Addr} {b : Byte} (h : p.busOk .write a = true) :
    busWrite p m a b = .ok (memWrite m a.toNat b) := by simp [busWrite, h]

/-- A refused write is a bus error (60_exceptions.md R312). -/
theorem busWrite_busError {p : Platform} {m : Memory} {a : Addr} {b : Byte} (h : p.busOk .write a = false) :
    busWrite p m a b = .error (.err .busError a) := by simp [busWrite, h]

theorem busWrite_eq_ok {p : Platform} {m m' : Memory} {a : Addr} {b : Byte} (h : busWrite p m a b = .ok m') :
    p.busOk .write a = true ∧ m' = memWrite m a.toNat b := by
  unfold busWrite at h
  split at h
  · rename_i h1; exact ⟨h1, by simpa using h.symm⟩
  · simp at h

theorem busWrite_eq_error {p : Platform} {m : Memory} {a : Addr} {b : Byte} {stop : Stop}
    (h : busWrite p m a b = .error stop) : stop = .err .busError a ∧ p.busOk .write a = false := by
  unfold busWrite at h
  split at h
  · simp at h
  · rename_i h1; exact ⟨by simpa using h.symm, by simpa using h1⟩

/-- The stop is a read of a device in the source window (93_implementation_defined.md U7). -/
def DeviceStop (s : State) (stop : Stop) : Prop :=
  ∃ k, k < s.srcLen.toNat ∧ stop = .device (s.src k) ∧ s.platform.isDevice (s.src k) = true

/-! ### The unspecified window -/

/-- Drawing a window keeps the canonical form. -/
theorem drawWindow_wf (base : Addr) (draw n : Nat) {m : Memory} (hm : Memory.wf m = true) :
    Memory.wf (drawWindow base draw n m) = true := by
  induction n generalizing m with
  | zero => exact hm
  | succ n ih => exact ih (memWrite_wf hm (winAddr base n).isLt _)

/-- Bytes outside the window are unchanged (60_exceptions.md R317). -/
theorem memRead_drawWindow_outside (base : Addr) (draw n : Nat) {m : Memory} (hm : Memory.wf m = true) {a : Nat}
    (ha : ∀ j, j < n → a ≠ (winAddr base j).toNat) : memRead (drawWindow base draw n m) a = memRead m a := by
  induction n generalizing m with
  | zero => rfl
  | succ n ih =>
    rw [drawWindow, ih (memWrite_wf hm (winAddr base n).isLt _) fun j hj => ha j (by omega),
      memRead_memWrite hm, if_neg (ha n (by omega))]

/-- Byte j of the window is the free value of draw `draw + j` (60_exceptions.md R317). -/
theorem memRead_drawWindow_inside (base : Addr) (draw n : Nat) (hn : n ≤ 2 ^ 32) {m : Memory} (hm : Memory.wf m = true)
    {j : Nat} (hj : j < n) :
    memRead (drawWindow base draw n m) (winAddr base j).toNat = Config.freeByte (draw + j) := by
  induction n generalizing m with
  | zero => omega
  | succ n ih =>
    have hw := memWrite_wf hm (winAddr base n).isLt (Config.freeByte (draw + n))
    rw [drawWindow]
    by_cases h : j = n
    · subst h
      rw [memRead_drawWindow_outside base draw j hw, memRead_memWrite hm, if_pos rfl]
      intro k hk heq
      have := winAddr_inj (by omega) (by omega) (BitVec.eq_of_toNat_eq heq)
      omega
    · exact ih (by omega) hw (by omega)

end Sys2Proof.Machine
end

