-- ==== Sys2Proof/Laws/Tables.lean ====
section
/-! SUPPORT. Laws of the tables indexed by symbol and of the registers derived from them
(10_state.md R54 to R58, R70, R71). -/

namespace Sys2Proof.Machine

/-! ### Reading and setting an entry -/

@[simp] theorem tabGet_tabSet_self {α : Type} (t : Vector α 256) (x : Byte) (v : α) : tabGet (tabSet t x v) x = v := by
  simp [tabGet, tabSet]

theorem tabGet_tabSet_ne {α : Type} (t : Vector α 256) {x y : Byte} (v : α) (h : y ≠ x) :
    tabGet (tabSet t x v) y = tabGet t y := by
  have hn : x.toNat ≠ y.toNat := fun he => h (BitVec.eq_of_toNat_eq he.symm)
  simp [tabGet, tabSet, hn]

theorem tabGet_tabSet {α : Type} (t : Vector α 256) (x y : Byte) (v : α) :
    tabGet (tabSet t x v) y = if y = x then v else tabGet t y := by
  by_cases h : y = x
  · subst h; simp
  · rw [if_neg h, tabGet_tabSet_ne t v h]

@[simp] theorem tabGet_zeroFreq (x : Byte) : tabGet zeroFreq x = 0#32 := by simp [tabGet, zeroFreq]

@[simp] theorem tabGet_emptyTable (x : Byte) : tabGet emptyTable x = [] := by simp [tabGet, emptyTable]

/-- Two tables that agree on every symbol are equal. -/
theorem table_ext {α : Type} {t₁ t₂ : Vector α 256} (h : ∀ x, tabGet t₁ x = tabGet t₂ x) : t₁ = t₂ := by
  apply Vector.ext
  intro i hi
  have := h (BitVec.ofNat 8 i)
  have hm : i % 256 = i := Nat.mod_eq_of_lt hi
  simpa [tabGet, hm] using this

/-! ### The symbols -/

@[simp] theorem mem_symbols (x : Byte) : x ∈ symbols := by
  simp only [symbols, List.mem_map, List.mem_range]
  exact ⟨x.toNat, x.isLt, by simp⟩

@[simp] theorem symbols_length : symbols.length = 256 := by simp [symbols]

/-- The symbols are listed in ascending order, each once. -/
theorem symbols_sorted : symbols.Pairwise fun x y => x.toNat < y.toNat := by
  simp only [symbols, List.pairwise_map]
  apply List.Pairwise.imp_of_mem ?_ (List.pairwise_lt_range (n := 256))
  intro a b ha hb hab
  have ha := List.mem_range.mp ha
  have hb := List.mem_range.mp hb
  simp only [BitVec.toNat_ofNat]
  omega

theorem symbols_nodup : symbols.Nodup :=
  symbols_sorted.imp fun {a b} h he => by subst he; omega

theorem symbols_eq_finRange : symbols = (List.finRange 256).map BitVec.ofFin := by
  apply List.ext_getElem
  · simp
  · intro n h1 h2
    simp only [symbols, List.getElem_map, List.getElem_range, List.getElem_finRange]
    apply BitVec.eq_of_toNat_eq
    have : n < 256 := by simpa using h1
    simp [Nat.mod_eq_of_lt this]

/-- Counting symbols is counting the values 0 to 255. -/
theorem length_filter_symbols (p : Byte → Bool) :
    (symbols.filter p).length = (Finset.univ.filter fun n : Fin 256 => p (BitVec.ofFin n) = true).card := by
  rw [symbols_eq_finRange, List.filter_map, List.length_map]
  have : (Finset.univ.filter fun n : Fin 256 => p (BitVec.ofFin n) = true)
      = ((List.finRange 256).filter (p ∘ BitVec.ofFin)).toFinset := by
    ext n; simp
  rw [this, List.toFinset_card_of_nodup]
  exact (List.nodup_finRange 256).filter _

/-- Summing over the symbols is summing over the values 0 to 255. -/
theorem sum_map_symbols (f : Byte → Nat) : (symbols.map f).sum = ∑ n : Fin 256, f (BitVec.ofFin n) := by
  rw [symbols_eq_finRange, List.map_map, Fin.sum_univ_def]
  rfl

/-! ### Rows: a scan of a table is a scan over the symbols -/

theorem rows_eq {α : Type} (t : Vector α 256) : rows t = symbols.map fun x => (x, tabGet t x) := by
  refine List.ext_getElem (by simp [rows]) fun n h₁ h₂ => ?_
  have hn : n < 256 := by simpa using h₂
  simp [rows, symbols, tabGet, Nat.mod_eq_of_lt hn]

theorem entriesOf_eq (code : Vector Code 256) : entriesOf code =
    symbols.filterMap fun x => if (tabGet code x).isEmpty then none else some (x, tabGet code x) := by
  unfold entriesOf
  rw [rows_eq]
  generalize symbols = l
  induction l with
  | nil => rfl
  | cons x l ih =>
    cases h : tabGet code x with
    | nil => simp [h]; simpa using ih
    | cons b c => simp [h]; simpa using ih

theorem nsym_eq (s : State) : s.nsym = (symbols.filter fun x => s.freqOf x != 0#32).length := by
  rw [State.nsym, rows_eq, List.filter_map, List.length_map]
  rfl

/-! ### Entries -/

/-- The table entries are the symbols with a non-empty code, each with its code. -/
theorem mem_entriesOf (code : Vector Code 256) (x : Byte) (c : Code) :
    (x, c) ∈ entriesOf code ↔ c = tabGet code x ∧ c ≠ [] := by
  simp only [entriesOf_eq, List.mem_filterMap, mem_symbols, true_and]
  constructor
  · rintro ⟨y, h⟩
    by_cases hy : tabGet code y = []
    · simp [hy] at h
    · simp [hy] at h
      obtain ⟨rfl, rfl⟩ := h
      exact ⟨rfl, hy⟩
  · rintro ⟨rfl, h⟩
    exact ⟨x, by simp [h]⟩

/-- The entries' symbols, ascending. -/
theorem entriesOf_map_fst (code : Vector Code 256) :
    (entriesOf code).map (·.1) = symbols.filter fun x => !(tabGet code x).isEmpty := by
  rw [entriesOf_eq]
  generalize symbols = l
  induction l with
  | nil => rfl
  | cons x l ih =>
    by_cases h : tabGet code x = []
    · simp [h]; simpa using ih
    · simp [h]; simpa using ih

theorem entriesOf_sorted (code : Vector Code 256) :
    (entriesOf code).Pairwise fun e f => e.1.toNat < f.1.toNat := by
  have h : ((entriesOf code).map (·.1)).Pairwise fun x y => x.toNat < y.toNat := by
    rw [entriesOf_map_fst]
    exact List.Pairwise.sublist (List.filter_sublist) symbols_sorted
  exact (List.pairwise_map (f := fun e : Byte × Code => e.1)).mp h

theorem entriesOf_nodup_symbols (code : Vector Code 256) : ((entriesOf code).map (·.1)).Nodup := by
  rw [entriesOf_map_fst]
  exact symbols_nodup.sublist List.filter_sublist

theorem entriesOf_length_le (code : Vector Code 256) : (entriesOf code).length ≤ 256 := by
  have h1 : ((entriesOf code).map (·.1)).length ≤ symbols.length := by
    rw [entriesOf_map_fst]; exact List.length_filter_le _ _
  simpa using h1

@[simp] theorem entriesOf_emptyTable : entriesOf emptyTable = [] := by
  rw [List.eq_nil_iff_forall_not_mem]
  rintro ⟨x, c⟩ h
  have := (mem_entriesOf _ _ _).mp h
  simp_all

/-- The table is empty exactly when no symbol has a code. -/
theorem tabNsym_eq_zero_iff (s : State) : s.tabNsym = 0 ↔ ∀ x, s.codeOf x = [] := by
  simp only [State.tabNsym, List.length_eq_zero_iff, State.entries, State.codeOf]
  rw [List.eq_nil_iff_forall_not_mem]
  constructor
  · intro h x
    by_contra hx
    exact h (x, tabGet s.code x) ((mem_entriesOf _ _ _).mpr ⟨rfl, hx⟩)
  · rintro h ⟨x, c⟩ hm
    have := (mem_entriesOf _ _ _).mp hm
    simp_all

/-! ### MAXLEN -/

theorem foldl_max_le {α : Type} (f : α → Nat) (l : List α) (n : Nat) :
    n ≤ l.foldl (fun k e => max k (f e)) n ∧ ∀ e ∈ l, f e ≤ l.foldl (fun k e => max k (f e)) n := by
  induction l generalizing n with
  | nil => simp
  | cons a l ih =>
    obtain ⟨h1, h2⟩ := ih (max n (f a))
    refine ⟨le_trans (le_max_left _ _) h1, ?_⟩
    intro e he
    rcases List.mem_cons.mp he with rfl | he
    · exact le_trans (le_max_right _ _) h1
    · exact h2 e he

theorem foldl_max_attained {α : Type} (f : α → Nat) (l : List α) (n : Nat) :
    l.foldl (fun k e => max k (f e)) n = n ∨ ∃ e ∈ l, f e = l.foldl (fun k e => max k (f e)) n := by
  induction l generalizing n with
  | nil => simp
  | cons a l ih =>
    rcases ih (max n (f a)) with h | ⟨e, he, h⟩
    · simp only [List.foldl_cons]
      rw [h]
      rcases le_total n (f a) with h1 | h1
      · right; exact ⟨a, by simp, by simp [h1]⟩
      · left; simp [h1]
    · right; exact ⟨e, by simp [he], h⟩

/-- No entry's code is longer than the longest. -/
theorem length_le_maxLenOf {es : List (Byte × Code)} {e : Byte × Code} (h : e ∈ es) : e.2.length ≤ maxLenOf es :=
  (foldl_max_le (fun e : Byte × Code => e.2.length) es 0).2 e h

theorem codeLen_le_maxlen (s : State) (x : Byte) : s.codeLen x ≤ s.maxlen := by
  by_cases h : s.codeOf x = []
  · simp [State.codeLen, h]
  · exact length_le_maxLenOf (e := (x, s.codeOf x)) ((mem_entriesOf _ _ _).mpr ⟨rfl, h⟩)

theorem maxlen_attained (s : State) : s.maxlen = 0 ∨ ∃ x, s.codeLen x = s.maxlen := by
  rcases foldl_max_attained (fun e : Byte × Code => e.2.length) s.entries 0 with h | ⟨⟨x, c⟩, he, h⟩
  · exact .inl h
  · right
    obtain ⟨rfl, _⟩ := (mem_entriesOf _ _ _).mp he
    exact ⟨x, h⟩

/-! ### TOTAL -/

theorem sum_map_single {α : Type} [DecidableEq α] (l : List α) (hn : l.Nodup) (f : α → Nat) (x : α) (hx : x ∈ l)
    (g : α → Nat) (hg : ∀ y, y ≠ x → g y = f y) : (l.map g).sum + f x = (l.map f).sum + g x := by
  induction l with
  | nil => simp at hx
  | cons a l ih =>
    obtain ⟨ha, hl⟩ := List.nodup_cons.mp hn
    simp only [List.map_cons, List.sum_cons]
    by_cases hxa : x = a
    · subst hxa
      have : l.map g = l.map f := List.map_congr_left fun y hy => hg y fun he => ha (he ▸ hy)
      rw [this]; omega
    · have hxl : x ∈ l := by simpa [hxa] using hx
      have := ih hl hxl
      rw [hg a fun he => hxa he.symm]
      omega

/-- The sum of a frequency table. -/
def freqTotal (f : Vector Word 256) : Nat := (symbols.map fun x => (tabGet f x).toNat).sum

theorem total_eq (s : State) : s.total = freqTotal s.freq := by
  rw [State.total, rows_eq, List.map_map]
  rfl

theorem freq_le_total (f : Vector Word 256) (x : Byte) : (tabGet f x).toNat ≤ freqTotal f :=
  List.single_le_sum (by simp) _ (List.mem_map_of_mem (f := fun x => (tabGet f x).toNat) (mem_symbols x))

@[simp] theorem freqTotal_zeroFreq : freqTotal zeroFreq = 0 := by
  unfold freqTotal
  generalize symbols = l
  simp

theorem tabNsym_eq_filter (s : State) : s.tabNsym = (symbols.filter fun x => !(s.codeOf x).isEmpty).length := by
  unfold State.tabNsym State.entries State.codeOf
  rw [entriesOf_eq]
  generalize symbols = l
  induction l with
  | nil => rfl
  | cons x l ih =>
    cases h : tabGet s.code x with
    | nil => simp [h] at ih ⊢; exact ih
    | cons a c => simp [h] at ih ⊢; exact ih

/-- A sum over the entries is a sum over the symbols that have one (10_state.md R58). -/
theorem sum_map_entries (s : State) (f : Nat → Nat) : (s.entries.map fun e => f e.2.length).sum =
    (symbols.map fun x => if s.codeLen x = 0 then 0 else f (s.codeLen x)).sum := by
  unfold State.codeLen State.entries State.codeOf
  rw [entriesOf_eq]
  generalize symbols = l
  induction l with
  | nil => rfl
  | cons x l ih =>
    cases h : tabGet s.code x with
    | nil => simp [h] at ih ⊢; exact ih
    | cons a c => simp [h] at ih ⊢; exact ih

/-- No symbol is counted exactly when every counter is 0. -/
theorem nsym_eq_zero_iff (s : State) : s.nsym = 0 ↔ ∀ x, s.freqOf x = 0#32 := by
  simp only [nsym_eq, List.length_eq_zero_iff, List.filter_eq_nil_iff]
  constructor
  · intro h x
    simpa using h x (mem_symbols x)
  · intro h x _
    simpa using h x

end Sys2Proof.Machine
end

