-- ==== Sys2Proof/Laws/Frequency.lean ====
section
/-! SUPPORT. Laws of CLEAR and COUNT (41_frequency.md). -/

namespace Sys2Proof.Machine

/-- The counters after counting these bytes. -/
def countBytes (f : Vector Word 256) (bs : List Byte) : Vector Word 256 := bs.foldl bumpFreq f

/-- The `n` source bytes from offset `i`. -/
def srcSlice (s : State) (i n : Nat) : List Byte := (List.range n).map fun k => s.srcByte (i + k)

theorem srcSlice_succ (s : State) (i n : Nat) : srcSlice s i (n + 1) = s.srcByte i :: srcSlice s (i + 1) n := by
  simp only [srcSlice, List.range_succ_eq_map, List.map_cons, List.map_map, Nat.add_zero]
  congr 1
  apply List.map_congr_left
  intro k _
  simp [Nat.add_comm, Nat.add_left_comm]

theorem srcBytes_eq (s : State) : s.srcBytes = srcSlice s 0 s.srcLen.toNat := by simp [State.srcBytes, srcSlice]

@[simp] theorem srcSlice_length (s : State) (i n : Nat) : (srcSlice s i n).length = n := by simp [srcSlice]

theorem tabGet_bumpFreq (f : Vector Word 256) (x y : Byte) :
    tabGet (bumpFreq f x) y = if y = x then tabGet f x + 1#32 else tabGet f y := by
  rw [bumpFreq, tabGet_tabSet]

/-- Each byte adds one to its own counter. -/
theorem tabGet_countBytes (f : Vector Word 256) (bs : List Byte) (x : Byte) :
    tabGet (countBytes f bs) x = tabGet f x + BitVec.ofNat 32 (bs.count x) := by
  induction bs generalizing f with
  | nil => simp [countBytes]
  | cons b bs ih =>
    have : countBytes f (b :: bs) = countBytes (bumpFreq f b) bs := rfl
    rw [this, ih, tabGet_bumpFreq, List.count_cons]
    by_cases h : x = b
    · subst h
      simp only [if_true, beq_self_eq_true, BitVec.ofNat_add]
      rw [BitVec.add_assoc, BitVec.add_comm 1#32]
    · simp [h, Ne.symm h]

theorem freqTotal_bumpFreq (f : Vector Word 256) (x : Byte) (h : freqTotal f < Config.totalMax) :
    freqTotal (bumpFreq f x) = freqTotal f + 1 := by
  have h1 : freqTotal (bumpFreq f x) + (tabGet f x).toNat = freqTotal f + (tabGet (bumpFreq f x) x).toNat :=
    sum_map_single symbols symbols_nodup (fun y => (tabGet f y).toNat) x (mem_symbols x)
      (fun y => (tabGet (bumpFreq f x) y).toNat) (fun y hy => by simp only [tabGet_bumpFreq, if_neg hy])
  have h2 : (tabGet (bumpFreq f x) x).toNat = (tabGet f x).toNat + 1 := by
    rw [tabGet_bumpFreq, if_pos rfl, BitVec.toNat_add]
    have := freq_le_total f x
    simp only [Config.totalMax] at h
    simp; omega
  omega

/-- Counting adds the number of bytes to the total, when the sum fits (41_frequency.md R197). -/
theorem freqTotal_countBytes (f : Vector Word 256) (bs : List Byte) (h : freqTotal f + bs.length ≤ Config.totalMax) :
    freqTotal (countBytes f bs) = freqTotal f + bs.length := by
  induction bs generalizing f with
  | nil => rfl
  | cons b bs ih =>
    have h1 : countBytes f (b :: bs) = countBytes (bumpFreq f b) bs := rfl
    simp only [List.length_cons] at h ⊢
    have h2 := freqTotal_bumpFreq f b (by omega)
    rw [h1, ih _ (by omega), h2]; omega

/-- No counter overflows when the total does not (41_frequency.md R195). -/
theorem toNat_countBytes (f : Vector Word 256) (bs : List Byte) (x : Byte)
    (h : freqTotal f + bs.length ≤ Config.totalMax) :
    (tabGet (countBytes f bs) x).toNat = (tabGet f x).toNat + bs.count x := by
  rw [tabGet_countBytes, BitVec.toNat_add, BitVec.toNat_ofNat]
  have h1 := freq_le_total f x
  have h2 : bs.count x ≤ bs.length := List.count_le_length
  simp only [Config.totalMax] at h
  have h3 : bs.count x % 2 ^ 32 = bs.count x := Nat.mod_eq_of_lt (by omega)
  rw [h3]
  exact Nat.mod_eq_of_lt (by omega)

/-- Everything the counting loop can do: it counts `k` bytes, all it was asked for or those before the first byte the
platform does not answer (41_frequency.md R195, R198). -/
theorem countLoop_spec (s : State) (n i : Nat) (f : Vector Word 256) :
    ∃ k, k ≤ n ∧ (∀ j, j < k → s.platform.readable (s.src (i + j)) = true) ∧
      ((k = n ∧ countLoop s n i f = (countBytes f (srcSlice s i n), none)) ∨
       (k < n ∧ ∃ stop, busRead s.platform s.mem (s.src (i + k)) = .error stop ∧
          countLoop s n i f = (countBytes f (srcSlice s i k), some stop))) := by
  induction n generalizing i f with
  | zero => exact ⟨0, Nat.le_refl _, by omega, .inl ⟨rfl, rfl⟩⟩
  | succ n ih =>
    cases hb : busRead s.platform s.mem (s.src i) with
    | error stop =>
      refine ⟨0, by omega, by omega, .inr ⟨by omega, stop, by simpa using hb, ?_⟩⟩
      simp [countLoop, hb, countBytes, srcSlice]
    | ok b =>
      obtain ⟨hr, rfl⟩ := busRead_eq_ok hb
      obtain ⟨k, hk, hok, hres⟩ := ih (i + 1) (bumpFreq f (memRead s.mem (s.src i).toNat))
      refine ⟨k + 1, by omega, ?_, ?_⟩
      · intro j hj
        cases j with
        | zero => simpa using hr
        | succ j =>
          have := hok j (by omega)
          rwa [show i + (j + 1) = i + 1 + j by omega]
      · rcases hres with ⟨rfl, h⟩ | ⟨hlt, stop, he, h⟩
        · refine .inl ⟨rfl, ?_⟩
          simp only [countLoop, hb, h, srcSlice_succ]
          rfl
        · refine .inr ⟨by omega, stop, ?_, ?_⟩
          · rwa [show i + (k + 1) = i + 1 + k by omega]
          · simp only [countLoop, hb, h, srcSlice_succ]
            rfl

/-- Counting a window the master can read. -/
theorem countLoop_ok (s : State) (f : Vector Word 256) (h : s.ReadableTo s.srcLen.toNat) :
    countLoop s s.srcLen.toNat 0 f = (countBytes f s.srcBytes, none) := by
  obtain ⟨k, hk, hok, ⟨rfl, hr⟩ | ⟨hlt, stop, he, _⟩⟩ := countLoop_spec s s.srcLen.toNat 0 f
  · rw [hr, srcBytes_eq]
  · rw [busRead_ok (by simpa using h k hlt)] at he
    simp at he

end Sys2Proof.Machine
end

