-- ==== Sys2Proof/Laws/Packing.lean ====
section
/-! SUPPORT. Laws of ENCODE (43_encode.md). -/

namespace Sys2Proof.Machine

/-- Adding a bit to a partly filled byte. -/
theorem setBit_byteOfBits (bs : Code) (bit : Bool) (h : bs.length < 8) :
    setBit (byteOfBits bs) (7 - bs.length) bit = byteOfBits (bs ++ [bit]) := by
  apply byte_ext
  intro k hk
  rw [setBit_getLsbD _ _ _ _ (by omega) (by omega), byteOfBits_getLsbD _ k hk, byteOfBits_getLsbD _ k hk]
  rcases Nat.lt_trichotomy k bs.length with hlt | heq | hgt
  · rw [if_neg (by omega), List.getD_append _ _ _ _ hlt]
  · subst heq
    simp [List.getD_eq_getElem?_getD]
  · rw [if_neg (by omega), List.getD_append_right _ _ _ _ (by omega)]
    rw [List.getD_eq_default _ _ (by omega), List.getD_eq_default _ _ (by simp; omega)]

theorem byteOfBits_nil : byteOfBits [] = 0#8 := by decide

/-- The packer has emitted the bits `bs` (43_encode.md R240, R241): whole bytes are in the destination window, the byte
in hand holds the rest, and nothing else of memory `m₀` has changed. -/
structure Packed (s : State) (m₀ : Memory) (bs : Code) (p : Packer) : Prop where
  n : p.n = bs.length
  fits : bs.length ≤ 8 * s.dstCap.toNat
  wf : Memory.wf p.mem = true
  cur : p.cur = byteOfBits (bs.drop (8 * (bs.length / 8)))
  bytes : ∀ j, j < bs.length / 8 → memRead p.mem (s.dst j).toNat = byteOfBits (bs.drop (8 * j))
  outside : ∀ a, s.OutsideDst (bs.length / 8) a → memRead p.mem a = memRead m₀ a

theorem packed_start (s : State) (hm : Memory.wf s.mem = true) :
    Packed s s.mem [] { n := 0, cur := 0#8, mem := s.mem } :=
  ⟨rfl, by simp, hm, by simp [byteOfBits_nil], by simp, fun _ _ => rfl⟩

/-- Bytes already whole do not change when the string grows. -/
theorem byteOfBits_drop_append (bs cs : Code) (j : Nat) (h : 8 * (j + 1) ≤ bs.length) :
    byteOfBits ((bs ++ cs).drop (8 * j)) = byteOfBits (bs.drop (8 * j)) := by
  apply byte_ext
  intro k hk
  rw [byteOfBits_getLsbD _ k hk, byteOfBits_getLsbD _ k hk]
  simp only [List.getD_eq_getElem?_getD, List.getElem?_drop]
  rw [List.getElem?_append_left (by omega)]

theorem dst_inj (s : State) {i j : Nat} (hi : i < s.dstCap.toNat) (hj : j < s.dstCap.toNat)
    (h : (s.dst i).toNat = (s.dst j).toNat) : i = j := by
  have := s.dstCap.isLt
  exact winAddr_inj (by omega) (by omega) (BitVec.eq_of_toNat_eq h)

/-- What one emitted bit does when it does not stop. -/
theorem emitBit_packed {s : State} {m₀ : Memory} {bs : Code} {p p' : Packer} {bit : Bool} (hp : Packed s m₀ bs p)
    (h : emitBit s p bit = .ok p') : Packed s m₀ (bs ++ [bit]) p' := by
  obtain ⟨hn, hfit, hwf, hcur, hbytes, hout⟩ := hp
  unfold emitBit at h
  rw [hn] at h
  have hlen : (bs.drop (8 * (bs.length / 8))).length = bs.length % 8 := by simp; omega
  have hset : setBit p.cur (7 - bs.length % 8) bit = byteOfBits ((bs ++ [bit]).drop (8 * (bs.length / 8))) := by
    rw [hcur, ← hlen, setBit_byteOfBits _ _ (by rw [hlen]; omega), List.drop_append_of_le_length (by omega)]
  by_cases hov : bs.length % 8 = 0 ∧ bs.length / 8 ≥ s.dstCap.toNat
  · rw [if_pos hov] at h; simp at h
  · rw [if_neg hov] at h
    have hfit' : bs.length + 1 ≤ 8 * s.dstCap.toNat := by omega
    simp only [hset] at h
    by_cases h8 : (bs.length + 1) % 8 = 0
    · rw [if_pos h8] at h
      split at h
      · rename_i m hw
        obtain ⟨_, rfl⟩ := busWrite_eq_ok hw
        simp only [Except.ok.injEq] at h
        subst h
        have hq : (bs.length + 1) / 8 = bs.length / 8 + 1 := by omega
        have hlast : (bs.length + 1) / 8 - 1 = bs.length / 8 := by omega
        refine ⟨by simp, by simpa using hfit', memWrite_wf hwf (s.dst _).isLt _, ?_, ?_, ?_⟩
        · simp only [List.length_append, List.length_singleton]
          rw [List.drop_of_length_le (by simp; omega), byteOfBits_nil]
        · intro j hj
          simp only [List.length_append, List.length_singleton, hq] at hj
          simp only [memRead_memWrite hwf, hlast]
          by_cases hjl : j = bs.length / 8
          · subst hjl; simp
          · rw [if_neg fun he => hjl (dst_inj s (by omega) (by omega) he), hbytes j (by omega),
              byteOfBits_drop_append _ _ _ (by omega)]
        · intro a ha
          simp only [List.length_append, List.length_singleton, hq] at ha
          simp only [memRead_memWrite hwf, hlast]
          rw [if_neg (ha _ (by omega)), hout a fun j hj => ha j (by omega)]
      · simp at h
    · rw [if_neg h8] at h
      simp only [Except.ok.injEq] at h
      subst h
      have hq : (bs.length + 1) / 8 = bs.length / 8 := by omega
      refine ⟨by simp, by simpa using hfit', hwf, by simp [hq], ?_, ?_⟩
      · intro j hj
        simp only [List.length_append, List.length_singleton, hq] at hj
        rw [byteOfBits_drop_append bs [bit] j (by omega)]
        exact hbytes j hj
      · intro a ha
        simp only [List.length_append, List.length_singleton, hq] at ha
        exact hout a ha

/-- Why an emitted bit can stop (43_encode.md R240, R244). -/
theorem emitBit_error {s : State} {p : Packer} {bit : Bool} {stop : Stop} (h : emitBit s p bit = .error stop) :
    stop = .err .dstOverflow 0#32 ∨ ∃ a, stop = .err .busError a := by
  unfold emitBit at h
  split at h
  · left; simpa using h.symm
  · simp only at h
    split at h
    · split at h
      · simp at h
      · rename_i st hw
        simp only [Except.error.injEq] at h
        subst h
        exact .inr ⟨_, (busWrite_eq_error hw).1⟩
    · simp at h

/-- A bit that fits, into a byte the platform takes, is emitted. -/
theorem emitBit_ok {s : State} {m₀ : Memory} {bs : Code} {p : Packer} (hp : Packed s m₀ bs p) (bit : Bool)
    (hfit : bs.length + 1 ≤ 8 * s.dstCap.toNat) (hw : s.WritableTo ((bs.length + 1) / 8)) :
    ∃ p', emitBit s p bit = .ok p' := by
  unfold emitBit
  rw [hp.n, if_neg (by omega)]
  simp only
  split
  · rename_i h8
    rw [busWrite_ok (hw _ (by omega))]
    exact ⟨_, rfl⟩
  · exact ⟨_, rfl⟩

/-- A bit past the last byte of the window is an overflow (43_encode.md R244). -/
theorem emitBit_overflow {s : State} {m₀ : Memory} {bs : Code} {p : Packer} (hp : Packed s m₀ bs p) (bit : Bool)
    (hfull : bs.length = 8 * s.dstCap.toNat) : emitBit s p bit = .error (.err .dstOverflow 0#32) := by
  unfold emitBit
  rw [hp.n, if_pos (by omega)]

theorem emitBits_packed {s : State} {m₀ : Memory} {bs cs : Code} {p p' : Packer} (hp : Packed s m₀ bs p)
    (h : emitBits s cs p = .ok p') : Packed s m₀ (bs ++ cs) p' := by
  induction cs generalizing bs p with
  | nil => simp only [emitBits, Except.ok.injEq] at h; subst h; simpa using hp
  | cons c cs ih =>
    simp only [emitBits] at h
    split at h
    · rename_i q hq
      simpa using ih (emitBit_packed hp hq) h
    · simp at h

theorem emitBits_error {s : State} {cs : Code} {p : Packer} {stop : Stop} (h : emitBits s cs p = .error stop) :
    stop = .err .dstOverflow 0#32 ∨ ∃ a, stop = .err .busError a := by
  induction cs generalizing p with
  | nil => simp [emitBits] at h
  | cons c cs ih =>
    simp only [emitBits] at h
    split at h
    · exact ih h
    · rename_i st hst
      simp only [Except.error.injEq] at h
      subst h
      exact emitBit_error hst

theorem emitBits_ok {s : State} {m₀ : Memory} {bs cs : Code} {p : Packer} (hp : Packed s m₀ bs p)
    (hfit : bs.length + cs.length ≤ 8 * s.dstCap.toNat) (hw : s.WritableTo ((bs.length + cs.length) / 8)) :
    ∃ p', emitBits s cs p = .ok p' := by
  induction cs generalizing bs p with
  | nil => exact ⟨p, rfl⟩
  | cons c cs ih =>
    simp only [List.length_cons] at hfit hw
    obtain ⟨q, hq⟩ := emitBit_ok hp c (by omega) fun j hj => hw j (by omega)
    simp only [emitBits, hq]
    apply ih (emitBit_packed hp hq)
    · simp; omega
    · simpa [Nat.add_assoc, Nat.add_comm, Nat.add_left_comm] using hw

theorem emitBits_overflow {s : State} {m₀ : Memory} {bs cs : Code} {p : Packer} (hp : Packed s m₀ bs p)
    (hbig : 8 * s.dstCap.toNat < bs.length + cs.length) (hw : s.WritableTo s.dstCap.toNat) :
    emitBits s cs p = .error (.err .dstOverflow 0#32) := by
  induction cs generalizing bs p with
  | nil => have := hp.fits; simp at hbig; omega
  | cons c cs ih =>
    simp only [List.length_cons] at hbig
    by_cases hfull : bs.length = 8 * s.dstCap.toNat
    · simp [emitBits, emitBit_overflow hp c hfull]
    · have := hp.fits
      obtain ⟨q, hq⟩ := emitBit_ok hp c (by omega) fun j hj => hw j (by omega)
      simp only [emitBits, hq]
      exact ih (emitBit_packed hp hq) (by simp; omega)

/-- A completed byte the platform refuses stops the bits (60_exceptions.md R312, R314). -/
theorem emitBits_busError {s : State} {m₀ : Memory} {bs cs : Code} {p : Packer} {j : Nat} (hp : Packed s m₀ bs p)
    (hbs : bs.length < 8 * (j + 1)) (hcs : 8 * (j + 1) ≤ bs.length + cs.length) (hj : j < s.dstCap.toNat)
    (hw : s.WritableTo j) (hbad : s.platform.busOk .write (s.dst j) = false) :
    emitBits s cs p = .error (.err .busError (s.dst j)) := by
  induction cs generalizing bs p with
  | nil => simp at hcs; omega
  | cons c cs ih =>
    simp only [List.length_cons] at hcs
    by_cases hlast : bs.length + 1 = 8 * (j + 1)
    · have he : emitBit s p c = .error (.err .busError (s.dst j)) := by
        unfold emitBit
        rw [hp.n, if_neg (by omega)]
        simp only
        rw [if_pos (by omega), show (bs.length + 1) / 8 - 1 = j by omega, busWrite_busError hbad]
      simp [emitBits, he]
    · obtain ⟨q, hq⟩ := emitBit_ok hp c (by omega) fun i hi => hw i (by omega)
      simp only [emitBits, hq]
      exact ih (emitBit_packed hp hq) (by simp; omega) (by simp; omega)

/-! ### The symbols -/

/-- The source bytes are not among the destination bytes, so packing does not change them. -/
theorem packed_src {s : State} {bs : Code} {p : Packer} (hp : Packed s s.mem bs p) (hapart : s.WindowsApart) {i : Nat}
    (hi : i < s.srcLen.toNat) : memRead p.mem (s.src i).toNat = s.srcByte i := by
  refine hp.outside _ fun j hj he => ?_
  have := hp.fits
  exact hapart i j hi (by omega) (BitVec.eq_of_toNat_eq he)

theorem codeBits_cons (code : Vector Code 256) (x : Byte) (xs : List Byte) :
    codeBits code (x :: xs) = tabGet code x ++ codeBits code xs := rfl

/-- What the encoding loop does when it does not stop (43_encode.md R240, R241). -/
theorem encodeLoop_packed {s : State} (hapart : s.WindowsApart) {n i : Nat} {bs : Code} {p p' : Packer}
    (hin : i + n ≤ s.srcLen.toNat) (hp : Packed s s.mem bs p) (h : encodeLoop s n i p = .ok p') :
    Packed s s.mem (bs ++ codeBits s.code (srcSlice s i n)) p' ∧
      ∀ x ∈ srcSlice s i n, s.codeOf x ≠ [] := by
  induction n generalizing i bs p with
  | zero =>
    simp only [encodeLoop, Except.ok.injEq] at h; subst h
    simpa [codeBits, srcSlice] using hp
  | succ n ih =>
    simp only [encodeLoop] at h
    split at h
    · simp at h
    · rename_i x hx
      obtain ⟨_, rfl⟩ := busRead_eq_ok hx
      rw [packed_src hp hapart (by omega)] at h
      split at h
      · simp at h
      · rename_i hlen
        split at h
        · rename_i q hq
          obtain ⟨h1, h2⟩ := ih (by omega) (emitBits_packed hp hq) h
          refine ⟨by rw [srcSlice_succ, codeBits_cons, ← List.append_assoc]; exact h1, ?_⟩
          intro y hy
          rw [srcSlice_succ] at hy
          rcases List.mem_cons.mp hy with rfl | hy
          · intro he; exact hlen (by simp [State.codeLen, he])
          · exact h2 y hy
        · simp at h

/-- The loop reaches the end when every byte is read, has a code, and the bits fit (43_encode.md R240). -/
theorem encodeLoop_ok {s : State} (hapart : s.WindowsApart) {n i : Nat} {bs : Code} {p : Packer}
    (hin : i + n ≤ s.srcLen.toNat) (hp : Packed s s.mem bs p) (hr : s.ReadableTo (i + n))
    (hknown : ∀ x ∈ srcSlice s i n, s.codeOf x ≠ [])
    (hfit : bs.length + (codeBits s.code (srcSlice s i n)).length ≤ 8 * s.dstCap.toNat)
    (hw : s.WritableTo ((bs.length + (codeBits s.code (srcSlice s i n)).length) / 8)) :
    ∃ p', encodeLoop s n i p = .ok p' := by
  induction n generalizing i bs p with
  | zero => exact ⟨p, rfl⟩
  | succ n ih =>
    rw [srcSlice_succ] at hknown hfit hw
    rw [codeBits_cons] at hfit hw
    simp only [List.length_append] at hfit hw
    have hlen : s.codeLen (s.srcByte i) ≠ 0 := by
      simp only [State.codeLen]
      intro h
      exact hknown _ (by simp) (List.length_eq_zero_iff.mp h)
    obtain ⟨q, hq⟩ := emitBits_ok (cs := s.codeOf (s.srcByte i)) hp
      (by simp only [State.codeOf]; omega) fun j hj => hw j (by simp only [State.codeOf] at hj; omega)
    simp only [encodeLoop, busRead_ok (hr i (by omega)), packed_src hp hapart (show i < s.srcLen.toNat by omega),
      hlen, if_false, hq]
    apply ih (by omega) (emitBits_packed hp hq) (fun j hj => hr j (by omega)) fun x hx => hknown x (by simp [hx])
    · simp only [List.length_append, State.codeOf]; omega
    · simpa [State.codeOf, Nat.add_assoc] using hw

/-- Known symbols whose bits fit are packed, and the loop goes on behind them (43_encode.md R240). -/
theorem encodeLoop_prefix {s : State} (hapart : s.WindowsApart) {n i k : Nat} {bs : Code} {p : Packer}
    (hin : i + k ≤ s.srcLen.toNat) (hp : Packed s s.mem bs p) (hr : s.ReadableTo (i + k))
    (hknown : ∀ x ∈ srcSlice s i k, s.codeOf x ≠ [])
    (hfit : bs.length + (codeBits s.code (srcSlice s i k)).length ≤ 8 * s.dstCap.toNat)
    (hw : s.WritableTo ((bs.length + (codeBits s.code (srcSlice s i k)).length) / 8)) :
    ∃ p', encodeLoop s (k + n) i p = encodeLoop s n (i + k) p' ∧
      Packed s s.mem (bs ++ codeBits s.code (srcSlice s i k)) p' := by
  induction k generalizing i bs p with
  | zero => exact ⟨p, by simp, by simpa [codeBits, srcSlice] using hp⟩
  | succ k ih =>
    rw [srcSlice_succ] at hknown hfit hw
    rw [codeBits_cons] at hfit hw
    simp only [List.length_append] at hfit hw
    have hlen : s.codeLen (s.srcByte i) ≠ 0 := by
      simp only [State.codeLen]
      intro h
      exact hknown _ (by simp) (List.length_eq_zero_iff.mp h)
    obtain ⟨q, hq⟩ := emitBits_ok (cs := s.codeOf (s.srcByte i)) hp
      (by simp only [State.codeOf]; omega) fun j hj => hw j (by simp only [State.codeOf] at hj; omega)
    obtain ⟨p', h1, h2⟩ := ih (i := i + 1) (by omega) (emitBits_packed hp hq) (fun j hj => hr j (by omega))
      (fun x hx => hknown x (by simp [hx]))
      (by simp only [List.length_append, State.codeOf]; omega)
      (by simpa [State.codeOf, Nat.add_assoc] using hw)
    refine ⟨p', ?_, ?_⟩
    · rw [show k + 1 + n = (k + n) + 1 by omega, encodeLoop, busRead_ok (hr i (by omega)),
        packed_src hp hapart (show i < s.srcLen.toNat by omega)]
      simp only [hlen, if_false, hq]
      rw [h1, show i + 1 + k = i + (k + 1) by omega]
    · rw [srcSlice_succ, codeBits_cons, ← List.append_assoc]
      exact h2

/-- A byte completed among known symbols that the platform refuses stops the loop (60_exceptions.md R312, R314). -/
theorem encodeLoop_busError {s : State} (hapart : s.WindowsApart) {n i k j : Nat} {bs : Code} {p : Packer}
    (hin : i + n ≤ s.srcLen.toNat) (hp : Packed s s.mem bs p) (hk : k ≤ n) (hr : s.ReadableTo (i + k))
    (hknown : ∀ x ∈ srcSlice s i k, s.codeOf x ≠ []) (hbs : bs.length < 8 * (j + 1))
    (hbits : 8 * (j + 1) ≤ bs.length + (codeBits s.code (srcSlice s i k)).length) (hj : j < s.dstCap.toNat)
    (hw : s.WritableTo j) (hbad : s.platform.busOk .write (s.dst j) = false) :
    encodeLoop s n i p = .error (.err .busError (s.dst j)) := by
  induction n generalizing i k bs p with
  | zero =>
    obtain rfl : k = 0 := by omega
    simp [srcSlice, codeBits] at hbits; omega
  | succ n ih =>
    cases k with
    | zero => simp [srcSlice, codeBits] at hbits; omega
    | succ k =>
      rw [srcSlice_succ] at hknown hbits
      rw [codeBits_cons] at hbits
      simp only [List.length_append] at hbits
      have hlen : s.codeLen (s.srcByte i) ≠ 0 := by
        simp only [State.codeLen]
        intro h
        exact hknown _ (by simp) (List.length_eq_zero_iff.mp h)
      simp only [encodeLoop, busRead_ok (hr i (by omega)), packed_src hp hapart (show i < s.srcLen.toNat by omega),
        hlen, if_false]
      by_cases hone : 8 * (j + 1) ≤ bs.length + (s.codeOf (s.srcByte i)).length
      · rw [emitBits_busError hp hbs hone hj hw hbad]
      · obtain ⟨q, hq⟩ := emitBits_ok (cs := s.codeOf (s.srcByte i)) hp (by omega) fun l hl => hw l (by omega)
        simp only [hq]
        apply ih (k := k) (by omega) (emitBits_packed hp hq) (by omega) (fun l hl => hr l (by omega))
          fun x hx => hknown x (by simp [hx])
        · simp only [List.length_append, State.codeOf] at hone ⊢; omega
        · simp only [List.length_append, State.codeOf]; omega

/-- The first byte with no code stops the loop at its offset (43_encode.md R243). -/
theorem encodeLoop_unknown {s : State} (hapart : s.WindowsApart) {n i k : Nat} {bs : Code} {p : Packer}
    (hin : i + n ≤ s.srcLen.toNat) (hp : Packed s s.mem bs p) (hk : k < n) (hr : s.ReadableTo (i + k + 1))
    (hknown : ∀ x ∈ srcSlice s i k, s.codeOf x ≠ []) (hun : s.codeOf (s.srcByte (i + k)) = [])
    (hfit : bs.length + (codeBits s.code (srcSlice s i k)).length ≤ 8 * s.dstCap.toNat)
    (hw : s.WritableTo ((bs.length + (codeBits s.code (srcSlice s i k)).length) / 8)) :
    encodeLoop s n i p = .error (.err .unknownSymbol (BitVec.ofNat 32 (i + k))) := by
  induction n generalizing i k bs p with
  | zero => omega
  | succ n ih =>
    simp only [encodeLoop, busRead_ok (hr i (by omega)), packed_src hp hapart (show i < s.srcLen.toNat by omega)]
    cases k with
    | zero =>
      have : s.codeLen (s.srcByte i) = 0 := by simpa [State.codeLen] using hun
      simp [this]
    | succ k =>
      rw [srcSlice_succ] at hknown hfit hw
      rw [codeBits_cons] at hfit hw
      simp only [List.length_append] at hfit hw
      have hlen : s.codeLen (s.srcByte i) ≠ 0 := by
        simp only [State.codeLen]
        intro h
        exact hknown _ (by simp) (List.length_eq_zero_iff.mp h)
      obtain ⟨q, hq⟩ := emitBits_ok (cs := s.codeOf (s.srcByte i)) hp
        (by simp only [State.codeOf]; omega) fun j hj => hw j (by simp only [State.codeOf] at hj; omega)
      simp only [hlen, if_false, hq]
      have := ih (i := i + 1) (k := k) (by omega) (emitBits_packed hp hq) (by omega) (fun j hj => hr j (by omega))
        (fun x hx => hknown x (by simp [hx]))
        (by rwa [show i + 1 + k = i + (k + 1) by omega])
        (by simp only [List.length_append, State.codeOf]; omega)
        (by simpa [State.codeOf, Nat.add_assoc] using hw)
      rw [this, show i + 1 + k = i + (k + 1) by omega]

/-- Known symbols whose bits do not fit overflow the window, whatever follows them (43_encode.md R244). -/
theorem encodeLoop_overflow {s : State} (hapart : s.WindowsApart) {n i k : Nat} {bs : Code} {p : Packer}
    (hin : i + n ≤ s.srcLen.toNat) (hp : Packed s s.mem bs p) (hk : k ≤ n) (hr : s.ReadableTo (i + k))
    (hknown : ∀ x ∈ srcSlice s i k, s.codeOf x ≠ [])
    (hbig : 8 * s.dstCap.toNat < bs.length + (codeBits s.code (srcSlice s i k)).length)
    (hw : s.WritableTo s.dstCap.toNat) :
    encodeLoop s n i p = .error (.err .dstOverflow 0#32) := by
  induction n generalizing i k bs p with
  | zero =>
    obtain rfl : k = 0 := by omega
    have := hp.fits; simp [srcSlice, codeBits] at hbig; omega
  | succ n ih =>
    cases k with
    | zero => have := hp.fits; simp [srcSlice, codeBits] at hbig; omega
    | succ k =>
      rw [srcSlice_succ] at hknown hbig
      rw [codeBits_cons] at hbig
      simp only [List.length_append] at hbig
      have hlen : s.codeLen (s.srcByte i) ≠ 0 := by
        simp only [State.codeLen]
        intro h
        exact hknown _ (by simp) (List.length_eq_zero_iff.mp h)
      simp only [encodeLoop, busRead_ok (hr i (by omega)), packed_src hp hapart (show i < s.srcLen.toNat by omega),
        hlen, if_false]
      by_cases hone : 8 * s.dstCap.toNat < bs.length + (s.codeOf (s.srcByte i)).length
      · rw [emitBits_overflow hp hone hw]
      · obtain ⟨q, hq⟩ := emitBits_ok (cs := s.codeOf (s.srcByte i)) hp (by omega) fun j hj => hw j (by omega)
        simp only [hq]
        apply ih (k := k) (by omega) (emitBits_packed hp hq) (by omega) (fun j hj => hr j (by omega))
          fun x hx => hknown x (by simp [hx])
        simp only [List.length_append, State.codeOf]; omega

/-- Why the loop can stop (60_exceptions.md R314). -/
theorem encodeLoop_error {s : State} {n i : Nat} {p : Packer} {stop : Stop} (hin : i + n ≤ s.srcLen.toNat)
    (h : encodeLoop s n i p = .error stop) :
    (∃ e info, stop = .err e info ∧ (e = .unknownSymbol ∨ e = .dstOverflow ∨ e = .busError)) ∨
      DeviceStop s stop := by
  induction n generalizing i p with
  | zero => simp [encodeLoop] at h
  | succ n ih =>
    simp only [encodeLoop] at h
    split at h
    · rename_i st hst
      simp only [Except.error.injEq] at h
      subst h
      rcases busRead_eq_error hst with ⟨rfl, _⟩ | ⟨rfl, hd⟩
      · exact .inl ⟨_, _, rfl, by simp⟩
      · exact .inr ⟨i, by omega, rfl, hd⟩
    · split at h
      · simp only [Except.error.injEq] at h
        subst h
        exact .inl ⟨_, _, rfl, by simp⟩
      · split at h
        · exact ih (by omega) h
        · rename_i st hst
          simp only [Except.error.injEq] at h
          subst h
          rcases emitBits_error hst with rfl | ⟨a, rfl⟩
          · exact .inl ⟨_, _, rfl, by simp⟩
          · exact .inl ⟨_, _, rfl, by simp⟩

/-! ### The whole packing -/

/-- The payload is in the destination window: its bytes are `pack` of the bits, and nothing else of the old memory has
changed (43_encode.md R241, R242). -/
structure PayloadAt (s : State) (bs : Code) (m : Memory) : Prop where
  fits : ceil8 bs.length ≤ s.dstCap.toNat
  wf : Memory.wf m = true
  bytes : ∀ j, j < ceil8 bs.length → memRead m (s.dst j).toNat = (pack bs).getD j 0#8
  outside : ∀ a, s.OutsideDst (ceil8 bs.length) a → memRead m a = memRead s.mem a

theorem PayloadAt.stored {s : State} {bs : Code} {m : Memory} (h : PayloadAt s bs m) : Stored s (pack bs) m :=
  ⟨by simpa using h.fits, h.wf, fun j hj => h.bytes j (by simpa using hj),
    fun a ha => h.outside a fun j hj => ha j (by simpa using hj)⟩

theorem flushPacker_payload {s : State} {bs : Code} {p p' : Packer} (hp : Packed s s.mem bs p)
    (h : flushPacker s p = .ok p') : p'.n = bs.length ∧ PayloadAt s bs p'.mem := by
  obtain ⟨hn, hfit, hwf, hcur, hbytes, hout⟩ := hp
  unfold flushPacker at h
  rw [hn] at h
  split at h
  · rename_i h8
    simp only [Except.ok.injEq] at h
    subst h
    have hc : ceil8 bs.length = bs.length / 8 := by unfold ceil8; omega
    refine ⟨hn, by omega, hwf, ?_, ?_⟩
    · intro j hj
      rw [pack_getD _ _ hj, hbytes j (by omega)]
    · intro a ha
      exact hout a fun j hj => ha j (by omega)
  · rename_i h8
    have hc : ceil8 bs.length = bs.length / 8 + 1 := by unfold ceil8; omega
    split at h
    · rename_i m hw
      obtain ⟨_, rfl⟩ := busWrite_eq_ok hw
      simp only [Except.ok.injEq] at h
      subst h
      refine ⟨rfl, by omega, memWrite_wf hwf (s.dst _).isLt _, ?_, ?_⟩
      · intro j hj
        rw [pack_getD _ _ hj]
        simp only [memRead_memWrite hwf]
        by_cases hjl : j = bs.length / 8
        · subst hjl; simpa using hcur
        · rw [if_neg fun he => hjl (dst_inj s (by omega) (by omega) he), hbytes j (by omega)]
      · intro a ha
        simp only [memRead_memWrite hwf]
        rw [if_neg (ha _ (by omega)), hout a fun j hj => ha j (by omega)]
    · simp at h

theorem flushPacker_ok {s : State} {bs : Code} {p : Packer} (hp : Packed s s.mem bs p)
    (hw : s.WritableTo (ceil8 bs.length)) : ∃ p', flushPacker s p = .ok p' := by
  unfold flushPacker
  rw [hp.n]
  split
  · exact ⟨_, rfl⟩
  · rw [busWrite_ok (hw _ (by unfold ceil8; omega))]
    exact ⟨_, rfl⟩

/-- What ENCODE leaves when it succeeds (43_encode.md R240 to R242). -/
theorem packWindow_payload {s : State} (hm : Memory.wf s.mem = true) (hapart : s.WindowsApart) {p : Packer}
    (h : packWindow s = .ok p) :
    p.n = (codeBits s.code s.srcBytes).length ∧ PayloadAt s (codeBits s.code s.srcBytes) p.mem ∧
      ∀ x ∈ s.srcBytes, s.codeOf x ≠ [] := by
  unfold packWindow at h
  split at h
  · rename_i q hq
    obtain ⟨h1, h2⟩ := encodeLoop_packed hapart (by omega) (packed_start s hm) hq
    rw [← srcBytes_eq] at h1 h2
    obtain ⟨h3, h4⟩ := flushPacker_payload (by simpa using h1) h
    exact ⟨h3, h4, h2⟩
  · simp at h

/-- When ENCODE succeeds (43_encode.md R240). -/
theorem packWindow_ok {s : State} (hm : Memory.wf s.mem = true) (hapart : s.WindowsApart)
    (hr : s.ReadableTo s.srcLen.toNat) (hknown : ∀ x ∈ s.srcBytes, s.codeOf x ≠ [])
    (hfit : (codeBits s.code s.srcBytes).length ≤ 8 * s.dstCap.toNat)
    (hw : s.WritableTo (ceil8 (codeBits s.code s.srcBytes).length)) : ∃ p, packWindow s = .ok p := by
  rw [srcBytes_eq] at hknown hfit hw
  obtain ⟨q, hq⟩ := encodeLoop_ok hapart (n := s.srcLen.toNat) (i := 0) (by omega) (packed_start s hm) (by simpa using hr)
    hknown (by simpa using hfit) fun j hj => hw j (by unfold ceil8; simp at hj; omega)
  obtain ⟨h1, _⟩ := encodeLoop_packed hapart (by omega) (packed_start s hm) hq
  obtain ⟨p, hp⟩ := flushPacker_ok (by simpa using h1) (by simpa using hw)
  exact ⟨p, by simp [packWindow, hq, hp]⟩

/-- The first byte with no code stops ENCODE (43_encode.md R243). -/
theorem packWindow_unknown {s : State} (hm : Memory.wf s.mem = true) (hapart : s.WindowsApart) {k : Nat}
    (hk : k < s.srcLen.toNat) (hr : s.ReadableTo (k + 1)) (hknown : ∀ x ∈ srcSlice s 0 k, s.codeOf x ≠ [])
    (hun : s.codeOf (s.srcByte k) = []) (hfit : (codeBits s.code (srcSlice s 0 k)).length ≤ 8 * s.dstCap.toNat)
    (hw : s.WritableTo ((codeBits s.code (srcSlice s 0 k)).length / 8)) :
    packWindow s = .error (.err .unknownSymbol (BitVec.ofNat 32 k)) := by
  have := encodeLoop_unknown hapart (n := s.srcLen.toNat) (i := 0) (k := k) (by omega) (packed_start s hm) hk
    (by simpa using hr) hknown (by simpa using hun) (by simpa using hfit) (by simpa using hw)
  simp [packWindow, this]

/-- Bits that do not fit stop ENCODE (43_encode.md R244). -/
theorem packWindow_overflow {s : State} (hm : Memory.wf s.mem = true) (hapart : s.WindowsApart) {k : Nat}
    (hk : k ≤ s.srcLen.toNat) (hr : s.ReadableTo k) (hknown : ∀ x ∈ srcSlice s 0 k, s.codeOf x ≠ [])
    (hbig : 8 * s.dstCap.toNat < (codeBits s.code (srcSlice s 0 k)).length) (hw : s.WritableTo s.dstCap.toNat) :
    packWindow s = .error (.err .dstOverflow 0#32) := by
  have := encodeLoop_overflow hapart (n := s.srcLen.toNat) (i := 0) (k := k) (by omega) (packed_start s hm) hk
    (by simpa using hr) hknown (by simpa using hbig) hw
  simp [packWindow, this]

/-- A source byte behind known symbols that the master does not get stops ENCODE (60_exceptions.md R312, R314). -/
theorem packWindow_readStop {s : State} (hm : Memory.wf s.mem = true) (hapart : s.WindowsApart) {k : Nat} {stop : Stop}
    (hk : k < s.srcLen.toNat) (hr : s.ReadableTo k) (hknown : ∀ x ∈ srcSlice s 0 k, s.codeOf x ≠ [])
    (hfit : (codeBits s.code (srcSlice s 0 k)).length ≤ 8 * s.dstCap.toNat)
    (hw : s.WritableTo ((codeBits s.code (srcSlice s 0 k)).length / 8))
    (hstop : ∀ m, busRead s.platform m (s.src k) = .error stop) : packWindow s = .error stop := by
  obtain ⟨n, hn⟩ : ∃ n, s.srcLen.toNat = k + (n + 1) := ⟨s.srcLen.toNat - k - 1, by omega⟩
  obtain ⟨p, h1, _⟩ := encodeLoop_prefix hapart (n := n + 1) (i := 0) (k := k) (by omega) (packed_start s hm)
    (by simpa using hr) hknown (by simpa using hfit) (by simpa using hw)
  rw [packWindow, hn, h1, Nat.zero_add, encodeLoop, hstop]

/-- A byte completed among the first symbols that the platform refuses stops ENCODE (60_exceptions.md R312, R314). -/
theorem packWindow_writeStop {s : State} (hm : Memory.wf s.mem = true) (hapart : s.WindowsApart) {k j : Nat}
    (hk : k ≤ s.srcLen.toNat) (hr : s.ReadableTo k) (hknown : ∀ x ∈ srcSlice s 0 k, s.codeOf x ≠ [])
    (hbits : 8 * (j + 1) ≤ (codeBits s.code (srcSlice s 0 k)).length) (hj : j < s.dstCap.toNat)
    (hw : s.WritableTo j) (hbad : s.platform.busOk .write (s.dst j) = false) :
    packWindow s = .error (.err .busError (s.dst j)) := by
  have := encodeLoop_busError hapart (n := s.srcLen.toNat) (i := 0) (k := k) (by omega) (packed_start s hm) hk
    (by simpa using hr) hknown (by simp) (by simpa using hbits) hj hw hbad
  simp [packWindow, this]

/-- A partly filled last byte that the platform refuses stops ENCODE (60_exceptions.md R312, R314). -/
theorem packWindow_lastStop {s : State} (hm : Memory.wf s.mem = true) (hapart : s.WindowsApart) {j : Nat}
    (hr : s.ReadableTo s.srcLen.toNat) (hknown : ∀ x ∈ s.srcBytes, s.codeOf x ≠ [])
    (hfit : (codeBits s.code s.srcBytes).length ≤ 8 * s.dstCap.toNat)
    (hpart : (codeBits s.code s.srcBytes).length % 8 ≠ 0) (hj : (codeBits s.code s.srcBytes).length / 8 = j)
    (hw : s.WritableTo j) (hbad : s.platform.busOk .write (s.dst j) = false) :
    packWindow s = .error (.err .busError (s.dst j)) := by
  rw [srcBytes_eq] at hknown hfit hpart hj
  obtain ⟨q, hq⟩ := encodeLoop_ok hapart (n := s.srcLen.toNat) (i := 0) (by omega) (packed_start s hm) (by simpa using hr)
    hknown (by simpa using hfit) (by simpa [hj] using hw)
  obtain ⟨h1, _⟩ := encodeLoop_packed hapart (by omega) (packed_start s hm) hq
  rw [packWindow, hq]
  simp only [flushPacker]
  rw [h1.n, List.nil_append, if_neg hpart, hj, busWrite_busError hbad]

/-- Why ENCODE can stop after its table check (60_exceptions.md R314). -/
theorem packWindow_error {s : State} {stop : Stop} (h : packWindow s = .error stop) :
    (∃ e info, stop = .err e info ∧ (e = .unknownSymbol ∨ e = .dstOverflow ∨ e = .busError)) ∨
      DeviceStop s stop := by
  unfold packWindow at h
  split at h
  · unfold flushPacker at h
    split at h
    · simp at h
    · split at h
      · simp at h
      · rename_i st hst
        simp only [Except.error.injEq] at h
        subst h
        exact .inl ⟨_, _, (busWrite_eq_error hst).1, by simp⟩
  · rename_i st hst
    simp only [Except.error.injEq] at h
    subst h
    exact encodeLoop_error (by omega) hst

/-! ### The overlap test -/

/-- The hazard of ENCODE and DECODE is that the windows share an address (20_memory.md R105). -/
theorem windowsApart_iff (s : State) :
    windowsOverlap s.srcAddr s.srcLen.toNat s.dstAddr s.dstCap.toNat = false ↔ s.WindowsApart := by
  rw [← Bool.not_eq_true, windowsOverlap_iff]
  simp only [State.WindowsApart, State.src, State.dst]
  constructor
  · intro h i j hi hj he
    exact h ⟨i, j, hi, hj, he⟩
  · rintro h ⟨i, j, hi, hj, he⟩
    exact h i j hi hj he

theorem overlapHazard_encode (s : State) : overlapHazard .encode s = false ↔ s.WindowsApart := by
  rw [← windowsApart_iff]; rfl

theorem overlapHazard_decode (s : State) : overlapHazard .decode s = false ↔ s.WindowsApart := by
  rw [← windowsApart_iff]; rfl

/-! ### The number of bits (43_encode.md R247) -/

theorem codeBits_length (code : Vector Code 256) (xs : List Byte) :
    (codeBits code xs).length = (xs.map fun x => (tabGet code x).length).sum := by
  induction xs with
  | nil => rfl
  | cons x xs ih => rw [codeBits_cons, List.length_append, ih]; rfl

/-- A sum over a list of bytes, gathered by symbol. -/
theorem sum_map_count (xs : List Byte) (f : Byte → Nat) :
    (xs.map f).sum = (symbols.map fun x => xs.count x * f x).sum := by
  induction xs with
  | nil =>
    have : (symbols.map fun x => List.count x [] * f x) = symbols.map fun _ => 0 :=
      List.map_congr_left fun x _ => by rw [List.count_nil, Nat.zero_mul]
    rw [this, List.map_const', List.sum_replicate]
    rfl
  | cons y ys ih =>
    have := sum_map_single symbols symbols_nodup (fun x => ys.count x * f x) y (mem_symbols y)
      (fun x => (y :: ys).count x * f x) (by intro z hz; simp [Ne.symm hz])
    simp only [List.map_cons, List.sum_cons, ih]
    simp only [List.count_cons_self] at this
    have h2 : (ys.count y + 1) * f y = ys.count y * f y + f y := by ring
    omega

end Sys2Proof.Machine
end

