-- ==== Sys2Proof/Laws/TreeCodes.lean ====
section
/-! SUPPORT. Laws of BUILD_TREE and GEN_CODES (42_tree_codes.md). -/

namespace Sys2Proof.Machine

/-! ### The order of the queue (42_tree_codes.md R211) -/

theorem precedes_iff (x y : Tree) :
    precedes x y = true ↔ x.weight < y.weight ∨ (x.weight = y.weight ∧ x.key < y.key) := by
  simp [precedes]

theorem precedes_trans {x y z : Tree} (h₁ : precedes x y = true) (h₂ : precedes y z = true) :
    precedes x z = true := by
  rw [precedes_iff] at *; omega

theorem precedes_total {x y : Tree} (hk : x.key ≠ y.key) (h : ¬ precedes x y = true) : precedes y x = true := by
  rw [precedes_iff] at *; omega

/-- The queue is in the order of R211, so its head is the least node. -/
def QueueSorted (q : List Tree) : Prop := q.Pairwise fun x y => precedes x y = true

theorem enqueue_perm (x : Tree) (q : List Tree) : (enqueue x q).Perm (x :: q) := by
  induction q with
  | nil => exact .refl _
  | cons y q ih =>
    simp only [enqueue]
    split
    · exact .refl _
    · exact (ih.cons y).trans (.swap x y q)

theorem enqueue_sorted {x : Tree} {q : List Tree} (hq : QueueSorted q) (hk : ∀ y ∈ q, x.key ≠ y.key) :
    QueueSorted (enqueue x q) := by
  induction q with
  | nil => simp [enqueue, QueueSorted]
  | cons y q ih =>
    obtain ⟨h1, h2⟩ := List.pairwise_cons.mp hq
    simp only [enqueue]
    split
    · rename_i hxy
      refine List.pairwise_cons.mpr ⟨?_, hq⟩
      intro z hz
      rcases List.mem_cons.mp hz with rfl | hz
      · exact hxy
      · exact precedes_trans hxy (h1 z hz)
    · rename_i hxy
      refine List.pairwise_cons.mpr ⟨?_, ih h2 fun z hz => hk z (by simp [hz])⟩
      intro z hz
      rcases List.mem_cons.mp ((enqueue_perm x q).mem_iff.mp hz) with rfl | hz
      · exact precedes_total (hk y (by simp)) hxy
      · exact h1 z hz

/-! ### The first queue -/

/-- The leaves of the counted symbols. -/
def countedLeaves (freq : Vector Word 256) : List Tree := (countedSymbols freq).map fun e => .leaf e.1 e.2

theorem leafQueue_eq (freq : Vector Word 256) : leafQueue freq = symbols.foldr
    (fun x q => if tabGet freq x = 0#32 then q else enqueue (.leaf x (tabGet freq x).toNat) q) [] := by
  rw [leafQueue, rows_eq, List.foldr_map]

theorem leafQueue_perm (freq : Vector Word 256) : (leafQueue freq).Perm (countedLeaves freq) := by
  rw [leafQueue_eq]
  unfold countedLeaves countedSymbols
  generalize symbols = l
  induction l with
  | nil => exact .refl _
  | cons x l ih =>
    simp only [List.foldr_cons]
    by_cases h : tabGet freq x = 0#32
    · simpa [h] using ih
    · have hb : (tabGet freq x != 0#32) = true := by simpa using h
      simp only [h, if_false, List.filter_cons, hb, if_true, List.map_cons]
      exact (enqueue_perm _ _).trans (ih.cons _)

theorem countedSymbols_nodup (freq : Vector Word 256) : ((countedSymbols freq).map (·.1)).Nodup := by
  simp only [countedSymbols, List.map_map]
  have : ((fun e : Byte × Nat => e.1) ∘ fun x => (x, (tabGet freq x).toNat)) = id := rfl
  rw [this, List.map_id]
  exact symbols_nodup.sublist List.filter_sublist

theorem leafQueue_sorted (freq : Vector Word 256) : QueueSorted (leafQueue freq) := by
  rw [leafQueue_eq]
  have hn := symbols_nodup
  generalize symbols = l at hn
  suffices h : QueueSorted (l.foldr
      (fun x q => if tabGet freq x = 0#32 then q else enqueue (.leaf x (tabGet freq x).toNat) q) []) ∧
      ∀ t ∈ l.foldr (fun x q => if tabGet freq x = 0#32 then q else enqueue (.leaf x (tabGet freq x).toNat) q) [],
        ∃ x ∈ l, t.key = x.toNat from h.1
  induction l with
  | nil => simp [QueueSorted]
  | cons x l ih =>
    obtain ⟨hx, hl⟩ := List.nodup_cons.mp hn
    obtain ⟨h1, h2⟩ := ih hl
    simp only [List.foldr_cons]
    split
    · exact ⟨h1, fun t ht => let ⟨y, hy, he⟩ := h2 t ht; ⟨y, by simp [hy], he⟩⟩
    · refine ⟨enqueue_sorted h1 ?_, ?_⟩
      · intro t ht he
        obtain ⟨y, hy, hk⟩ := h2 t ht
        have : x = y := BitVec.eq_of_toNat_eq (by simpa [Tree.key] using he.trans hk)
        exact hx (this ▸ hy)
      · intro t ht
        rcases List.mem_cons.mp ((enqueue_perm _ _).mem_iff.mp ht) with rfl | ht
        · exact ⟨x, by simp, rfl⟩
        · obtain ⟨y, hy, he⟩ := h2 t ht
          exact ⟨y, by simp [hy], he⟩

/-! ### Merging -/

/-- What holds of every tree in the queue before merge `m`. -/
structure QueueNode (m : Nat) (t : Tree) : Prop where
  key : t.key < 256 + m
  weights : t.WeightsAdd
  order : t.RightPrecedes
  inner : ∀ k ∈ t.innerKeys, 256 ≤ k ∧ k < 256 + m

theorem QueueNode.mono {m m' : Nat} {t : Tree} (h : QueueNode m t) (hm : m ≤ m') : QueueNode m' t :=
  ⟨by have := h.key; omega, h.weights, h.order, fun k hk => by have := h.inner k hk; omega⟩

/-- The leaves of the whole queue. -/
def queueLeaves (q : List Tree) : List (Byte × Nat) := q.flatMap Tree.leaves

/-- The order keys of the internal nodes of the whole queue. -/
def queueKeys (q : List Tree) : List Nat := q.flatMap Tree.innerKeys

/-- The merges leave one tree: of all the leaves, its weights add up, each right child precedes its sibling, and the
internal nodes have their own keys, from 256 on (42_tree_codes.md R210 to R215). -/
theorem mergeLoop_spec (n m : Nat) (q : List Tree) (hne : q ≠ []) (hlen : q.length ≤ n + 1) (hs : QueueSorted q)
    (hq : ∀ t ∈ q, QueueNode m t) (hk : (queueKeys q).Nodup) :
    ∃ t, mergeLoop n m q = [t] ∧ t.leaves.Perm (queueLeaves q) ∧ QueueNode (m + (q.length - 1)) t ∧
      t.innerKeys.Nodup := by
  induction n generalizing m q with
  | zero =>
    match q, hne, hlen with
    | [t], _, _ => exact ⟨t, rfl, by simp [queueLeaves], by simpa using hq t (by simp), by simpa [queueKeys] using hk⟩
  | succ n ih =>
    match q, hne, hlen, hs, hq, hk with
    | [t], _, _, _, hq, hk =>
      exact ⟨t, rfl, by simp [queueLeaves], by simpa using hq t (by simp), by simpa [queueKeys] using hk⟩
    | x :: y :: q, _, hlen, hs, hq, hk =>
      obtain ⟨h1, h2⟩ := List.pairwise_cons.mp hs
      obtain ⟨h3, h4⟩ := List.pairwise_cons.mp h2
      have hx := hq x (by simp)
      have hy := hq y (by simp)
      have hp := enqueue_perm (mergeNodes m x y) q
      have hkn : (mergeNodes m x y).key = 256 + m := rfl
      have hnode : QueueNode (m + 1) (mergeNodes m x y) := by
        refine ⟨by rw [hkn]; omega, ⟨Nat.add_comm _ _, hy.weights, hx.weights⟩, ⟨h1 y (by simp), hy.order, hx.order⟩, ?_⟩
        intro k hk
        simp only [mergeNodes, Tree.innerKeys, List.mem_cons, List.mem_append] at hk
        rcases hk with rfl | hk | hk
        · omega
        · have := hy.inner k hk; omega
        · have := hx.inner k hk; omega
      have hkeys : (queueKeys (enqueue (mergeNodes m x y) q)).Perm ((256 + m) :: queueKeys (x :: y :: q)) := by
        refine (hp.flatMap_right _).trans ?_
        simp only [queueKeys, List.flatMap_cons, mergeNodes, Tree.innerKeys, List.cons_append]
        refine List.Perm.cons _ ?_
        rw [← List.append_assoc]
        exact List.Perm.append_right _ List.perm_append_comm
      have hfresh : (256 + m) ∉ queueKeys (x :: y :: q) := by
        intro hmem
        obtain ⟨t, ht, hk⟩ := List.mem_flatMap.mp hmem
        have := (hq t ht).inner _ hk
        omega
      obtain ⟨t, ht, hl, hn, hd⟩ := ih (m + 1) (enqueue (mergeNodes m x y) q)
        (by intro h; have := hp.length_eq; simp [h] at this)
        (by have := hp.length_eq; simp at this hlen ⊢; omega)
        (enqueue_sorted h4 fun z hz => by rw [hkn]; have := (hq z (by simp [hz])).key; omega)
        (by
          intro z hz
          rcases List.mem_cons.mp (hp.mem_iff.mp hz) with rfl | hz
          · exact hnode
          · exact (hq z (by simp [hz])).mono (by omega))
        (hkeys.nodup_iff.mpr (List.nodup_cons.mpr ⟨hfresh, hk⟩))
      refine ⟨t, by simpa [mergeLoop] using ht, ?_, ?_, hd⟩
      · refine hl.trans ((hp.flatMap_right _).trans ?_)
        simp only [queueLeaves, List.flatMap_cons, mergeNodes, Tree.leaves]
        rw [← List.append_assoc]
        exact List.Perm.append_right _ List.perm_append_comm
      · have := hp.length_eq
        simp only [List.length_cons] at this ⊢
        rw [this] at hn
        exact hn.mono (by omega)

theorem mergeLoop_nil (n m : Nat) : mergeLoop n m [] = [] := by cases n <;> rfl

theorem queueLeaves_countedLeaves (freq : Vector Word 256) : queueLeaves (countedLeaves freq) = countedSymbols freq := by
  simp only [queueLeaves, countedLeaves]
  induction countedSymbols freq with
  | nil => rfl
  | cons e l ih => simp only [List.map_cons, List.flatMap_cons, ih]; rfl

theorem mem_countedSymbols (freq : Vector Word 256) (x : Byte) (w : Nat) :
    (x, w) ∈ countedSymbols freq ↔ tabGet freq x ≠ 0#32 ∧ w = (tabGet freq x).toNat := by
  simp only [countedSymbols, List.mem_map, List.mem_filter, mem_symbols, true_and, bne_iff_ne]
  constructor
  · rintro ⟨y, hy, he⟩
    simp only [Prod.mk.injEq] at he
    obtain ⟨rfl, rfl⟩ := he
    exact ⟨hy, rfl⟩
  · rintro ⟨h1, rfl⟩
    exact ⟨x, h1, rfl⟩

theorem countedSymbols_length (s : State) : (countedSymbols s.freq).length = s.nsym := by
  simp [countedSymbols, nsym_eq, State.freqOf]

/-- What BUILD_TREE builds when some symbol was counted (42_tree_codes.md R210 to R215; 10_state.md R75). -/
theorem buildTree_spec (freq : Vector Word 256) (h : countedSymbols freq ≠ []) :
    ∃ t, buildTree freq = some t ∧ TreeOf freq t ∧ t.RightPrecedes ∧ t.innerKeys.Nodup ∧
      (∀ k ∈ t.innerKeys, 256 ≤ k ∧ k < 256 + ((countedSymbols freq).length - 1)) ∧
      mergeLoop (leafQueue freq).length 0 (leafQueue freq) = [t] := by
  have hp := leafQueue_perm freq
  have hlen : (leafQueue freq).length = (countedSymbols freq).length := by
    rw [hp.length_eq]; simp [countedLeaves]
  have hmem : ∀ t ∈ leafQueue freq, ∃ x w, t = Tree.leaf x w := by
    intro t ht
    obtain ⟨e, _, rfl⟩ := List.mem_map.mp (hp.mem_iff.mp ht)
    exact ⟨_, _, rfl⟩
  have hkeys : queueKeys (leafQueue freq) = [] := by
    rw [queueKeys, List.flatMap_eq_nil_iff]
    intro t ht
    obtain ⟨x, w, rfl⟩ := hmem t ht
    rfl
  obtain ⟨t, ht, hl, hn, hd⟩ := mergeLoop_spec (leafQueue freq).length 0 (leafQueue freq)
    (by intro he; rw [he] at hlen; exact h (List.length_eq_zero_iff.mp hlen.symm))
    (by omega) (leafQueue_sorted freq)
    (by
      intro t ht
      obtain ⟨x, w, rfl⟩ := hmem t ht
      exact ⟨x.isLt, trivial, trivial, by simp [Tree.innerKeys]⟩)
    (by rw [hkeys]; exact List.nodup_nil)
  refine ⟨t, by simp [buildTree, ht], ⟨?_, hn.weights⟩, hn.order, hd, ?_, ht⟩
  · refine hl.trans ((hp.flatMap_right _).trans ?_)
    have := queueLeaves_countedLeaves freq
    simp only [queueLeaves] at this
    rw [this]
  · intro k hk
    have := hn.inner k hk
    rw [hlen] at this
    omega

theorem buildTree_none (freq : Vector Word 256) (h : countedSymbols freq = []) : buildTree freq = none := by
  have hp := leafQueue_perm freq
  simp only [countedLeaves, h, List.map_nil] at hp
  simp [buildTree, hp.eq_nil, mergeLoop]

/-! ### Weights -/

theorem weight_eq_sum {t : Tree} (h : t.WeightsAdd) : t.weight = (t.leaves.map (·.2)).sum := by
  induction t with
  | leaf x w => simp [Tree.weight, Tree.leaves]
  | node w k l r ihl ihr =>
    obtain ⟨h1, h2, h3⟩ := h
    simp only [Tree.weight, Tree.leaves, List.map_append, List.sum_append]
    rw [h1, ihl h2, ihr h3]

theorem sum_countedSymbols (freq : Vector Word 256) : ((countedSymbols freq).map (·.2)).sum = freqTotal freq := by
  unfold countedSymbols freqTotal
  generalize symbols = l
  induction l with
  | nil => rfl
  | cons x l ih =>
    by_cases h : tabGet freq x = 0#32
    · simp [h] at ih ⊢; exact ih
    · have hb : (tabGet freq x != 0#32) = true := by simpa using h
      simp only [List.filter_cons, hb, if_true, List.map_cons, List.sum_cons, ih]

theorem weightsAdd_subtrees {t : Tree} (h : t.WeightsAdd) : ∀ n ∈ t.subtrees, n.WeightsAdd := by
  induction t with
  | leaf x w =>
    intro n hn
    obtain rfl : n = .leaf x w := by simpa [Tree.subtrees] using hn
    exact h
  | node w k l r ihl ihr =>
    intro n hn
    simp only [Tree.subtrees, List.mem_cons, List.mem_append] at hn
    rcases hn with rfl | hn | hn
    · exact h
    · exact ihl h.2.1 n hn
    · exact ihr h.2.2 n hn

theorem leaves_sublist_subtrees (t : Tree) : ∀ n ∈ t.subtrees, n.leaves.Sublist t.leaves := by
  induction t with
  | leaf x w =>
    intro n hn
    obtain rfl : n = .leaf x w := by simpa [Tree.subtrees] using hn
    exact List.Sublist.refl _
  | node w k l r ihl ihr =>
    intro n hn
    simp only [Tree.subtrees, List.mem_cons, List.mem_append] at hn
    rcases hn with rfl | hn | hn
    · exact List.Sublist.refl _
    · exact (ihl n hn).trans (List.sublist_append_left _ _)
    · exact (ihr n hn).trans (List.sublist_append_right _ _)

/-- A tree has one internal node fewer than leaves (10_state.md R75). -/
theorem innerKeys_length (t : Tree) : t.innerKeys.length + 1 = t.leaves.length := by
  induction t with
  | leaf x w => rfl
  | node w k l r ihl ihr => simp [Tree.innerKeys, Tree.leaves]; omega

/-- The root weighs TOTAL (42_tree_codes.md R215; 10_state.md R55). -/
theorem treeOf_weight {freq : Vector Word 256} {t : Tree} (h : TreeOf freq t) : t.weight = freqTotal freq := by
  rw [weight_eq_sum h.2, (h.1.map _).sum_eq, sum_countedSymbols]

/-! ### Paths -/

theorem paths_map_fst (t : Tree) : t.paths.map (·.1) = t.leaves.map (·.1) := by
  induction t with
  | leaf x w => rfl
  | node w k l r ihl ihr =>
    simp only [Tree.paths, Tree.leaves, List.map_append, List.map_map]
    rw [← ihl, ← ihr]
    rfl

theorem leaves_ne_nil (t : Tree) : t.leaves ≠ [] := by
  induction t with
  | leaf x w => simp [Tree.leaves]
  | node w k l r ihl ihr => simp [Tree.leaves, ihl]

/-- A leaf is at most as deep as the other leaves allow (42_tree_codes.md R223 (b)). -/
theorem path_length_lt (t : Tree) : ∀ e ∈ t.paths, e.2.length + 1 ≤ t.leaves.length := by
  induction t with
  | leaf x w => simp [Tree.paths, Tree.leaves]
  | node w k l r ihl ihr =>
    intro e he
    have hl := List.length_pos_iff.mpr (leaves_ne_nil l)
    have hr := List.length_pos_iff.mpr (leaves_ne_nil r)
    simp only [Tree.paths, List.mem_append, List.mem_map] at he
    simp only [Tree.leaves, List.length_append]
    rcases he with ⟨f, hf, rfl⟩ | ⟨f, hf, rfl⟩
    · have := ihl f hf; simp; omega
    · have := ihr f hf; simp; omega

/-- No path is a prefix of another leaf's (42_tree_codes.md R223 (c)). -/
theorem paths_prefixFree (t : Tree) :
    t.paths.Pairwise fun e f => ¬ (e.2 <+: f.2) ∧ ¬ (f.2 <+: e.2) := by
  induction t with
  | leaf x w => simp [Tree.paths]
  | node w k l r ihl ihr =>
    simp only [Tree.paths, List.pairwise_append, List.pairwise_map]
    refine ⟨ihl.imp fun h => by simpa [List.cons_prefix_cons] using h,
      ihr.imp fun h => by simpa [List.cons_prefix_cons] using h, ?_⟩
    intro e he f hf
    obtain ⟨e', _, rfl⟩ := List.mem_map.mp he
    obtain ⟨f', _, rfl⟩ := List.mem_map.mp hf
    simp [List.cons_prefix_cons]

/-- The Kraft sum of a tree's paths is 1, scaled by 2^n (42_tree_codes.md R223 (d)). -/
theorem paths_kraft (t : Tree) (n : Nat) (h : ∀ e ∈ t.paths, e.2.length ≤ n) :
    (t.paths.map fun e => 2 ^ (n - e.2.length)).sum = 2 ^ n := by
  induction t generalizing n with
  | leaf x w => simp [Tree.paths]
  | node w k l r ihl ihr =>
    obtain ⟨e, he⟩ := List.exists_mem_of_ne_nil _ (show l.paths ≠ [] from fun h => by
      have := paths_map_fst l; rw [h] at this; simp [leaves_ne_nil] at this)
    have hn : 1 ≤ n := by
      have := h (e.1, false :: e.2) (by simp [Tree.paths, he])
      simp at this; omega
    obtain ⟨n, rfl⟩ : ∃ k, n = k + 1 := ⟨n - 1, by omega⟩
    simp only [Tree.paths, List.map_append, List.map_map, List.sum_append]
    have hl : (l.paths.map ((fun e : Byte × Code => 2 ^ (n + 1 - e.2.length)) ∘ fun e => (e.1, false :: e.2))).sum = 2 ^ n := by
      rw [← ihl n fun e he => by
        have := h (e.1, false :: e.2) (by simp [Tree.paths, he]); simpa using this]
      congr 1
      apply List.map_congr_left
      intro e _
      simp
    have hr : (r.paths.map ((fun e : Byte × Code => 2 ^ (n + 1 - e.2.length)) ∘ fun e => (e.1, true :: e.2))).sum = 2 ^ n := by
      rw [← ihr n fun e he => by
        have := h (e.1, true :: e.2) (by simp [Tree.paths, he]); simpa using this]
      congr 1
      apply List.map_congr_left
      intro e _
      simp
    rw [hl, hr, Nat.pow_succ]
    omega

/-! ### The walk -/

/-- The walk gives each leaf its path and leaves the rest of the table (42_tree_codes.md R220). -/
theorem tabGet_walk (t : Tree) (p : Code) (tab : Vector Code 256) (hn : (t.leaves.map (·.1)).Nodup) :
    (∀ e ∈ t.paths, tabGet (walk t p tab) e.1 = p ++ e.2) ∧
    (∀ x, x ∉ t.leaves.map (·.1) → tabGet (walk t p tab) x = tabGet tab x) := by
  induction t generalizing p tab with
  | leaf x w =>
    refine ⟨by simp [Tree.paths, walk], ?_⟩
    intro y hy
    rw [walk, tabGet_tabSet_ne _ _ (by simpa [Tree.leaves] using hy)]
  | node w k l r ihl ihr =>
    simp only [Tree.leaves, List.map_append, List.nodup_append] at hn
    obtain ⟨hl, hr, hd⟩ := hn
    obtain ⟨hl1, hl2⟩ := ihl (p ++ [false]) tab hl
    obtain ⟨hr1, hr2⟩ := ihr (p ++ [true]) (walk l (p ++ [false]) tab) hr
    refine ⟨?_, ?_⟩
    · intro e he
      simp only [Tree.paths, List.mem_append, List.mem_map] at he
      rcases he with ⟨f, hf, rfl⟩ | ⟨f, hf, rfl⟩
      · have hm : f.1 ∈ l.leaves.map (·.1) := by rw [← paths_map_fst]; exact List.mem_map_of_mem hf
        show tabGet (walk r _ _) f.1 = _
        rw [hr2 f.1 fun hr => hd _ hm _ hr rfl, hl1 f hf]
        simp
      · show tabGet (walk r _ _) f.1 = _
        rw [hr1 f hf]
        simp
    · intro x hx
      simp only [Tree.leaves, List.map_append, List.mem_append, not_or] at hx
      show tabGet (walk r _ _) x = _
      rw [hr2 x hx.2, hl2 x hx.1]

/-- The codes GEN_CODES gives: a single leaf "0", else each leaf's path (42_tree_codes.md R220, R221). -/
def leafCodes : Tree → List (Byte × Code)
  | .leaf x _ => [(x, [false])]
  | .node w k l r => (Tree.node w k l r).paths

theorem leafCodes_map_fst (t : Tree) : (leafCodes t).map (·.1) = t.leaves.map (·.1) := by
  cases t with
  | leaf x w => rfl
  | node w k l r => exact paths_map_fst _

theorem tabGet_codesOf (t : Tree) (hn : (t.leaves.map (·.1)).Nodup) :
    (∀ e ∈ leafCodes t, tabGet (codesOf t) e.1 = e.2) ∧
    (∀ x, x ∉ t.leaves.map (·.1) → tabGet (codesOf t) x = []) := by
  cases t with
  | leaf x w =>
    refine ⟨by simp [leafCodes, codesOf], ?_⟩
    intro y hy
    rw [codesOf, tabGet_tabSet_ne _ _ (by simpa [Tree.leaves] using hy), tabGet_emptyTable]
  | node w k l r =>
    obtain ⟨h1, h2⟩ := tabGet_walk (.node w k l r) [] emptyTable hn
    exact ⟨fun e he => h1 e he, fun x hx => (h2 x hx).trans (tabGet_emptyTable x)⟩

theorem leafCodes_ne_nil (t : Tree) : ∀ e ∈ leafCodes t, e.2 ≠ [] := by
  cases t with
  | leaf x w => simp [leafCodes]
  | node w k l r =>
    intro e he
    simp only [leafCodes, Tree.paths, List.mem_append, List.mem_map] at he
    rcases he with ⟨f, _, rfl⟩ | ⟨f, _, rfl⟩ <;> simp

theorem leafCodes_prefixFree (t : Tree) : (leafCodes t).Pairwise fun e f => ¬ (e.2 <+: f.2) ∧ ¬ (f.2 <+: e.2) := by
  cases t with
  | leaf x w => simp [leafCodes]
  | node w k l r => exact paths_prefixFree _

/-- The table's entries are the leaves' codes. -/
theorem mem_entriesOf_codesOf (t : Tree) (hn : (t.leaves.map (·.1)).Nodup) (e : Byte × Code) :
    e ∈ entriesOf (codesOf t) ↔ e ∈ leafCodes t := by
  obtain ⟨h1, h2⟩ := tabGet_codesOf t hn
  obtain ⟨x, c⟩ := e
  rw [mem_entriesOf]
  constructor
  · rintro ⟨rfl, hc⟩
    by_cases hx : x ∈ t.leaves.map (·.1)
    · rw [← leafCodes_map_fst] at hx
      obtain ⟨f, hf, rfl⟩ := List.mem_map.mp hx
      rw [h1 f hf]; exact hf
    · exact absurd (h2 x hx) hc
  · intro he
    exact ⟨(h1 _ he).symm, leafCodes_ne_nil t _ he⟩

theorem leafCodes_nodup (t : Tree) (hn : (t.leaves.map (·.1)).Nodup) : (leafCodes t).Nodup := by
  rw [← leafCodes_map_fst] at hn
  exact List.Nodup.of_map _ hn

theorem entriesOf_nodup (code : Vector Code 256) : (entriesOf code).Nodup :=
  List.Nodup.of_map _ (entriesOf_nodup_symbols code)

theorem entriesOf_codesOf_perm (t : Tree) (hn : (t.leaves.map (·.1)).Nodup) :
    (entriesOf (codesOf t)).Perm (leafCodes t) :=
  (List.perm_ext_iff_of_nodup (entriesOf_nodup _) (leafCodes_nodup t hn)).mpr fun e => mem_entriesOf_codesOf t hn e

theorem leafCodes_length_bound (t : Tree) : ∀ e ∈ leafCodes t, e.2.length ≤ max 1 (t.leaves.length - 1) := by
  cases t with
  | leaf x w => simp [leafCodes]
  | node w k l r =>
    intro e he
    have := path_length_lt _ e he
    omega

/-- Two different members of a prefix-free list are not prefixes of one another. -/
theorem pairwise_apart {es : List (Byte × Code)} (h : es.Pairwise fun e f => ¬ (e.2 <+: f.2) ∧ ¬ (f.2 <+: e.2))
    {e f : Byte × Code} (he : e ∈ es) (hf : f ∈ es) (hef : e ≠ f) : ¬ (e.2 <+: f.2) ∧ ¬ (f.2 <+: e.2) := by
  have : Std.Symm fun e f : Byte × Code => ¬ (e.2 <+: f.2) ∧ ¬ (f.2 <+: e.2) := ⟨fun _ _ h => ⟨h.2, h.1⟩⟩
  exact h.forall he hf hef

/-- The table of a tree with distinct symbols is prefix-free (42_tree_codes.md R223 (c)). -/
theorem prefixFree_codesOf (t : Tree) (hn : (t.leaves.map (·.1)).Nodup) : PrefixFree (codesOf t) := by
  intro x y hxy hx hy hpre
  have hex := (mem_entriesOf_codesOf t hn _).mp ((mem_entriesOf _ x _).mpr ⟨rfl, hx⟩)
  have hey := (mem_entriesOf_codesOf t hn _).mp ((mem_entriesOf _ y _).mpr ⟨rfl, hy⟩)
  exact (pairwise_apart (leafCodes_prefixFree t) hex hey fun h => hxy (congrArg Prod.fst h)).1 hpre

theorem distinct_symbols_le (l : List Byte) (h : l.Nodup) : l.length ≤ 256 := by
  have h1 : (l.map BitVec.toNat).Nodup := h.map fun _ _ => BitVec.eq_of_toNat_eq
  have h2 : (l.map BitVec.toNat) ⊆ List.range 256 := by
    intro n hn
    obtain ⟨x, _, rfl⟩ := List.mem_map.mp hn
    exact List.mem_range.mpr x.isLt
  have := (List.subperm_of_subset h1 h2).length_le
  simpa using this

/-- No code of such a table is longer than LEN_MAX (42_tree_codes.md R223 (b)). -/
theorem codesFit_codesOf (t : Tree) (hn : (t.leaves.map (·.1)).Nodup) : CodesFit (codesOf t) := by
  intro x
  by_cases hx : tabGet (codesOf t) x = []
  · simp [hx]
  · have he := (mem_entriesOf_codesOf t hn _).mp ((mem_entriesOf _ x _).mpr ⟨rfl, hx⟩)
    have h1 := leafCodes_length_bound t _ he
    have h2 := distinct_symbols_le _ hn
    simp only [List.length_map] at h2
    simp only [Config.lenMax]
    simp only at h1
    omega

theorem treeOf_nodup {freq : Vector Word 256} {t : Tree} (h : TreeOf freq t) : (t.leaves.map (·.1)).Nodup :=
  (h.1.map _).nodup_iff.mpr (countedSymbols_nodup freq)

/-- The codes of a tree of two or more leaves fill the code space (42_tree_codes.md R223). -/
theorem kraft_codesOf (t : Tree) (hn : (t.leaves.map (·.1)).Nodup) (h2 : 2 ≤ t.leaves.length) :
    kraftSum (codesOf t) = 2 ^ Config.lenMax := by
  have hf := codesFit_codesOf t hn
  unfold kraftSum
  rw [((entriesOf_codesOf_perm t hn).map _).sum_eq]
  cases t with
  | leaf x w => simp [Tree.leaves] at h2
  | node w k l r =>
    refine paths_kraft (.node w k l r) Config.lenMax fun e he => ?_
    have := hf e.1
    rwa [(tabGet_codesOf _ hn).1 e he] at this

end Sys2Proof.Machine
end

