-- ==== Sys2Proof/Laws/Header.lean ====
section
/-! SUPPORT. Laws of SERIALIZE and PARSE (44_header.md). -/

namespace Sys2Proof.Machine

/-! ### Writing bytes -/

/-- What a run of byte writes does when it does not stop (44_header.md R260). -/
theorem emitBytes_eq_ok {s : State} {bs : List Byte} {p : Nat} {m m' : Memory} (hm : Memory.wf m = true)
    (hp : p + bs.length ≤ s.dstCap.toNat) (h : emitBytes s bs p m = .ok m') :
    Memory.wf m' = true ∧ (∀ k, k < bs.length → memRead m' (s.dst (p + k)).toNat = bs.getD k 0#8) ∧
      ∀ a, (∀ k, k < bs.length → a ≠ (s.dst (p + k)).toNat) → memRead m' a = memRead m a := by
  induction bs generalizing p m with
  | nil =>
    simp only [emitBytes, Except.ok.injEq] at h; subst h
    exact ⟨hm, by simp, fun _ _ => rfl⟩
  | cons b bs ih =>
    simp only [List.length_cons] at hp
    simp only [emitBytes] at h
    split at h
    · rename_i m₁ hw
      obtain ⟨_, rfl⟩ := busWrite_eq_ok hw
      obtain ⟨h1, h2, h3⟩ := ih (memWrite_wf hm (s.dst p).isLt b) (by omega) h
      refine ⟨h1, ?_, ?_⟩
      · intro k hk
        cases k with
        | zero =>
          rw [h3, memRead_memWrite hm]
          · simp
          · intro k hk he
            have := dst_inj s (by omega) (by omega) he
            omega
        | succ k =>
          have := h2 k (by simpa using hk)
          rw [show p + (k + 1) = p + 1 + k by omega, this]
          simp
      · intro a ha
        rw [h3 a fun k hk => ?_, memRead_memWrite hm, if_neg]
        · exact ha 0 (by simp)
        · have := ha (k + 1) (by simpa using hk)
          rwa [show p + (k + 1) = p + 1 + k by omega] at this
    · simp at h

theorem emitBytes_ok {s : State} {bs : List Byte} {p : Nat} {m : Memory} (hw : s.WritableTo (p + bs.length)) :
    ∃ m', emitBytes s bs p m = .ok m' := by
  induction bs generalizing p m with
  | nil => exact ⟨m, rfl⟩
  | cons b bs ih =>
    simp only [List.length_cons] at hw
    simp only [emitBytes, busWrite_ok (hw p (by omega))]
    exact ih fun j hj => hw j (by omega)

/-- The first byte the platform refuses stops the bytes (60_exceptions.md R312, R314). -/
theorem emitBytes_busError {s : State} {bs : List Byte} {p j : Nat} {m : Memory} (hp : p ≤ j) (hj : j < p + bs.length)
    (hw : s.WritableTo j) (hbad : s.platform.busOk .write (s.dst j) = false) :
    emitBytes s bs p m = .error (.err .busError (s.dst j)) := by
  induction bs generalizing p m with
  | nil => simp at hj; omega
  | cons b bs ih =>
    simp only [List.length_cons] at hj
    by_cases he : p = j
    · simp only [emitBytes, he, busWrite_busError hbad]
    · simp only [emitBytes, busWrite_ok (hw p (by omega))]
      exact ih (by omega) (by omega)

theorem emitBytes_error {s : State} {bs : List Byte} {p : Nat} {m : Memory} {stop : Stop}
    (h : emitBytes s bs p m = .error stop) :
    ∃ a, stop = .err .busError a := by
  induction bs generalizing p m with
  | nil => simp [emitBytes] at h
  | cons b bs ih =>
    simp only [emitBytes] at h
    split at h
    · exact ih h
    · rename_i st hst
      simp only [Except.error.injEq] at h
      subst h
      exact ⟨_, (busWrite_eq_error hst).1⟩

/-! ### The header's size (30_encoding.md R143, R147) -/

@[simp] theorem entryBytes_length (e : Byte × Code) : (entryBytes e).length = entrySize e.2 := by
  simp [entryBytes, entrySize]; omega

theorem flatMap_entryBytes_length (es : List (Byte × Code)) :
    (es.flatMap entryBytes).length = (es.map fun e => entrySize e.2).sum := by
  induction es with
  | nil => rfl
  | cons e es ih => simp [List.flatMap_cons, ih]

theorem headerBytes_length (es : List (Byte × Code)) (total : Nat) :
    (headerBytes es total).length = 2 + (es.map fun e => entrySize e.2).sum + 8 := by
  simp [headerBytes]; omega

/-- HDR_SIZE is the length of the header SERIALIZE writes (10_state.md R58). -/
theorem hdrSize_eq (s : State) (h : s.tabNsym ≠ 0) (total : Nat) : s.hdrSize = (headerBytes s.entries total).length := by
  rw [State.hdrSize, if_neg h, headerBytes_length]

/-! ### Reading bytes -/

theorem holdsAt_append (s : State) (p : Nat) (bs cs : List Byte) :
    HoldsAt s p (bs ++ cs) ↔ HoldsAt s p bs ∧ HoldsAt s (p + bs.length) cs := by
  constructor
  · intro h
    refine ⟨fun k hk => ?_, fun k hk => ?_⟩
    · rw [h k (by simp; omega), List.getD_append _ _ _ _ hk]
    · rw [Nat.add_assoc, h (bs.length + k) (by simp; omega), List.getD_append_right _ _ _ _ (by omega)]
      simp
  · rintro ⟨h1, h2⟩ k hk
    by_cases hlt : k < bs.length
    · rw [h1 k hlt, List.getD_append _ _ _ _ hlt]
    · have := h2 (k - bs.length) (by simp at hk; omega)
      rw [List.getD_append_right _ _ _ _ (by omega), ← this]
      congr 1; omega

theorem hdrByte_ok {s : State} {p : Nat} (hp : p < s.srcLen.toNat) (hr : s.platform.readable (s.src p) = true) :
    hdrByte s p = .ok (s.srcByte p, p + 1) := by
  rw [hdrByte, if_neg (by omega), busRead_ok hr]; rfl

theorem hdrByte_eq_ok {s : State} {p p' : Nat} {b : Byte} (h : hdrByte s p = .ok (b, p')) :
    p < s.srcLen.toNat ∧ s.platform.readable (s.src p) = true ∧ b = s.srcByte p ∧ p' = p + 1 := by
  unfold hdrByte at h
  split at h
  · simp at h
  · split at h
    · rename_i b' hb
      obtain ⟨h1, rfl⟩ := busRead_eq_ok hb
      simp only [Except.ok.injEq, Prod.mk.injEq] at h
      exact ⟨by omega, h1, h.1.symm, h.2.symm⟩
    · simp at h

theorem hdrByte_error {s : State} {p : Nat} {stop : Stop} (h : hdrByte s p = .error stop) :
    (stop = .err .headerParse (BitVec.ofNat 32 p) ∧ s.srcLen.toNat ≤ p) ∨ (∃ a, stop = .err .busError a) ∨
      DeviceStop s stop := by
  unfold hdrByte at h
  split at h
  · rename_i hp
    exact .inl ⟨by simpa using h.symm, hp⟩
  · rename_i hp
    split at h
    · simp at h
    · rename_i st hst
      simp only [Except.error.injEq] at h
      subst h
      rcases busRead_eq_error hst with ⟨rfl, _⟩ | ⟨rfl, hd⟩
      · exact .inr (.inl ⟨_, rfl⟩)
      · exact .inr (.inr ⟨p, by omega, rfl, hd⟩)

/-- Reading header bytes that are there. -/
theorem hdrBytes_ok {s : State} {n p : Nat} (hp : p + n ≤ s.srcLen.toNat) (hr : s.ReadableTo (p + n)) :
    hdrBytes s n p = .ok (srcSlice s p n, p + n) := by
  induction n generalizing p with
  | zero => rfl
  | succ n ih =>
    simp only [hdrBytes, hdrByte_ok (show p < s.srcLen.toNat by omega) (hr p (by omega))]
    rw [ih (by omega) fun j hj => hr j (by omega)]
    simp only [srcSlice_succ, Except.ok.injEq, Prod.mk.injEq, true_and]
    omega

theorem hdrBytes_eq_ok {s : State} {n p p' : Nat} {bs : List Byte} (h : hdrBytes s n p = .ok (bs, p')) :
    p' = p + n ∧ bs = srcSlice s p n ∧ (0 < n → p + n ≤ s.srcLen.toNat) := by
  induction n generalizing p p' bs with
  | zero =>
    simp only [hdrBytes, Except.ok.injEq, Prod.mk.injEq] at h
    exact ⟨h.2.symm, h.1.symm, by omega⟩
  | succ n ih =>
    simp only [hdrBytes] at h
    split at h
    · simp at h
    · rename_i b p₁ hb
      obtain ⟨h1, _, rfl, rfl⟩ := hdrByte_eq_ok hb
      split at h
      · simp at h
      · rename_i cs p₂ hcs
        obtain ⟨rfl, rfl, h3⟩ := ih hcs
        simp only [Except.ok.injEq, Prod.mk.injEq] at h
        obtain ⟨rfl, rfl⟩ := h
        refine ⟨by omega, (srcSlice_succ s p n).symm, fun _ => ?_⟩
        rcases Nat.eq_zero_or_pos n with rfl | hn
        · omega
        · have := h3 hn; omega

theorem hdrBytes_error {s : State} {n p : Nat} {stop : Stop} (h : hdrBytes s n p = .error stop) :
    (∃ q, stop = .err .headerParse q) ∨ (∃ a, stop = .err .busError a) ∨
      DeviceStop s stop := by
  induction n generalizing p with
  | zero => simp [hdrBytes] at h
  | succ n ih =>
    simp only [hdrBytes] at h
    split at h
    · rename_i st hst
      simp only [Except.error.injEq] at h
      subst h
      rcases hdrByte_error hst with ⟨rfl, _⟩ | h | h
      · exact .inl ⟨_, rfl⟩
      · exact .inr (.inl h)
      · exact .inr (.inr h)
    · split at h
      · rename_i st hst
        simp only [Except.error.injEq] at h
        subst h
        exact ih hst
      · simp at h

/-- The header byte at the end of the window is missing (44_header.md R271). -/
theorem hdrByte_missing {s : State} {p : Nat} (hp : s.srcLen.toNat = p) :
    hdrByte s p = .error (.err .headerParse s.srcLen) := by
  have : BitVec.ofNat 32 p = s.srcLen := by rw [← hp]; simp
  rw [hdrByte, if_pos (by omega), this]

/-- A header byte that the master does not get stops the parser. -/
theorem hdrByte_readStop {s : State} {p : Nat} {stop : Stop} (hp : p < s.srcLen.toNat)
    (h : busRead s.platform s.mem (s.src p) = .error stop) : hdrByte s p = .error stop := by
  rw [hdrByte, if_neg (by omega), h]

/-- Header bytes stop where one of them does. -/
theorem hdrBytes_stop {s : State} {n p q : Nat} {stop : Stop} (hp : p ≤ q) (hq : q < p + n) (hl : q ≤ s.srcLen.toNat)
    (hr : s.ReadableTo q) (hs : hdrByte s q = .error stop) : hdrBytes s n p = .error stop := by
  induction n generalizing p with
  | zero => omega
  | succ n ih =>
    by_cases he : p = q
    · rw [hdrBytes, he, hs]
    · simp only [hdrBytes, hdrByte_ok (show p < s.srcLen.toNat by omega) (hr p (by omega))]
      rw [ih (by omega) (by omega)]

theorem srcSlice_of_holds {s : State} {p : Nat} {bs : List Byte} (h : HoldsAt s p bs) : srcSlice s p bs.length = bs := by
  apply List.ext_getElem (by simp)
  intro k h1 h2
  have := h k h2
  simp only [List.getD_eq_getElem?_getD, List.getElem?_eq_getElem h2, Option.getD_some] at this
  simpa [srcSlice] using this

/-! ### Entries -/

/-- `es`, then `e`, then more: no conflict of `e` with `es` (44_header.md R272). -/
theorem conflicts_eq_false_iff (es : List (Byte × Code)) (x : Byte) (c : Code) :
    conflicts es x c = false ↔ ∀ e ∈ es, e.1 ≠ x ∧ ¬ (e.2 <+: c) ∧ ¬ (c <+: e.2) := by
  simp only [conflicts, List.any_eq_false, Bool.or_eq_true, not_or, beq_iff_eq, List.isPrefixOf_iff_prefix]
  simp only [and_assoc]

theorem entriesAgree_append (es : List (Byte × Code)) (x : Byte) (c : Code) :
    EntriesAgree (es ++ [(x, c)]) ↔
      EntriesAgree es ∧ (1 ≤ c.length ∧ c.length ≤ Config.lenMax) ∧ conflicts es x c = false := by
  rw [conflicts_eq_false_iff]
  simp only [EntriesAgree, List.pairwise_append, List.mem_append, List.mem_singleton, List.pairwise_singleton]
  constructor
  · rintro ⟨h1, h2, _, h3⟩
    exact ⟨⟨fun e he => h1 e (.inl he), h2⟩, h1 (x, c) (.inr rfl), fun e he => h3 e he (x, c) rfl⟩
  · rintro ⟨⟨h1, h2⟩, h3, h4⟩
    refine ⟨?_, h2, trivial, ?_⟩
    · rintro e (he | rfl)
      · exact h1 e he
      · exact h3
    · rintro e he f rfl
      exact h4 e he

theorem entriesAgree_of_append {es fs : List (Byte × Code)} (h : EntriesAgree (es ++ fs)) : EntriesAgree es :=
  ⟨fun e he => h.1 e (by simp [he]), (List.pairwise_append.mp h.2).1⟩

theorem entryFits_entryBytes (e : Byte × Code) : EntryFits e (entryBytes e) :=
  ⟨pack e.2, rfl, by simp, unpack_pack e.2⟩

theorem EntryFits.length {e : Byte × Code} {bs : List Byte} (h : EntryFits e bs) : bs.length = entrySize e.2 := by
  obtain ⟨body, rfl, hl, _⟩ := h
  simp [entrySize, hl]; omega

theorem holdsAt_take {s : State} {p : Nat} {bs : List Byte} (h : HoldsAt s p bs) (n : Nat) : HoldsAt s p (bs.take n) := by
  intro k hk
  simp only [List.length_take] at hk
  rw [h k (by omega)]
  simp only [List.getD_eq_getElem?_getD]
  rw [List.getElem?_take_of_lt (by omega)]

theorem ofNat_length_toNat {c : Code} (h : c.length ≤ 255) : (BitVec.ofNat 8 c.length).toNat = c.length := by
  simp; omega

theorem ofNat_length_ne_zero {c : Code} (h1 : 1 ≤ c.length) (h2 : c.length ≤ 255) : BitVec.ofNat 8 c.length ≠ 0#8 := by
  intro h
  have h0 : c.length = 0 := by rw [← ofNat_length_toNat h2, h]; rfl
  omega

/-- An entry that is there: it is taken, or it conflicts with one before it (44_header.md R270, R272, R273). -/
theorem parseEntry_fits {s : State} {j p : Nat} {es : List (Byte × Code)} {e : Byte × Code} {bs : List Byte}
    (hl1 : 1 ≤ e.2.length) (hl2 : e.2.length ≤ Config.lenMax) (hf : EntryFits e bs) (hh : HoldsAt s p bs)
    (hp : p + bs.length ≤ s.srcLen.toNat) (hr : s.ReadableTo (p + bs.length)) :
    parseEntry s j es p =
      if conflicts es e.1 e.2 then .error (.err .headerIntegrity (BitVec.ofNat 32 j)) else .ok (e, p + bs.length) := by
  rw [hf.length] at hp hr ⊢
  obtain ⟨x, c⟩ := e
  obtain ⟨body, rfl, hb, hu⟩ := hf
  simp only [Config.lenMax] at hl1 hl2
  simp only [entrySize] at hp hr hb hu ⊢
  have hh' : HoldsAt s p ([x, BitVec.ofNat 8 c.length] ++ body) := hh
  obtain ⟨h1, h2⟩ := (holdsAt_append s p _ _).mp hh'
  have hx : s.srcByte p = x := by simpa using h1 0 (by simp)
  have hl : s.srcByte (p + 1) = BitVec.ofNat 8 c.length := by simpa using h1 1 (by simp)
  have hbytes : srcSlice s (p + 2) (ceil8 c.length) = body := by
    have := srcSlice_of_holds h2
    simpa [hb] using this
  rw [parseEntry, hdrByte_ok (show p < s.srcLen.toNat by omega) (hr p (by omega))]
  simp only
  rw [hdrByte_ok (show p + 1 < s.srcLen.toNat by omega) (hr (p + 1) (by omega))]
  simp only [hl, ofNat_length_ne_zero hl1 hl2, if_false, ofNat_length_toNat hl2]
  have hr' : s.ReadableTo (p + 1 + 1 + ceil8 c.length) := fun k hk => hr k (by omega)
  rw [hdrBytes_ok (by omega) hr']
  simp only [show p + 1 + 1 = p + 2 by rfl, hbytes, hu, hx]
  rw [Nat.add_assoc]

/-- An entry that is there and conflicts with none before it is parsed (44_header.md R270, R273). -/
theorem parseEntry_ok {s : State} {j p : Nat} {es : List (Byte × Code)} {e : Byte × Code} {bs : List Byte}
    (hagree : EntriesAgree (es ++ [e])) (hf : EntryFits e bs) (hh : HoldsAt s p bs)
    (hp : p + bs.length ≤ s.srcLen.toNat) (hr : s.ReadableTo (p + bs.length)) :
    parseEntry s j es p = .ok (e, p + bs.length) := by
  obtain ⟨_, ⟨hl1, hl2⟩, hconf⟩ := (entriesAgree_append es e.1 e.2).mp hagree
  rw [parseEntry_fits hl1 hl2 hf hh hp hr, hconf]
  simp

/-- An entry whose first bytes are there stops where the next byte does (44_header.md R270, R271). -/
theorem parseEntry_stop {s : State} {j p : Nat} {es : List (Byte × Code)} {e : Byte × Code} {start tail : List Byte}
    {stop : Stop} (hl1 : 1 ≤ e.2.length) (hl2 : e.2.length ≤ Config.lenMax) (hf : EntryFits e (start ++ tail))
    (htail : tail ≠ []) (hh : HoldsAt s p start) (hp : p + start.length ≤ s.srcLen.toNat)
    (hr : s.ReadableTo (p + start.length)) (hs : hdrByte s (p + start.length) = .error stop) :
    parseEntry s j es p = .error stop := by
  have hlen := hf.length
  have htail' := List.length_pos_iff.mpr htail
  simp only [List.length_append, entrySize] at hlen
  rw [parseEntry]
  rcases start with _ | ⟨b₀, _ | ⟨b₁, start⟩⟩
  · simp only [List.length_nil, Nat.add_zero] at hs
    rw [hs]
  · simp only [List.length_cons, List.length_nil, Nat.zero_add] at hs hp hr
    rw [hdrByte_ok (by omega) (hr p (by omega))]
    simp only
    rw [hs]
  · simp only [List.length_cons] at hs hp hr hlen
    obtain ⟨x, c⟩ := e
    obtain ⟨body, hbody, _, _⟩ := hf
    simp only [List.cons_append, List.cons.injEq] at hbody hl1 hl2 hlen
    have hl : s.srcByte (p + 1) = BitVec.ofNat 8 c.length := by
      have := hh 1 (by simp)
      rw [this, ← hbody.2.1]
      rfl
    simp only [Config.lenMax] at hl2
    rw [hdrByte_ok (by omega) (hr p (by omega))]
    simp only
    rw [hdrByte_ok (by omega) (hr (p + 1) (by omega))]
    simp only [hl, ofNat_length_ne_zero hl1 hl2, if_false, ofNat_length_toNat hl2]
    rw [hdrBytes_stop (q := p + (start.length + 1 + 1)) (by omega) (by omega) hp hr hs]

/-- Entries that are there, each in agreement with those before it, are all parsed, and the parser goes on behind
them (44_header.md R270). -/
theorem parseEntries_fits {s : State} {n j p : Nat} {es fs : List (Byte × Code)} {parts : List (List Byte)}
    (hagree : EntriesAgree (es ++ fs)) (hf : List.Forall₂ EntryFits fs parts) (hh : HoldsAt s p parts.flatten)
    (hp : p + parts.flatten.length ≤ s.srcLen.toNat) (hr : s.ReadableTo (p + parts.flatten.length)) :
    parseEntries s (fs.length + n) j es p = parseEntries s n (j + fs.length) (es ++ fs) (p + parts.flatten.length) := by
  induction hf generalizing j p es with
  | nil => simp
  | @cons f bs fs parts h1 h2 ih =>
    simp only [List.flatten_cons, List.length_append] at hp hr ⊢
    rw [List.flatten_cons, holdsAt_append] at hh
    obtain ⟨hh1, hh2⟩ := hh
    have hagree' : EntriesAgree ((es ++ [f]) ++ fs) := by simpa using hagree
    rw [List.length_cons, show fs.length + 1 + n = (fs.length + n) + 1 by omega, parseEntries]
    rw [parseEntry_ok (entriesAgree_of_append hagree') h1 hh1 (by omega) fun k hk => hr k (by omega)]
    simp only
    rw [ih hagree' hh2 (by omega) fun k hk => hr k (by omega)]
    rw [show j + 1 + fs.length = j + (fs.length + 1) by omega, Nat.add_assoc]
    simp

/-- After good entries, one whose first bytes are there stops where the next byte does (44_header.md R271). -/
theorem parseEntries_stop {s : State} {n j p : Nat} {es fs : List (Byte × Code)} {parts : List (List Byte)}
    {e : Byte × Code} {start tail : List Byte} {stop : Stop} (hagree : EntriesAgree (es ++ fs))
    (hf : List.Forall₂ EntryFits fs parts) (hl1 : 1 ≤ e.2.length) (hl2 : e.2.length ≤ Config.lenMax)
    (he : EntryFits e (start ++ tail)) (htail : tail ≠ []) (hh : HoldsAt s p (parts.flatten ++ start))
    (hp : p + parts.flatten.length + start.length ≤ s.srcLen.toNat)
    (hr : s.ReadableTo (p + parts.flatten.length + start.length)) (hn : fs.length < n)
    (hs : hdrByte s (p + parts.flatten.length + start.length) = .error stop) :
    parseEntries s n j es p = .error stop := by
  obtain ⟨h1, h2⟩ := (holdsAt_append s p _ _).mp hh
  obtain ⟨m, rfl⟩ : ∃ m, n = fs.length + (m + 1) := ⟨n - fs.length - 1, by omega⟩
  rw [parseEntries_fits hagree hf h1 (by omega) fun k hk => hr k (by omega), parseEntries,
    parseEntry_stop hl1 hl2 he htail h2 hp hr hs]

/-- After good entries, one that conflicts with them is rejected (44_header.md R272). -/
theorem parseEntries_conflict {s : State} {n j p : Nat} {es fs : List (Byte × Code)} {parts : List (List Byte)}
    {e : Byte × Code} {bs : List Byte} (hagree : EntriesAgree (es ++ fs)) (hf : List.Forall₂ EntryFits fs parts)
    (hl1 : 1 ≤ e.2.length) (hl2 : e.2.length ≤ Config.lenMax) (he : EntryFits e bs)
    (hconf : conflicts (es ++ fs) e.1 e.2 = true)
    (hh : HoldsAt s p (parts.flatten ++ bs)) (hp : p + parts.flatten.length + bs.length ≤ s.srcLen.toNat)
    (hr : s.ReadableTo (p + parts.flatten.length + bs.length)) (hn : fs.length < n) :
    parseEntries s n j es p = .error (.err .headerIntegrity (BitVec.ofNat 32 (j + fs.length))) := by
  obtain ⟨h1, h2⟩ := (holdsAt_append s p _ _).mp hh
  obtain ⟨m, rfl⟩ : ∃ m, n = fs.length + (m + 1) := ⟨n - fs.length - 1, by omega⟩
  rw [parseEntries_fits hagree hf h1 (by omega) fun k hk => hr k (by omega), parseEntries,
    parseEntry_fits hl1 hl2 he h2 hp hr, hconf]
  simp

/-- After good entries, one with length 0 is rejected (44_header.md R271). -/
theorem parseEntries_zero {s : State} {n j p : Nat} {es fs : List (Byte × Code)} {parts : List (List Byte)} {x : Byte}
    (hagree : EntriesAgree (es ++ fs)) (hf : List.Forall₂ EntryFits fs parts)
    (hh : HoldsAt s p (parts.flatten ++ [x, 0#8])) (hp : p + parts.flatten.length + 2 ≤ s.srcLen.toNat)
    (hr : s.ReadableTo (p + parts.flatten.length + 2)) (hn : fs.length < n) :
    parseEntries s n j es p = .error (.err .headerParse (BitVec.ofNat 32 (p + parts.flatten.length + 1))) := by
  obtain ⟨h1, h2⟩ := (holdsAt_append s p _ _).mp hh
  obtain ⟨m, rfl⟩ : ∃ m, n = fs.length + (m + 1) := ⟨n - fs.length - 1, by omega⟩
  have hz : s.srcByte (p + parts.flatten.length + 1) = 0#8 := by simpa using h2 1 (by simp)
  rw [parseEntries_fits hagree hf h1 (by omega) fun k hk => hr k (by omega), parseEntries, parseEntry,
    hdrByte_ok (by omega) (hr _ (by omega))]
  simp only
  rw [hdrByte_ok (by omega) (hr _ (by omega))]
  simp only [hz, if_true]

/-- What a parsed entry is. -/
theorem parseEntry_eq_ok {s : State} {j p p' : Nat} {es : List (Byte × Code)} {e : Byte × Code}
    (hes : EntriesAgree es) (h : parseEntry s j es p = .ok (e, p')) :
    EntriesAgree (es ++ [e]) ∧ p' = p + entrySize e.2 ∧ p' ≤ s.srcLen.toNat := by
  unfold parseEntry at h
  split at h
  · simp at h
  · rename_i x p₁ hx
    obtain ⟨hx1, _, rfl, rfl⟩ := hdrByte_eq_ok hx
    split at h
    · simp at h
    · rename_i len p₂ hl
      obtain ⟨hl1, _, rfl, rfl⟩ := hdrByte_eq_ok hl
      split at h
      · simp at h
      · rename_i hne
        split at h
        · simp at h
        · rename_i bytes p₃ hb
          obtain ⟨rfl, rfl, hb3⟩ := hdrBytes_eq_ok hb
          split at h
          · simp at h
          · rename_i hconf
            simp only [Except.ok.injEq, Prod.mk.injEq] at h
            obtain ⟨rfl, rfl⟩ := h
            have hpos : 0 < (s.srcByte (p + 1)).toNat := by
              rcases Nat.eq_zero_or_pos (s.srcByte (p + 1)).toNat with h0 | h0
              · exact absurd (BitVec.eq_of_toNat_eq (by simpa using h0)) hne
              · exact h0
            have hlt := (s.srcByte (p + 1)).isLt
            have hul : (unpack (srcSlice s (p + 1 + 1) (ceil8 (s.srcByte (p + 1)).toNat)) (s.srcByte (p + 1)).toNat).length
                = (s.srcByte (p + 1)).toNat := by
              apply unpack_length
              have := (ceil8_spec (s.srcByte (p + 1)).toNat).1
              simpa using this
            refine ⟨(entriesAgree_append _ _ _).mpr ⟨hes, ?_, by simpa using hconf⟩, ?_, ?_⟩
            · rw [hul]; simp only [Config.lenMax]; omega
            · simp only [entrySize, hul]; omega
            · exact hb3 (by unfold ceil8; omega)

theorem parseEntries_eq_ok {s : State} {n j p p' : Nat} {es fs : List (Byte × Code)} (hes : EntriesAgree es)
    (h : parseEntries s n j es p = .ok (fs, p')) :
    EntriesAgree fs ∧ fs.length = es.length + n ∧
      p' + (es.map fun e => entrySize e.2).sum = p + (fs.map fun e => entrySize e.2).sum ∧
      (0 < n → p' ≤ s.srcLen.toNat) := by
  induction n generalizing j p es with
  | zero =>
    simp only [parseEntries, Except.ok.injEq, Prod.mk.injEq] at h
    obtain ⟨rfl, rfl⟩ := h
    exact ⟨hes, rfl, rfl, by omega⟩
  | succ n ih =>
    simp only [parseEntries] at h
    split at h
    · simp at h
    · rename_i e p₁ he
      obtain ⟨h1, rfl, hle⟩ := parseEntry_eq_ok hes he
      obtain ⟨h3, h4, h5, h6⟩ := ih h1 h
      refine ⟨h3, by simp at h4; omega, by simp at h5; omega, fun _ => ?_⟩
      rcases Nat.eq_zero_or_pos n with rfl | hn
      · simp only [parseEntries, Except.ok.injEq, Prod.mk.injEq] at h
        omega
      · exact h6 hn

/-- Why an entry can stop (44_header.md R271, R272). -/
def ParseStop (s : State) (stop : Stop) : Prop :=
  (∃ e info, stop = .err e info ∧ (e = .headerParse ∨ e = .headerIntegrity ∨ e = .busError)) ∨
    DeviceStop s stop

theorem hdrBytes_parseStop {s : State} {n p : Nat} {stop : Stop} (h : hdrBytes s n p = .error stop) : ParseStop s stop := by
  rcases hdrBytes_error h with ⟨q, rfl⟩ | ⟨a, rfl⟩ | hd
  · exact .inl ⟨_, _, rfl, by simp⟩
  · exact .inl ⟨_, _, rfl, by simp⟩
  · exact .inr hd

theorem hdrByte_parseStop {s : State} {p : Nat} {stop : Stop} (h : hdrByte s p = .error stop) : ParseStop s stop := by
  rcases hdrByte_error h with ⟨rfl, _⟩ | ⟨a, rfl⟩ | hd
  · exact .inl ⟨_, _, rfl, by simp⟩
  · exact .inl ⟨_, _, rfl, by simp⟩
  · exact .inr hd

theorem parseEntry_parseStop {s : State} {j p : Nat} {es : List (Byte × Code)} {stop : Stop}
    (h : parseEntry s j es p = .error stop) : ParseStop s stop := by
  unfold parseEntry at h
  split at h
  · rename_i st hst
    simp only [Except.error.injEq] at h; subst h
    exact hdrByte_parseStop hst
  · split at h
    · rename_i st hst
      simp only [Except.error.injEq] at h; subst h
      exact hdrByte_parseStop hst
    · split at h
      · simp only [Except.error.injEq] at h; subst h
        exact .inl ⟨_, _, rfl, by simp⟩
      · split at h
        · rename_i st hst
          simp only [Except.error.injEq] at h; subst h
          exact hdrBytes_parseStop hst
        · split at h
          · simp only [Except.error.injEq] at h; subst h
            exact .inl ⟨_, _, rfl, by simp⟩
          · simp at h

theorem parseEntries_parseStop {s : State} {n j p : Nat} {es : List (Byte × Code)} {stop : Stop}
    (h : parseEntries s n j es p = .error stop) : ParseStop s stop := by
  induction n generalizing j p es with
  | zero => simp [parseEntries] at h
  | succ n ih =>
    simp only [parseEntries] at h
    split at h
    · rename_i st hst
      simp only [Except.error.injEq] at h; subst h
      exact parseEntry_parseStop hst
    · exact ih h

/-! ### The header -/

theorem entriesAgree_length {es : List (Byte × Code)} (h : EntriesAgree es) : es.length ≤ 256 := by
  have hn : (es.map (·.1)).Nodup := by
    rw [List.Nodup, List.pairwise_map]
    exact h.2.imp fun h => h.1
  have := distinct_symbols_le _ hn
  simpa using this

theorem headerFits_headerBytes (es : List (Byte × Code)) (total : Nat) : HeaderFits es total (headerBytes es total) := by
  refine ⟨es.map entryBytes, ?_, by simp [headerBytes, List.flatMap]⟩
  induction es with
  | nil => exact .nil
  | cons e es ih => exact .cons (entryFits_entryBytes e) ih

theorem flatten_fits_length {es : List (Byte × Code)} {parts : List (List Byte)} (h : List.Forall₂ EntryFits es parts) :
    parts.flatten.length = (es.map fun e => entrySize e.2).sum := by
  induction h with
  | nil => rfl
  | cons h1 _ ih => rw [List.flatten_cons, List.length_append, ih, h1.length]; rfl

theorem HeaderFits.length {es : List (Byte × Code)} {total : Nat} {bs : List Byte} (h : HeaderFits es total bs) :
    bs.length = 2 + (es.map fun e => entrySize e.2).sum + 8 := by
  obtain ⟨parts, hf, rfl⟩ := h
  simp only [List.length_append, beBytes_length, flatten_fits_length hf]

theorem beValue_count {es : List (Byte × Code)} (h : EntriesAgree es) : beValue (beBytes 2 es.length) = es.length := by
  have := entriesAgree_length h
  rw [beValue_beBytes]; exact Nat.mod_eq_of_lt (by omega)

/-- A header that is there is parsed (44_header.md R270, R273, R274, R277). -/
theorem parseHeader_ok {s : State} {es : List (Byte × Code)} {total : Nat} {bs : List Byte} (hne : es ≠ [])
    (hagree : EntriesAgree es) (htotal : total < 2 ^ 64) (hf : HeaderFits es total bs) (hh : HoldsAt s 0 bs)
    (hp : bs.length ≤ s.srcLen.toNat) (hr : s.ReadableTo bs.length) :
    parseHeader s = .ok { entries := es, total := total, len := bs.length } := by
  obtain ⟨parts, hparts, rfl⟩ := hf
  simp only [List.length_append, beBytes_length] at hp hr ⊢
  rw [List.append_assoc, holdsAt_append, holdsAt_append] at hh
  obtain ⟨h1, h2, h3⟩ := hh
  simp only [beBytes_length, Nat.zero_add] at h1 h2 h3
  have hcount := entriesAgree_length hagree
  have hpos := List.length_pos_iff.mpr hne
  have hb1 : srcSlice s 0 2 = beBytes 2 es.length := by simpa using srcSlice_of_holds h1
  have hb3 : srcSlice s (2 + parts.flatten.length) 8 = beBytes 8 total := by simpa using srcSlice_of_holds h3
  have hv3 : beValue (beBytes 8 total) = total := by
    rw [beValue_beBytes]; exact Nat.mod_eq_of_lt (by norm_num at htotal ⊢; omega)
  unfold parseHeader
  rw [hdrBytes_ok (show 0 + 2 ≤ s.srcLen.toNat by omega) fun k hk => hr k (by omega)]
  simp only [hb1, beValue_count hagree, Nat.zero_add]
  rw [if_neg (by simp only [Config.nsymMax]; omega)]
  have := parseEntries_fits (s := s) (n := 0) (j := 0) (p := 2) (es := []) (fs := es) (by simpa using hagree) hparts h2
    (by omega) fun k hk => hr k (by omega)
  simp only [Nat.add_zero, List.nil_append, parseEntries] at this
  rw [this]
  simp only
  rw [hdrBytes_ok (show 2 + parts.flatten.length + 8 ≤ s.srcLen.toNat by omega) fun k hk => hr k (by omega)]
  simp only [hb3, hv3]

/-- The entries a header begins with decide what the parser meets next. -/
theorem parseHeader_start {s : State} {count : Nat} (h1 : 1 ≤ count) (h2 : count ≤ Config.nsymMax)
    (hh : HoldsAt s 0 (beBytes 2 count)) (hp : 2 ≤ s.srcLen.toNat) (hr : s.ReadableTo 2) {stop : Stop}
    (he : parseEntries s count 0 [] 2 = .error stop) : parseHeader s = .error stop := by
  have hb1 : srcSlice s 0 2 = beBytes 2 count := by simpa using srcSlice_of_holds hh
  have hv : beValue (beBytes 2 count) = count := by
    rw [beValue_beBytes]; exact Nat.mod_eq_of_lt (by simp only [Config.nsymMax] at h2; omega)
  unfold parseHeader
  rw [hdrBytes_ok (show 0 + 2 ≤ s.srcLen.toNat by omega) fun k hk => hr k (by omega)]
  simp only [hb1, hv, Nat.zero_add]
  rw [if_neg (by omega), he]

/-- A header whose first bytes are there stops where the next byte does: at the end of the window, at a bus error or at
a device (44_header.md R271; 60_exceptions.md R312, R314). -/
theorem parseHeader_stop {s : State} {bs : List Byte} {stop : Stop} (hb : HeaderStart bs) (hh : HoldsAt s 0 bs)
    (hp : bs.length ≤ s.srcLen.toNat) (hr : s.ReadableTo bs.length) (hs : hdrByte s bs.length = .error stop) :
    parseHeader s = .error stop := by
  rcases hb with hb | ⟨count, es, parts, start, h1, h2, hagree, hf, rfl, hrest⟩
  · unfold parseHeader
    rw [hdrBytes_stop (q := bs.length) (by omega) (by omega) hp hr hs]
  · simp only [List.length_append, beBytes_length] at hp hr hs
    rw [List.append_assoc, holdsAt_append] at hh
    obtain ⟨hh1, hh2⟩ := hh
    simp only [beBytes_length, Nat.zero_add] at hh2
    rcases hrest with ⟨hlt, e, tail, hl1, hl2, htail, he⟩ | ⟨heq, hlen⟩
    · exact parseHeader_start h1 h2 hh1 (by omega) (fun k hk => hr k (by omega))
        (parseEntries_stop (es := []) (by simpa using hagree) hf hl1 hl2 he htail hh2 hp hr hlt hs)
    · obtain ⟨hh2, hh3⟩ := (holdsAt_append s 2 _ _).mp hh2
      have hb1 : srcSlice s 0 2 = beBytes 2 count := by simpa using srcSlice_of_holds hh1
      have hv : beValue (beBytes 2 count) = count := by
        rw [beValue_beBytes]; exact Nat.mod_eq_of_lt (by omega)
      have := parseEntries_fits (s := s) (n := 0) (j := 0) (p := 2) (es := []) (fs := es) (by simpa using hagree) hf hh2
        (by omega) fun k hk => hr k (by omega)
      simp only [Nat.add_zero, List.nil_append, parseEntries] at this
      unfold parseHeader
      rw [hdrBytes_ok (show 0 + 2 ≤ s.srcLen.toNat by omega) fun k hk => hr k (by omega)]
      simp only [hb1, hv, Nat.zero_add]
      rw [if_neg (by simp only [Config.nsymMax]; omega), ← heq, this]
      simp only
      rw [hdrBytes_stop (by omega) (by omega) hp hr hs]

/-- A symbol count out of range is rejected (44_header.md R271). -/
theorem parseHeader_badCount {s : State} {count : Nat} (h : count = 0 ∨ Config.nsymMax < count) (hlt : count < 2 ^ 16)
    (hh : HoldsAt s 0 (beBytes 2 count)) (hp : 2 ≤ s.srcLen.toNat) (hr : s.ReadableTo 2) :
    parseHeader s = .error (.err .headerParse 0#32) := by
  have hb1 : srcSlice s 0 2 = beBytes 2 count := by simpa using srcSlice_of_holds hh
  have hv : beValue (beBytes 2 count) = count := by rw [beValue_beBytes]; exact Nat.mod_eq_of_lt (by omega)
  unfold parseHeader
  rw [hdrBytes_ok (show 0 + 2 ≤ s.srcLen.toNat by omega) fun k hk => hr k (by omega)]
  simp only [hb1, hv, Nat.zero_add]
  rw [if_pos (by omega)]

/-- What a parsed header is (44_header.md R272, R274). -/
theorem parseHeader_eq_ok {s : State} {h : Header} (hp : parseHeader s = .ok h) :
    EntriesAgree h.entries ∧ h.entries ≠ [] ∧ h.total < 2 ^ 64 ∧ h.len ≤ s.srcLen.toNat ∧
      h.len = 2 + (h.entries.map fun e => entrySize e.2).sum + 8 := by
  unfold parseHeader at hp
  split at hp
  · simp at hp
  · rename_i cb p₁ hc
    obtain ⟨rfl, rfl, _⟩ := hdrBytes_eq_ok hc
    split at hp
    · simp at hp
    · rename_i hcount
      split at hp
      · simp at hp
      · rename_i es p₂ hes
        obtain ⟨h1, h2, h3, _⟩ := parseEntries_eq_ok (es := []) ⟨by simp, List.Pairwise.nil⟩ hes
        split at hp
        · simp at hp
        · rename_i tb p₃ ht
          obtain ⟨rfl, rfl, h4⟩ := hdrBytes_eq_ok ht
          simp only [Except.ok.injEq] at hp
          subst hp
          simp only [List.length_nil, List.map_nil, List.sum_nil] at h2 h3
          refine ⟨h1, ?_, ?_, h4 (by omega), by simp only; omega⟩
          · intro he
            simp only at he
            rw [he] at h2
            simp at h2
            omega
          · have := beValue_lt (srcSlice s p₂ 8)
            simp only [srcSlice_length] at this
            norm_num at this ⊢
            exact this

theorem parseHeader_parseStop {s : State} {stop : Stop} (h : parseHeader s = .error stop) : ParseStop s stop := by
  unfold parseHeader at h
  split at h
  · rename_i st hst
    simp only [Except.error.injEq] at h; subst h
    exact hdrBytes_parseStop hst
  · split at h
    · simp only [Except.error.injEq] at h; subst h
      exact .inl ⟨_, _, rfl, by simp⟩
    · split at h
      · rename_i st hst
        simp only [Except.error.injEq] at h; subst h
        exact parseEntries_parseStop hst
      · split at h
        · rename_i st hst
          simp only [Except.error.injEq] at h; subst h
          exact hdrBytes_parseStop hst
        · simp at h

/-! ### The table of a list of entries -/

theorem tabGet_foldl_tabSet (es : List (Byte × Code)) (t : Vector Code 256) (hn : (es.map (·.1)).Nodup) :
    (∀ e ∈ es, tabGet (es.foldl (fun t e => tabSet t e.1 e.2) t) e.1 = e.2) ∧
    ∀ x, x ∉ es.map (·.1) → tabGet (es.foldl (fun t e => tabSet t e.1 e.2) t) x = tabGet t x := by
  induction es generalizing t with
  | nil => simp
  | cons e es ih =>
    simp only [List.map_cons, List.nodup_cons] at hn
    obtain ⟨h1, h2⟩ := ih (tabSet t e.1 e.2) hn.2
    simp only [List.foldl_cons]
    refine ⟨?_, ?_⟩
    · intro f hf
      rcases List.mem_cons.mp hf with rfl | hf
      · rw [h2 _ hn.1, tabGet_tabSet_self]
      · exact h1 f hf
    · intro x hx
      simp only [List.map_cons, List.mem_cons, not_or] at hx
      rw [h2 x hx.2, tabGet_tabSet_ne _ _ hx.1]

theorem entriesAgree_nodup {es : List (Byte × Code)} (h : EntriesAgree es) : (es.map (·.1)).Nodup := by
  rw [List.Nodup, List.pairwise_map]
  exact h.2.imp fun h => h.1

/-- The table PARSE loads: each entry's code, and nothing for the other symbols (44_header.md R274). -/
theorem tabGet_tableOf {es : List (Byte × Code)} (h : EntriesAgree es) :
    (∀ e ∈ es, tabGet (tableOf es) e.1 = e.2) ∧ ∀ x, x ∉ es.map (·.1) → tabGet (tableOf es) x = [] := by
  obtain ⟨h1, h2⟩ := tabGet_foldl_tabSet es emptyTable (entriesAgree_nodup h)
  exact ⟨h1, fun x hx => (h2 x hx).trans (tabGet_emptyTable x)⟩

theorem mem_entriesOf_tableOf {es : List (Byte × Code)} (h : EntriesAgree es) (e : Byte × Code) :
    e ∈ entriesOf (tableOf es) ↔ e ∈ es := by
  obtain ⟨h1, h2⟩ := tabGet_tableOf h
  obtain ⟨x, c⟩ := e
  rw [mem_entriesOf]
  constructor
  · rintro ⟨rfl, hc⟩
    by_cases hx : x ∈ es.map (·.1)
    · obtain ⟨f, hf, rfl⟩ := List.mem_map.mp hx
      rw [h1 f hf]; exact hf
    · exact absurd (h2 x hx) hc
  · intro he
    refine ⟨(h1 _ he).symm, fun hc => ?_⟩
    have := (h.1 _ he).1
    simp only at this
    rw [hc] at this
    simp at this

theorem entriesOf_tableOf_perm {es : List (Byte × Code)} (h : EntriesAgree es) : (entriesOf (tableOf es)).Perm es :=
  (List.perm_ext_iff_of_nodup (entriesOf_nodup _) (List.Nodup.of_map _ (entriesAgree_nodup h))).mpr
    fun e => mem_entriesOf_tableOf h e

theorem codesFit_tableOf {es : List (Byte × Code)} (h : EntriesAgree es) : CodesFit (tableOf es) := by
  intro x
  by_cases hx : tabGet (tableOf es) x = []
  · simp [hx]
  · exact (h.1 _ ((mem_entriesOf_tableOf h _).mp ((mem_entriesOf _ x _).mpr ⟨rfl, hx⟩))).2

theorem prefixFree_tableOf {es : List (Byte × Code)} (h : EntriesAgree es) : PrefixFree (tableOf es) := by
  intro x y hxy hx hy hpre
  have hex := (mem_entriesOf_tableOf h _).mp ((mem_entriesOf _ x _).mpr ⟨rfl, hx⟩)
  have hey := (mem_entriesOf_tableOf h _).mp ((mem_entriesOf _ y _).mpr ⟨rfl, hy⟩)
  exact (pairwise_apart (h.2.imp fun h => h.2) hex hey fun he => hxy (congrArg Prod.fst he)).1 hpre

/-- The entries of a sound table can stand in one header (44_header.md R276). -/
theorem entriesAgree_entriesOf {code : Vector Code 256} (hf : CodesFit code) (hp : PrefixFree code) :
    EntriesAgree (entriesOf code) := by
  refine ⟨?_, ?_⟩
  · rintro ⟨x, c⟩ he
    obtain ⟨rfl, hc⟩ := (mem_entriesOf _ _ _).mp he
    exact ⟨List.length_pos_iff.mpr hc, hf x⟩
  · refine (entriesOf_sorted code).imp_of_mem ?_
    rintro ⟨x, c⟩ ⟨y, d⟩ he hf' hlt
    obtain ⟨rfl, hc⟩ := (mem_entriesOf _ _ _).mp he
    obtain ⟨rfl, hd⟩ := (mem_entriesOf _ _ _).mp hf'
    have hxy : x ≠ y := fun h => by subst h; simp at hlt
    exact ⟨hxy, hp x y hxy hc hd, hp y x hxy.symm hd hc⟩

/-- Loading a sound table's entries gives the table back (44_header.md R276). -/
theorem tableOf_entriesOf {code : Vector Code 256} (hf : CodesFit code) (hp : PrefixFree code) :
    tableOf (entriesOf code) = code := by
  obtain ⟨h1, h2⟩ := tabGet_tableOf (entriesAgree_entriesOf hf hp)
  apply table_ext
  intro x
  by_cases hx : tabGet code x = []
  · rw [hx, h2]
    intro hm
    obtain ⟨⟨y, c⟩, he, hxy⟩ := List.mem_map.mp hm
    simp only at hxy
    subst hxy
    have := (mem_entriesOf _ _ _).mp he
    simp_all
  · exact h1 (x, tabGet code x) ((mem_entriesOf _ _ _).mpr ⟨rfl, hx⟩)

/-- A header of a fitting table has at most 8714 bytes (30_encoding.md R147). -/
theorem hdrSize_le (s : State) (hf : CodesFit s.code) : s.hdrSize ≤ 8714 := by
  unfold State.hdrSize
  split
  · omega
  · have hl := entriesOf_length_le s.code
    have h1 := List.sum_le_card_nsmul (s.entries.map fun e => entrySize e.2) 34 (by
      simp only [List.mem_map]
      rintro _ ⟨⟨x, c⟩, he, rfl⟩
      obtain ⟨rfl, _⟩ := (mem_entriesOf _ _ _).mp he
      have := hf x
      simp only [Config.lenMax] at this
      simp only [entrySize, ceil8]
      omega)
    simp only [State.entries, List.length_map, smul_eq_mul] at h1 ⊢
    omega

end Sys2Proof.Machine
end

