-- ==== Sys2Proof/Laws/Unpacking.lean ====
section
/-! SUPPORT. What DECODE does (45_decode.md): the bits it has taken are the codes of the symbols it has written. -/

namespace Sys2Proof.Machine

/-! ### Resolving the accumulator -/

theorem matchCode_eq_some {es : List (Byte × Code)} {acc : Code} {x : Byte} (h : matchCode es acc = some x) :
    (x, acc) ∈ es := by
  simp only [matchCode, Option.map_eq_some_iff] at h
  obtain ⟨⟨y, c⟩, hf, rfl⟩ := h
  have h1 := List.mem_of_find?_eq_some hf
  have h2 := List.find?_some hf
  simp only [beq_iff_eq] at h2
  subst h2
  exact h1

theorem matchCode_eq_none {es : List (Byte × Code)} {acc : Code} :
    matchCode es acc = none ↔ ∀ e ∈ es, e.2 ≠ acc := by
  simp [matchCode]

theorem matchCode_entries_eq_some {s : State} {acc : Code} {x : Byte} (h : matchCode s.entries acc = some x) :
    s.codeOf x = acc ∧ acc ≠ [] := by
  obtain ⟨h1, h2⟩ := (mem_entriesOf _ _ _).mp (matchCode_eq_some h)
  exact ⟨h1.symm, h1 ▸ h2⟩

/-- In a prefix-free table a code resolves to its symbol (45_decode.md R294). -/
theorem matchCode_code {s : State} (hp : PrefixFree s.code) {x : Byte} (hx : s.codeOf x ≠ []) :
    matchCode s.entries (s.codeOf x) = some x := by
  cases h : matchCode s.entries (s.codeOf x) with
  | none =>
    exact absurd rfl (matchCode_eq_none.mp h (x, s.codeOf x) ((mem_entriesOf _ _ _).mpr ⟨rfl, hx⟩))
  | some y =>
    obtain ⟨h1, _⟩ := matchCode_entries_eq_some h
    by_cases hxy : y = x
    · rw [hxy]
    · exact absurd (show tabGet s.code y <+: tabGet s.code x from by
        show s.codeOf y <+: s.codeOf x
        rw [h1]) (hp y x hxy (fun h0 => hx (by rw [← h1]; exact h0)) hx)

/-- In a prefix-free table a proper beginning of a code resolves to nothing (45_decode.md R294). -/
theorem matchCode_proper {s : State} (hp : PrefixFree s.code) {x : Byte} {acc rest : Code} (hc : s.codeOf x = acc ++ rest)
    (hr : rest ≠ []) : matchCode s.entries acc = none := by
  cases h : matchCode s.entries acc with
  | none => rfl
  | some y =>
    obtain ⟨h1, h2⟩ := matchCode_entries_eq_some h
    have hxy : y ≠ x := by
      rintro rfl
      rw [hc] at h1
      have := congrArg List.length h1
      simp only [List.length_append] at this
      exact hr (List.length_eq_zero_iff.mp (by omega))
    refine absurd (show tabGet s.code y <+: tabGet s.code x from ?_)
      (hp y x hxy (fun h0 => h2 (by rw [← h1]; exact h0)) fun h0 => ?_)
    · show s.codeOf y <+: s.codeOf x
      rw [h1, hc]
      exact List.prefix_append _ _
    · have : s.codeOf x = [] := h0
      rw [hc] at this
      simp at this
      exact hr this.2

/-! ### The progress of the loop -/

/-- The unpacker has taken `k` payload bits: it wrote the symbols `xs`, and its byte in hand is the one bit `k` lies in. -/
structure Unpacked (s : State) (k : Nat) (xs : List Byte) (u : Unpacker) : Prop where
  cur : k % 8 ≠ 0 → u.cur = s.srcByte (k / 8)
  j : u.j = xs.length
  fits : xs.length ≤ s.dstCap.toNat
  wf : Memory.wf u.mem = true
  bytes : ∀ i, i < xs.length → memRead u.mem (s.dst i).toNat = xs.getD i 0#8
  outside : ∀ a, s.OutsideDst xs.length a → memRead u.mem a = memRead s.mem a

theorem unpacked_start (s : State) (hm : Memory.wf s.mem = true) :
    Unpacked s 0 [] { cur := 0#8, acc := [], j := 0, mem := s.mem } :=
  ⟨by simp, rfl, by simp, hm, by simp, fun _ _ => rfl⟩

theorem unpacked_src {s : State} {k : Nat} {xs : List Byte} {u : Unpacker} (hu : Unpacked s k xs u)
    (hapart : s.WindowsApart) {i : Nat} (hi : i < s.srcLen.toNat) : memRead u.mem (s.src i).toNat = s.srcByte i := by
  refine hu.outside _ fun j hj he => ?_
  have := hu.fits
  exact hapart i j hi (by omega) (BitVec.eq_of_toNat_eq he)

theorem fetchByte_ok {s : State} {k : Nat} {xs : List Byte} {u : Unpacker} (hu : Unpacked s k xs u)
    (hapart : s.WindowsApart) (hk : k / 8 < s.srcLen.toNat) (hr : s.platform.readable (s.src (k / 8)) = true) :
    fetchByte s k u = .ok (s.srcByte (k / 8)) := by
  unfold fetchByte
  split
  · rw [busRead_ok hr, unpacked_src hu hapart hk]
  · rename_i h
    rw [hu.cur h]

theorem fetchByte_eq_ok {s : State} {k : Nat} {xs : List Byte} {u : Unpacker} (hu : Unpacked s k xs u)
    (hapart : s.WindowsApart) (hk : k / 8 < s.srcLen.toNat) {b : Byte} (h : fetchByte s k u = .ok b) :
    b = s.srcByte (k / 8) := by
  unfold fetchByte at h
  split at h
  · obtain ⟨_, rfl⟩ := busRead_eq_ok h
    exact unpacked_src hu hapart hk
  · rename_i hne
    simp only [Except.ok.injEq] at h
    rw [← h, hu.cur hne]

theorem unpacked_keep {s : State} {k : Nat} {xs : List Byte} {u : Unpacker} (hu : Unpacked s k xs u) (acc : Code) :
    Unpacked s (k + 1) xs { cur := s.srcByte (k / 8), acc := acc, j := u.j, mem := u.mem } := by
  obtain ⟨_, hj, hfit, hwf, hbytes, hout⟩ := hu
  refine ⟨fun h => ?_, hj, hfit, hwf, hbytes, hout⟩
  rw [show (k + 1) / 8 = k / 8 by omega]

theorem unpacked_write {s : State} {k : Nat} {xs : List Byte} {u : Unpacker} (hu : Unpacked s k xs u) (x : Byte)
    (hj : u.j < s.dstCap.toNat) :
    Unpacked s (k + 1) (xs ++ [x])
      { cur := s.srcByte (k / 8), acc := [], j := u.j + 1, mem := memWrite u.mem (s.dst u.j).toNat x } := by
  obtain ⟨_, hj', hfit, hwf, hbytes, hout⟩ := hu
  rw [hj'] at hj
  refine ⟨fun h => ?_, by simp [hj'], by simp; omega, memWrite_wf hwf (s.dst _).isLt _, ?_, ?_⟩
  · rw [show (k + 1) / 8 = k / 8 by omega]
  · intro i hi
    simp only [List.length_append, List.length_singleton] at hi
    simp only [memRead_memWrite hwf, hj']
    by_cases he : i = xs.length
    · subst he; simp
    · rw [if_neg fun h => he (dst_inj s (by omega) (by omega) h), hbytes i (by omega),
        List.getD_append _ _ _ _ (by omega)]
  · intro a ha
    simp only [memRead_memWrite hwf, hj']
    rw [if_neg (ha _ (by simp)), hout a fun j hj => ha j (by simp; omega)]

/-! ### Running -/

/-- Bits that resolve to nothing go into the accumulator (45_decode.md R294). -/
theorem decodeLoop_acc {s : State} (hapart : s.WindowsApart) {k n : Nat} {xs : List Byte} {cs : Code} {u : Unpacker}
    (hu : Unpacked s k xs u) (hin : k + cs.length ≤ 8 * s.srcLen.toNat) (hr : s.ReadableTo (ceil8 (k + cs.length)))
    (hbits : ∀ i, i < cs.length → s.srcBit (k + i) = cs.getD i false)
    (hno : ∀ m, m < cs.length → matchCode s.entries (u.acc ++ cs.take (m + 1)) = none ∧ u.acc.length + (m + 1) ≠ s.maxlen) :
    ∃ u', decodeLoop s s.entries s.maxlen (cs.length + n) k u = decodeLoop s s.entries s.maxlen n (k + cs.length) u' ∧
      Unpacked s (k + cs.length) xs u' ∧ u'.acc = u.acc ++ cs := by
  induction cs generalizing k u with
  | nil => exact ⟨u, by simp, by simpa using hu, by simp⟩
  | cons c cs ih =>
    simp only [List.length_cons] at hin hr hbits hno
    have hb := hbits 0 (by omega)
    simp only [Nat.add_zero, List.getD_cons_zero, State.srcBit] at hb
    obtain ⟨h1, h2⟩ := hno 0 (by omega)
    simp only [Nat.zero_add, List.take_succ_cons, List.take_zero] at h1 h2
    obtain ⟨u', h3, h4, h5⟩ := ih (k := k + 1) (u := { cur := s.srcByte (k / 8), acc := u.acc ++ [c], j := u.j, mem := u.mem })
      (unpacked_keep hu _) (by omega) (fun i hi => hr i (by rw [show k + (cs.length + 1) = k + 1 + cs.length by omega]; exact hi))
      (fun i hi => by
        have := hbits (i + 1) (by omega)
        rw [List.getD_cons_succ] at this
        rw [← this, show k + 1 + i = k + (i + 1) by omega])
      (fun m hm => by
        obtain ⟨h6, h7⟩ := hno (m + 1) (by omega)
        refine ⟨by simpa using h6, by simp; omega⟩)
    refine ⟨u', ?_, ?_, ?_⟩
    · rw [List.length_cons, show cs.length + 1 + n = (cs.length + n) + 1 by omega, decodeLoop,
        fetchByte_ok hu hapart (by omega) (hr _ (by unfold ceil8; omega))]
      simp only [takeBit, hb, h1, List.length_append, List.length_singleton, h2, if_false]
      rw [h3, show k + 1 + cs.length = k + (cs.length + 1) by omega]
    · rw [List.length_cons, show k + (cs.length + 1) = k + 1 + cs.length by omega]; exact h4
    · simpa using h5

/-- The bits of one code emit its symbol (45_decode.md R290, R294). -/
theorem decodeLoop_symbol {s : State} (hp : PrefixFree s.code) (hapart : s.WindowsApart) {k n : Nat} {xs : List Byte}
    {x : Byte} {u : Unpacker} (hu : Unpacked s k xs u) (hacc : u.acc = []) (hx : s.codeOf x ≠ [])
    (hin : k + (s.codeOf x).length ≤ 8 * s.srcLen.toNat) (hr : s.ReadableTo (ceil8 (k + (s.codeOf x).length)))
    (hbits : ∀ i, i < (s.codeOf x).length → s.srcBit (k + i) = (s.codeOf x).getD i false)
    (hfit : xs.length < s.dstCap.toNat) (hw : s.platform.busOk .write (s.dst xs.length) = true) :
    ∃ u', decodeLoop s s.entries s.maxlen ((s.codeOf x).length + n) k u =
        decodeLoop s s.entries s.maxlen n (k + (s.codeOf x).length) u' ∧
      Unpacked s (k + (s.codeOf x).length) (xs ++ [x]) u' ∧ u'.acc = [] := by
  obtain ⟨cs, b, hc⟩ : ∃ cs b, s.codeOf x = cs ++ [b] := ⟨_, _, (List.dropLast_append_getLast hx).symm⟩
  have hmax := codeLen_le_maxlen s x
  simp only [State.codeLen] at hmax
  have hlen : (s.codeOf x).length = cs.length + 1 := by rw [hc]; simp
  obtain ⟨u₁, h1, h2, h3⟩ := decodeLoop_acc hapart (n := 1 + n) (cs := cs) hu (by omega)
    (fun i hi => hr i (by unfold ceil8 at hi ⊢; omega))
    (fun i hi => by rw [hbits i (by omega), hc, List.getD_append _ _ _ _ hi])
    (fun m hm => by
      rw [hacc]
      refine ⟨matchCode_proper hp (x := x) (rest := cs.drop (m + 1) ++ [b]) ?_ (by simp), by simp; omega⟩
      rw [hc, List.nil_append, ← List.append_assoc, List.take_append_drop])
  have hb : s.srcBit (k + cs.length) = b := by
    rw [hbits cs.length (by omega), hc]
    simp
  refine ⟨{ cur := s.srcByte ((k + cs.length) / 8), acc := [], j := u₁.j + 1, mem := memWrite u₁.mem (s.dst u₁.j).toNat x },
    ?_, ?_, rfl⟩
  · rw [hlen, show cs.length + 1 + n = cs.length + (1 + n) by omega, h1, show 1 + n = n + 1 by omega, decodeLoop,
      fetchByte_ok h2 hapart (by omega) (hr _ (by rw [hlen]; unfold ceil8; omega))]
    simp only [State.srcBit] at hb
    simp only [takeBit, hb, h3, hacc, List.nil_append, ← hc, matchCode_code hp hx]
    rw [if_neg (by rw [h2.j]; omega)]
    simp only [h2.j, busWrite_ok hw]
    rw [Nat.add_assoc]
  · rw [hlen, ← Nat.add_assoc]
    exact unpacked_write h2 x (by rw [h2.j]; exact hfit)

/-- The codes of some symbols, one after the other, emit the symbols (45_decode.md R290, R300). -/
theorem decodeLoop_symbols {s : State} (hp : PrefixFree s.code) (hapart : s.WindowsApart) {k n : Nat} {xs ys : List Byte}
    {u : Unpacker} (hu : Unpacked s k xs u) (hacc : u.acc = []) (hy : ∀ y ∈ ys, s.codeOf y ≠ [])
    (hin : k + (codeBits s.code ys).length ≤ 8 * s.srcLen.toNat)
    (hr : s.ReadableTo (ceil8 (k + (codeBits s.code ys).length)))
    (hbits : ∀ i, i < (codeBits s.code ys).length → s.srcBit (k + i) = (codeBits s.code ys).getD i false)
    (hfit : xs.length + ys.length ≤ s.dstCap.toNat) (hw : s.WritableTo (xs.length + ys.length)) :
    ∃ u', decodeLoop s s.entries s.maxlen ((codeBits s.code ys).length + n) k u =
        decodeLoop s s.entries s.maxlen n (k + (codeBits s.code ys).length) u' ∧
      Unpacked s (k + (codeBits s.code ys).length) (xs ++ ys) u' ∧ u'.acc = [] := by
  induction ys generalizing k xs u with
  | nil => exact ⟨u, by simp [codeBits], by simpa [codeBits] using hu, hacc⟩
  | cons y ys ih =>
    rw [codeBits_cons, List.length_append] at hin hr
    rw [codeBits_cons] at hbits
    simp only [List.length_append] at hbits
    simp only [List.length_cons] at hfit hw
    have hcode : s.codeOf y = tabGet s.code y := rfl
    rw [← hcode] at hin hr hbits
    obtain ⟨u₁, h1, h2, h3⟩ := decodeLoop_symbol hp hapart (n := (codeBits s.code ys).length + n) hu hacc (hy y (by simp))
      (by omega) (fun i hi => hr i (by unfold ceil8 at hi ⊢; omega))
      (fun i hi => by rw [hbits i (by omega), List.getD_append _ _ _ _ hi]) (by omega) (hw _ (by omega))
    obtain ⟨u₂, h4, h5, h6⟩ := ih h2 h3 (fun z hz => hy z (by simp [hz])) (by omega)
      (fun i hi => hr i (by rw [← Nat.add_assoc]; exact hi))
      (fun i hi => by
        rw [Nat.add_assoc, hbits _ (by omega), List.getD_append_right _ _ _ _ (by omega), Nat.add_sub_cancel_left])
      (by simp; omega) (fun j hj => hw j (by simp at hj; omega))
    refine ⟨u₂, ?_, ?_, h6⟩
    · rw [codeBits_cons, List.length_append, ← hcode, Nat.add_assoc, h1, h4, Nat.add_assoc]
    · rw [codeBits_cons, List.length_append, ← hcode, ← Nat.add_assoc]
      simpa using h5

/-- What one bit does (45_decode.md R294). -/
theorem takeBit_eq_ok {s : State} {k : Nat} {xs : List Byte} {u u' : Unpacker} {bit : Bool} (hu : Unpacked s k xs u)
    (h : takeBit s s.entries s.maxlen bit (s.srcByte (k / 8)) u = .ok u') :
    ∃ ys, Unpacked s (k + 1) (xs ++ ys) u' ∧ u.acc ++ [bit] = codeBits s.code ys ++ u'.acc ∧
      ∀ y ∈ ys, s.codeOf y ≠ [] := by
  unfold takeBit at h
  split at h
  · rename_i x hx
    obtain ⟨h1, h2⟩ := matchCode_entries_eq_some hx
    split at h
    · simp at h
    · split at h
      · rename_i hj m hm
        obtain ⟨_, rfl⟩ := busWrite_eq_ok hm
        simp only [Except.ok.injEq] at h
        subst h
        refine ⟨[x], unpacked_write hu x (by omega), ?_, ?_⟩
        · simp only [codeBits, List.flatMap_cons, List.flatMap_nil, List.append_nil]
          exact h1.symm
        · intro y hy
          rw [List.mem_singleton.mp hy, h1]
          exact h2
      · simp at h
  · split at h
    · simp at h
    · simp only [Except.ok.injEq] at h
      subst h
      exact ⟨[], by simpa using unpacked_keep hu _, by simp [codeBits], by simp⟩

/-- What the loop does when it does not stop: the bits it takes are the codes of what it writes, then the
accumulator (45_decode.md R290). -/
theorem decodeLoop_eq_ok {s : State} (hapart : s.WindowsApart) {k n : Nat} {xs : List Byte} {u u' : Unpacker}
    (hu : Unpacked s k xs u) (hin : k + n ≤ 8 * s.srcLen.toNat) (h : decodeLoop s s.entries s.maxlen n k u = .ok u') :
    ∃ ys, Unpacked s (k + n) (xs ++ ys) u' ∧
      u.acc ++ (List.range n).map (fun i => s.srcBit (k + i)) = codeBits s.code ys ++ u'.acc ∧
      ∀ y ∈ ys, s.codeOf y ≠ [] := by
  induction n generalizing k xs u with
  | zero =>
    simp only [decodeLoop, Except.ok.injEq] at h
    subst h
    exact ⟨[], by simpa using hu, by simp [codeBits], by simp⟩
  | succ n ih =>
    simp only [decodeLoop] at h
    split at h
    · simp at h
    · rename_i cur hcur
      obtain rfl := fetchByte_eq_ok hu hapart (by omega) hcur
      split at h
      · simp at h
      · rename_i u₁ hu₁
        obtain ⟨ys, h1, h2, h3⟩ := takeBit_eq_ok hu hu₁
        obtain ⟨zs, h4, h5, h6⟩ := ih h1 (by omega) h
        refine ⟨ys ++ zs, ?_, ?_, ?_⟩
        · rw [show k + (n + 1) = k + 1 + n by omega, ← List.append_assoc]; exact h4
        · rw [List.range_succ_eq_map, List.map_cons, List.map_map, Nat.add_zero]
          have hf : ((fun i => s.srcBit (k + i)) ∘ Nat.succ) = fun i => s.srcBit (k + 1 + i) := by
            funext i; simp only [Function.comp]; congr 1; omega
          rw [hf, show u.acc ++ s.srcBit k :: List.map (fun i => s.srcBit (k + 1 + i)) (List.range n)
            = (u.acc ++ [s.srcBit k]) ++ List.map (fun i => s.srcBit (k + 1 + i)) (List.range n) by simp]
          rw [show u.acc ++ [s.srcBit k] = codeBits s.code ys ++ u₁.acc from h2, List.append_assoc, h5]
          simp [codeBits]
        · intro y hy
          rcases List.mem_append.mp hy with hy | hy
          · exact h3 y hy
          · exact h6 y hy

/-- Why DECODE can stop after its two checks (60_exceptions.md R314). -/
def UnpackStop (s : State) (stop : Stop) : Prop :=
  (∃ e info, stop = .err e info ∧ (e = .truncatedStream ∨ e = .dstOverflow ∨ e = .busError)) ∨
    DeviceStop s stop

theorem takeBit_error {s : State} {es : List (Byte × Code)} {maxLen : Nat} {bit : Bool} {cur : Byte} {u : Unpacker}
    {stop : Stop} (h : takeBit s es maxLen bit cur u = .error stop) : UnpackStop s stop := by
  unfold takeBit at h
  split at h
  · split at h
    · simp only [Except.error.injEq] at h; subst h
      exact .inl ⟨_, _, rfl, by simp⟩
    · split at h
      · simp at h
      · rename_i st hst
        simp only [Except.error.injEq] at h; subst h
        exact .inl ⟨_, _, (busWrite_eq_error hst).1, by simp⟩
  · split at h
    · simp only [Except.error.injEq] at h; subst h
      exact .inl ⟨_, _, rfl, by simp⟩
    · simp at h

theorem decodeLoop_error {s : State} {es : List (Byte × Code)} {maxLen n k : Nat} {u : Unpacker} {stop : Stop}
    (hin : k + n ≤ 8 * s.srcLen.toNat) (h : decodeLoop s es maxLen n k u = .error stop) : UnpackStop s stop := by
  induction n generalizing k u with
  | zero => simp [decodeLoop] at h
  | succ n ih =>
    simp only [decodeLoop] at h
    split at h
    · rename_i st hst
      simp only [Except.error.injEq] at h; subst h
      unfold fetchByte at hst
      split at hst
      · rcases busRead_eq_error hst with ⟨rfl, _⟩ | ⟨rfl, hd⟩
        · exact .inl ⟨_, _, rfl, by simp⟩
        · exact .inr ⟨k / 8, by omega, rfl, hd⟩
      · simp at hst
    · split at h
      · rename_i st hst
        simp only [Except.error.injEq] at h; subst h
        exact takeBit_error hst
      · exact ih (by omega) h

/-! ### The whole unpacking -/

theorem Unpacked.stored {s : State} {k : Nat} {xs : List Byte} {u : Unpacker} (h : Unpacked s k xs u) :
    Stored s xs u.mem := ⟨h.fits, h.wf, h.bytes, h.outside⟩

/-- DECODE succeeds on the codes of some symbols and writes the symbols (45_decode.md R290, R300). -/
theorem unpackWindow_ok {s : State} (hm : Memory.wf s.mem = true) (hp : PrefixFree s.code) (hapart : s.WindowsApart)
    {xs : List Byte} (hx : ∀ x ∈ xs, s.codeOf x ≠ []) (hcount : s.bitcnt.toNat = (codeBits s.code xs).length)
    (hin : s.bitcnt.toNat ≤ 8 * s.srcLen.toNat) (hr : s.ReadableTo (ceil8 s.bitcnt.toNat))
    (hbits : ∀ k, k < s.bitcnt.toNat → s.srcBit k = (codeBits s.code xs).getD k false)
    (hfit : xs.length ≤ s.dstCap.toNat) (hw : s.WritableTo xs.length) :
    ∃ u, unpackWindow s = .ok u ∧ u.j = xs.length ∧ Stored s xs u.mem := by
  rw [hcount] at hin hr hbits
  obtain ⟨u, h1, h2, h3⟩ := decodeLoop_symbols hp hapart (n := 0) (ys := xs) (unpacked_start s hm) rfl hx
    (by simpa using hin) (by simpa using hr) (by simpa using hbits) (by simpa using hfit) (by simpa using hw)
  refine ⟨u, ?_, by simpa using h2.j, by simpa using h2.stored⟩
  unfold unpackWindow
  rw [hcount, show (codeBits s.code xs).length = (codeBits s.code xs).length + 0 by rfl, h1]
  simp [decodeLoop, h3]

/-- What DECODE leaves when it succeeds: the BITCNT bits are exactly the codes of the symbols it
wrote (45_decode.md R290, R296). -/
theorem unpackWindow_eq_ok {s : State} (hm : Memory.wf s.mem = true) (hapart : s.WindowsApart)
    (hin : s.bitcnt.toNat ≤ 8 * s.srcLen.toNat) {u : Unpacker} (h : unpackWindow s = .ok u) :
    ∃ xs, u.j = xs.length ∧ Stored s xs u.mem ∧ (∀ x ∈ xs, s.codeOf x ≠ []) ∧
      (List.range s.bitcnt.toNat).map s.srcBit = codeBits s.code xs := by
  unfold unpackWindow at h
  split at h
  · simp at h
  · rename_i v hv
    split at h
    · rename_i hacc
      simp only [Except.ok.injEq] at h
      subst h
      obtain ⟨ys, h1, h2, h3⟩ := decodeLoop_eq_ok hapart (unpacked_start s hm) (by omega) hv
      simp only [List.nil_append, Nat.zero_add] at h1 h2
      refine ⟨ys, h1.j, h1.stored, h3, ?_⟩
      rw [hacc, List.append_nil] at h2
      exact h2
    · simp at h

/-- Codes of symbols and then bits that resolve to nothing: MAXLEN of them stop DECODE at once, fewer at the
end (45_decode.md R296, R297). -/
theorem unpackWindow_truncated {s : State} (hm : Memory.wf s.mem = true) (hp : PrefixFree s.code)
    (hapart : s.WindowsApart) {xs : List Byte} {rest : Code} (hx : ∀ x ∈ xs, s.codeOf x ≠ []) (hne : rest ≠ [])
    (hno : ∀ m, m < rest.length → matchCode s.entries (rest.take (m + 1)) = none) (hlen : rest.length < s.maxlen)
    (hcount : s.bitcnt.toNat = (codeBits s.code xs).length + rest.length)
    (hin : s.bitcnt.toNat ≤ 8 * s.srcLen.toNat) (hr : s.ReadableTo (ceil8 s.bitcnt.toNat))
    (hbits : ∀ k, k < s.bitcnt.toNat → s.srcBit k = (codeBits s.code xs ++ rest).getD k false)
    (hfit : xs.length ≤ s.dstCap.toNat) (hw : s.WritableTo xs.length) :
    unpackWindow s = .error (.err .truncatedStream 3#32) := by
  rw [hcount] at hin hr hbits
  obtain ⟨u, h1, h2, h3⟩ := decodeLoop_symbols hp hapart (n := rest.length + 0) (ys := xs) (unpacked_start s hm) rfl hx
    (by omega) (fun i hi => hr i (by unfold ceil8 at hi ⊢; omega))
    (fun i hi => by rw [Nat.zero_add, hbits i (by omega), List.getD_append _ _ _ _ hi]) (by simpa using hfit)
    (by simpa using hw)
  rw [Nat.zero_add] at h1 h2
  obtain ⟨v, h4, _, h6⟩ := decodeLoop_acc hapart (n := 0) (cs := rest) h2 (by omega) hr
    (fun i hi => by rw [hbits _ (by omega), List.getD_append_right _ _ _ _ (by omega), Nat.add_sub_cancel_left])
    (fun m hm => ⟨by simpa [h3] using hno m hm, by simp [h3]; omega⟩)
  unfold unpackWindow
  rw [hcount, show (codeBits s.code xs).length + rest.length = (codeBits s.code xs).length + (rest.length + 0) by rfl,
    h1, h4]
  simp [decodeLoop, h6, h3, hne]

/-- See `unpackWindow_truncated`. -/
theorem unpackWindow_unresolved {s : State} (hm : Memory.wf s.mem = true) (hp : PrefixFree s.code)
    (hapart : s.WindowsApart) {xs : List Byte} {rest : Code} (hx : ∀ x ∈ xs, s.codeOf x ≠ []) (hne : rest ≠ [])
    (hno : ∀ m, m < rest.length → matchCode s.entries (rest.take (m + 1)) = none) (hlen : rest.length = s.maxlen)
    (hcount : (codeBits s.code xs).length + rest.length ≤ s.bitcnt.toNat)
    (hin : s.bitcnt.toNat ≤ 8 * s.srcLen.toNat) (hr : s.ReadableTo (ceil8 ((codeBits s.code xs).length + rest.length)))
    (hbits : ∀ k, k < (codeBits s.code xs ++ rest).length → s.srcBit k = (codeBits s.code xs ++ rest).getD k false)
    (hfit : xs.length ≤ s.dstCap.toNat) (hw : s.WritableTo xs.length) :
    unpackWindow s = .error (.err .truncatedStream 2#32) := by
  simp only [List.length_append] at hbits
  obtain ⟨cs, b, hc⟩ : ∃ cs b, rest = cs ++ [b] := ⟨_, _, (List.dropLast_append_getLast hne).symm⟩
  have hcl : rest.length = cs.length + 1 := by rw [hc]; simp
  obtain ⟨n, hn⟩ : ∃ n, s.bitcnt.toNat = (codeBits s.code xs).length + (cs.length + (n + 1)) :=
    ⟨s.bitcnt.toNat - ((codeBits s.code xs).length + (cs.length + 1)), by omega⟩
  obtain ⟨u, h1, h2, h3⟩ := decodeLoop_symbols hp hapart (n := cs.length + (n + 1)) (ys := xs) (unpacked_start s hm) rfl hx
    (by omega) (fun i hi => hr i (by unfold ceil8 at hi ⊢; omega))
    (fun i hi => by rw [Nat.zero_add, hbits i (by omega), List.getD_append _ _ _ _ hi]) (by simpa using hfit)
    (by simpa using hw)
  rw [Nat.zero_add] at h1 h2
  obtain ⟨v, h4, h5, h6⟩ := decodeLoop_acc hapart (n := n + 1) (cs := cs) h2 (by omega)
    (fun i hi => hr i (by unfold ceil8 at hi ⊢; omega))
    (fun i hi => by
      rw [hbits _ (by omega), List.getD_append_right _ _ _ _ (by omega), Nat.add_sub_cancel_left, hc,
        List.getD_append _ _ _ _ hi])
    (fun m hm => by
      refine ⟨?_, by simp [h3]; omega⟩
      have := hno m (by omega)
      rw [hc, List.take_append_of_le_length (by omega)] at this
      simpa [h3] using this)
  have hb : s.srcBit ((codeBits s.code xs).length + cs.length) = b := by
    rw [hbits _ (by omega), List.getD_append_right _ _ _ _ (by omega), Nat.add_sub_cancel_left, hc]
    simp
  have hlast := hno cs.length (by omega)
  rw [List.take_of_length_le (by omega)] at hlast
  simp only [State.srcBit] at hb
  unfold unpackWindow
  rw [hn, h1, h4, decodeLoop, fetchByte_ok h5 hapart (by omega) (hr _ (by unfold ceil8; omega))]
  simp only [takeBit, hb, h6, h3, List.nil_append, ← hc, hlast, hlen, if_true]

/-- A symbol the window has no room for, or whose byte the platform refuses (45_decode.md R297; 60_exceptions.md R312). -/
theorem unpackWindow_writeStop {s : State} (hm : Memory.wf s.mem = true) (hp : PrefixFree s.code)
    (hapart : s.WindowsApart) {xs : List Byte} {x : Byte} (hx : ∀ y ∈ xs ++ [x], s.codeOf y ≠ [])
    (hcount : (codeBits s.code (xs ++ [x])).length ≤ s.bitcnt.toNat)
    (hin : s.bitcnt.toNat ≤ 8 * s.srcLen.toNat)
    (hr : s.ReadableTo (ceil8 (codeBits s.code (xs ++ [x])).length))
    (hbits : ∀ k, k < (codeBits s.code (xs ++ [x])).length → s.srcBit k = (codeBits s.code (xs ++ [x])).getD k false)
    (hfit : xs.length ≤ s.dstCap.toNat) (hw : s.WritableTo xs.length) :
    (xs.length = s.dstCap.toNat → unpackWindow s = .error (.err .dstOverflow 0#32)) ∧
    (xs.length < s.dstCap.toNat → s.platform.busOk .write (s.dst xs.length) = false →
      unpackWindow s = .error (.err .busError (s.dst xs.length))) := by
  have hcb : codeBits s.code (xs ++ [x]) = codeBits s.code xs ++ s.codeOf x := by simp [codeBits, State.codeOf]
  rw [hcb] at hcount hbits hr
  simp only [List.length_append] at hcount hbits hr
  have hne := hx x (by simp)
  obtain ⟨cs, b, hc⟩ : ∃ cs b, s.codeOf x = cs ++ [b] := ⟨_, _, (List.dropLast_append_getLast hne).symm⟩
  have hcl : (s.codeOf x).length = cs.length + 1 := by rw [hc]; simp
  have hmax := codeLen_le_maxlen s x
  simp only [State.codeLen] at hmax
  obtain ⟨n, hn⟩ : ∃ n, s.bitcnt.toNat = (codeBits s.code xs).length + (cs.length + (n + 1)) :=
    ⟨s.bitcnt.toNat - ((codeBits s.code xs).length + (cs.length + 1)), by omega⟩
  obtain ⟨u, h1, h2, h3⟩ := decodeLoop_symbols hp hapart (n := cs.length + (n + 1)) (ys := xs) (unpacked_start s hm) rfl
    (fun y hy => hx y (by simp [hy]))
    (by omega) (fun i hi => hr i (by unfold ceil8 at hi ⊢; omega))
    (fun i hi => by rw [Nat.zero_add, hbits i (by omega), List.getD_append _ _ _ _ hi]) (by simp; omega)
    (by simpa using hw)
  rw [Nat.zero_add] at h1 h2
  rw [List.nil_append] at h2
  obtain ⟨v, h4, h5, h6⟩ := decodeLoop_acc hapart (n := n + 1) (cs := cs) h2 (by omega)
    (fun i hi => hr i (by unfold ceil8 at hi ⊢; omega))
    (fun i hi => by
      rw [hbits _ (by omega), List.getD_append_right _ _ _ _ (by omega), Nat.add_sub_cancel_left, hc,
        List.getD_append _ _ _ _ hi])
    (fun m hm => by
      refine ⟨?_, by simp [h3]; omega⟩
      rw [h3, List.nil_append]
      refine matchCode_proper hp (x := x) (rest := cs.drop (m + 1) ++ [b]) ?_ (by simp)
      rw [hc, ← List.append_assoc, List.take_append_drop])
  have hb : s.srcBit ((codeBits s.code xs).length + cs.length) = b := by
    rw [hbits _ (by omega), List.getD_append_right _ _ _ _ (by omega), Nat.add_sub_cancel_left, hc]
    simp
  simp only [State.srcBit] at hb
  unfold unpackWindow
  rw [hn, h1, h4, decodeLoop, fetchByte_ok h5 hapart (by omega) (hr _ (by unfold ceil8; omega))]
  simp only [takeBit, hb, h6, h3, List.nil_append, ← hc, matchCode_code hp hne]
  refine ⟨fun hfull => ?_, fun hroom hbad => ?_⟩
  · rw [if_pos (by rw [h5.j]; omega)]
  · rw [if_neg (by rw [h5.j]; omega), h5.j, busWrite_busError hbad]

/-- A payload byte that the master does not get, behind codes of symbols and bits that resolve to nothing so far,
stops DECODE (60_exceptions.md R312, R314). -/
theorem unpackWindow_readStop {s : State} (hm : Memory.wf s.mem = true) (hp : PrefixFree s.code)
    (hapart : s.WindowsApart) {xs : List Byte} {rest : Code} {i : Nat} {stop : Stop} (hx : ∀ x ∈ xs, s.codeOf x ≠ [])
    (hno : ∀ m, m < rest.length → matchCode s.entries (rest.take (m + 1)) = none) (hlen : rest.length < s.maxlen)
    (hi : (codeBits s.code xs).length + rest.length = 8 * i) (hcount : 8 * i < s.bitcnt.toNat)
    (hin : s.bitcnt.toNat ≤ 8 * s.srcLen.toNat) (hr : s.ReadableTo i)
    (hbits : ∀ k, k < 8 * i → s.srcBit k = (codeBits s.code xs ++ rest).getD k false)
    (hfit : xs.length ≤ s.dstCap.toNat) (hw : s.WritableTo xs.length)
    (hstop : ∀ m, busRead s.platform m (s.src i) = .error stop) : unpackWindow s = .error stop := by
  obtain ⟨n, hn⟩ : ∃ n, s.bitcnt.toNat = (codeBits s.code xs).length + (rest.length + (n + 1)) :=
    ⟨s.bitcnt.toNat - 8 * i - 1, by omega⟩
  obtain ⟨u, h1, h2, h3⟩ := decodeLoop_symbols hp hapart (n := rest.length + (n + 1)) (ys := xs) (unpacked_start s hm) rfl hx
    (by omega) (fun l hl => hr l (by unfold ceil8 at hl; omega))
    (fun l hl => by rw [Nat.zero_add, hbits l (by omega), List.getD_append _ _ _ _ hl]) (by simpa using hfit)
    (by simpa using hw)
  rw [Nat.zero_add] at h1 h2
  obtain ⟨v, h4, _, _⟩ := decodeLoop_acc hapart (n := n + 1) (cs := rest) h2 (by omega)
    (fun l hl => hr l (by unfold ceil8 at hl; omega))
    (fun l hl => by rw [hbits _ (by omega), List.getD_append_right _ _ _ _ (by omega), Nat.add_sub_cancel_left])
    (fun m hm => ⟨by simpa [h3] using hno m hm, by simp [h3]; omega⟩)
  unfold unpackWindow
  rw [hn, h1, h4, decodeLoop, fetchByte, if_pos (by omega),
    show ((codeBits s.code xs).length + rest.length) / 8 = i by omega, hstop]

theorem unpackWindow_error {s : State} {stop : Stop} (hin : s.bitcnt.toNat ≤ 8 * s.srcLen.toNat)
    (h : unpackWindow s = .error stop) : UnpackStop s stop := by
  unfold unpackWindow at h
  split at h
  · rename_i st hst
    simp only [Except.error.injEq] at h; subst h
    exact decodeLoop_error (by omega) hst
  · split at h
    · simp at h
    · simp only [Except.error.injEq] at h; subst h
      exact .inl ⟨_, _, rfl, by simp⟩

end Sys2Proof.Machine
end

