-- ==== Sys2Proof/Laws/Commands.lean ====
section
/-! SUPPORT. Everything each meaning can do: if it answers a next state, then which one. -/

namespace Sys2Proof.Machine

/-! ### A command that ends early -/

theorem stopCommand_next {stop : Stop} {s t : State} (h : stopCommand stop s = .next t) :
    ∃ e info, stop = .err e info ∧ t = raiseError e info s := by
  cases stop with
  | err e info =>
    simp only [stopCommand, Host.Outcome.next.injEq] at h
    exact ⟨e, info, rfl, h.symm⟩
  | device a => simp [stopCommand] at h

/-- A stop that is no error is a device read, and a fault. -/
theorem stopCommand_fault {stop : Stop} {s : State} {f : Fault} (h : stopCommand stop s = .fault f) :
    ∃ a, stop = .device a ∧ f = .sourceDevice a := by
  cases stop with
  | err e info => simp [stopCommand] at h
  | device a =>
    simp only [stopCommand, Host.Outcome.fault.injEq] at h
    exact ⟨a, rfl, h.symm⟩

theorem stopCommand_ne_refused {stop : Stop} {s : State} {r : Refusal} : stopCommand stop s ≠ .refused r := by
  cases stop <;> simp [stopCommand]

/-! ### The commands without windows -/

theorem execBuildTree_next {s t : State} (h : execBuildTree s = .next t) :
    (s.nsym = 0 ∧ t = raiseError .emptyAlphabet 0#32 s) ∨
    (s.nsym ≠ 0 ∧ ∃ tr, buildTree s.freq = some tr ∧ TreeOf s.freq tr ∧
      t = complete { s with tree := some tr, outLen := 0#32 }) := by
  unfold execBuildTree at h
  split at h
  · rename_i h0
    simp only [Host.Outcome.next.injEq] at h
    exact .inl ⟨h0, h.symm⟩
  · rename_i h0
    have hc : countedSymbols s.freq ≠ [] := fun hc => h0 (by
      have := congrArg List.length hc
      simpa [countedSymbols, nsym_eq, State.freqOf] using this)
    obtain ⟨tr, h1, h2, _⟩ := buildTree_spec s.freq hc
    simp only [Host.Outcome.next.injEq] at h
    exact .inr ⟨h0, tr, h1, h2, by rw [← h, h1]⟩

theorem execGenCodes_next {s t : State} (h : execGenCodes s = .next t) :
    (s.tree = none ∧ t = raiseError .noTree 0#32 s) ∨
    ∃ tr, s.tree = some tr ∧ t = complete { s with code := codesOf tr, tree := none, outLen := 0#32 } := by
  unfold execGenCodes at h
  split at h
  · rename_i h0
    simp only [Host.Outcome.next.injEq] at h
    exact .inl ⟨h0, h.symm⟩
  · rename_i tr h0
    simp only [Host.Outcome.next.injEq] at h
    exact .inr ⟨tr, h0, h.symm⟩

/-! ### COUNT -/

theorem execCount_next {s t : State} (h : execCount s = .next t) :
    (Config.totalMax < s.total + s.srcLen.toNat ∧ t = raiseError .countOverflow 0#32 s) ∨
    (s.total + s.srcLen.toNat ≤ Config.totalMax ∧
      t = complete { s with tree := none, freq := countBytes s.freq s.srcBytes, outLen := 0#32 }) ∨
    ∃ k, k < s.srcLen.toNat ∧ s.total + s.srcLen.toNat ≤ Config.totalMax ∧
      s.platform.busOk .read (s.src k) = false ∧
      t = raiseError .busError (s.src k) { s with tree := none, freq := countBytes s.freq (srcSlice s 0 k) } := by
  unfold execCount at h
  split at h
  · rename_i hb
    simp only [Host.Outcome.next.injEq] at h
    exact .inl ⟨hb, h.symm⟩
  · rename_i hb
    right
    obtain ⟨k, hk, hok, ⟨rfl, hr⟩ | ⟨hlt, stop, he, hr⟩⟩ := countLoop_spec s s.srcLen.toNat 0 s.freq
    · left
      rw [hr] at h
      simp only [Host.Outcome.next.injEq] at h
      exact ⟨by omega, by rw [srcBytes_eq, h]⟩
    · right
      rw [hr] at h
      obtain ⟨e, info, rfl, rfl⟩ := stopCommand_next h
      simp only [Nat.zero_add] at he
      rcases busRead_eq_error he with ⟨hs, h1⟩ | ⟨hs, _⟩
      · simp only [Stop.err.injEq] at hs
        obtain ⟨rfl, rfl⟩ := hs
        exact ⟨k, hlt, by omega, h1, rfl⟩
      · simp at hs

/-! ### ENCODE -/

theorem execEncode_next {s t : State} (hm : Memory.wf s.mem = true) (h : execEncode s = .next t) :
    s.WindowsApart ∧
    ((s.tabNsym = 0 ∧ t = raiseError .noTable 0#32 (freeDst s)) ∨
     (s.tabNsym ≠ 0 ∧ ∃ m, Stored s (pack (codeBits s.code s.srcBytes)) m ∧ (∀ x ∈ s.srcBytes, s.codeOf x ≠ []) ∧
        t = complete
          { s with
            mem := m
            bitcnt := BitVec.ofNat 64 (codeBits s.code s.srcBytes).length
            outLen := BitVec.ofNat 32 (ceil8 (codeBits s.code s.srcBytes).length) }) ∨
     (s.tabNsym ≠ 0 ∧ ∃ e info, (e = .unknownSymbol ∨ e = .dstOverflow ∨ e = .busError) ∧
        t = raiseError e info (freeDst s))) := by
  unfold execEncode at h
  split at h
  · simp at h
  · rename_i hov
    have hapart := (overlapHazard_encode s).mp (by simpa using hov)
    refine ⟨hapart, ?_⟩
    split at h
    · rename_i h0
      simp only [Host.Outcome.next.injEq] at h
      exact .inl ⟨h0, h.symm⟩
    · rename_i h0
      right
      split at h
      · rename_i p hp
        obtain ⟨h1, h2, h3⟩ := packWindow_payload hm hapart hp
        simp only [Host.Outcome.next.injEq] at h
        exact .inl ⟨h0, p.mem, h2.stored, h3, by rw [← h, h1]⟩
      · rename_i stop hstop
        obtain ⟨e, info, rfl, rfl⟩ := stopCommand_next h
        rcases packWindow_error hstop with ⟨e', info', he, hc⟩ | ⟨_, _, he, _⟩
        · simp only [Stop.err.injEq] at he
          obtain ⟨rfl, rfl⟩ := he
          exact .inr ⟨h0, _, _, hc, rfl⟩
        · simp at he

/-! ### SERIALIZE -/

theorem execSerialize_next {s t : State} (hm : Memory.wf s.mem = true) (h : execSerialize s = .next t) :
    (s.tabNsym = 0 ∧ t = raiseError .noTable 0#32 (freeDst s)) ∨
    (s.tabNsym ≠ 0 ∧ s.dstCap.toNat < s.hdrSize ∧ t = raiseError .dstOverflow 0#32 (freeDst s)) ∨
    (s.tabNsym ≠ 0 ∧ s.hdrSize ≤ s.dstCap.toNat ∧
      ∃ m, Stored s (headerBytes s.entries s.bitcnt.toNat) m ∧
        t = complete { s with mem := m, outLen := BitVec.ofNat 32 s.hdrSize }) ∨
    (s.tabNsym ≠ 0 ∧ s.hdrSize ≤ s.dstCap.toNat ∧ ∃ info, t = raiseError .busError info (freeDst s)) := by
  unfold execSerialize at h
  split at h
  · rename_i h0
    simp only [Host.Outcome.next.injEq] at h
    exact .inl ⟨h0, h.symm⟩
  · rename_i h0
    right
    split at h
    · rename_i hc
      simp only [Host.Outcome.next.injEq] at h
      exact .inl ⟨h0, hc, h.symm⟩
    · rename_i hc
      right
      split at h
      · rename_i m hmm
        have hfit : 0 + (headerBytes s.entries s.bitcnt.toNat).length ≤ s.dstCap.toNat := by
          rw [← hdrSize_eq s h0]; omega
        obtain ⟨h1, h2, h3⟩ := emitBytes_eq_ok hm hfit hmm
        simp only [Host.Outcome.next.injEq] at h
        exact .inl ⟨h0, by omega, m,
          ⟨by omega, h1, by simpa using h2, fun a ha => h3 a fun k hk => by rw [Nat.zero_add]; exact ha k hk⟩, h.symm⟩
      · rename_i stop hstop
        obtain ⟨e, info, rfl, rfl⟩ := stopCommand_next h
        obtain ⟨a, he⟩ := emitBytes_error hstop
        simp only [Stop.err.injEq] at he
        obtain ⟨rfl, rfl⟩ := he
        exact .inr ⟨h0, by omega, _, rfl⟩

/-! ### PARSE -/

theorem execParse_next {s t : State} (h : execParse s = .next t) :
    (∃ hd, parseHeader s = .ok hd ∧
      t = complete
        { s with
          code := tableOf hd.entries
          bitcnt := BitVec.ofNat 64 hd.total
          hdrLen := BitVec.ofNat 32 hd.len
          outLen := 0#32 }) ∨
    ∃ e info, parseHeader s = .error (.err e info) ∧ (e = .headerParse ∨ e = .headerIntegrity ∨ e = .busError) ∧
      t = raiseError e info { s with code := emptyTable, hdrLen := 0#32 } := by
  unfold execParse at h
  split at h
  · rename_i hd hhd
    simp only [Host.Outcome.next.injEq] at h
    exact .inl ⟨hd, hhd, h.symm⟩
  · rename_i stop hstop
    obtain ⟨e, info, rfl, rfl⟩ := stopCommand_next h
    rcases parseHeader_parseStop hstop with ⟨e', info', he, hc⟩ | ⟨_, _, he, _⟩
    · simp only [Stop.err.injEq] at he
      obtain ⟨rfl, rfl⟩ := he
      exact .inr ⟨_, _, hstop, hc, rfl⟩
    · simp at he

/-! ### DECODE -/

theorem execDecode_next {s t : State} (hm : Memory.wf s.mem = true) (h : execDecode s = .next t) :
    s.WindowsApart ∧
    ((s.tabNsym = 0 ∧ t = raiseError .noTable 0#32 (freeDst s)) ∨
     (s.tabNsym ≠ 0 ∧ s.srcLen.toNat ≠ ceil8 s.bitcnt.toNat ∧ t = raiseError .truncatedStream 1#32 (freeDst s)) ∨
     (s.tabNsym ≠ 0 ∧ s.srcLen.toNat = ceil8 s.bitcnt.toNat ∧
        ∃ xs m, Stored s xs m ∧ (∀ x ∈ xs, s.codeOf x ≠ []) ∧
          (List.range s.bitcnt.toNat).map s.srcBit = codeBits s.code xs ∧
          t = complete { s with mem := m, outLen := BitVec.ofNat 32 xs.length }) ∨
     (s.tabNsym ≠ 0 ∧ s.srcLen.toNat = ceil8 s.bitcnt.toNat ∧
        ∃ e info, (e = .truncatedStream ∨ e = .dstOverflow ∨ e = .busError) ∧ t = raiseError e info (freeDst s))) := by
  unfold execDecode at h
  split at h
  · simp at h
  · rename_i hov
    have hapart := (overlapHazard_decode s).mp (by simpa using hov)
    refine ⟨hapart, ?_⟩
    split at h
    · rename_i h0
      simp only [Host.Outcome.next.injEq] at h
      exact .inl ⟨h0, h.symm⟩
    · rename_i h0
      right
      split at h
      · rename_i hl
        simp only [Host.Outcome.next.injEq] at h
        exact .inl ⟨h0, hl, h.symm⟩
      · rename_i hl
        have hl' : s.srcLen.toNat = ceil8 s.bitcnt.toNat := by omega
        right
        split at h
        · rename_i u hu
          obtain ⟨xs, h1, h2, h3, h4⟩ := unpackWindow_eq_ok hm hapart (by rw [hl']; unfold ceil8; omega) hu
          simp only [Host.Outcome.next.injEq] at h
          exact .inl ⟨h0, hl', xs, u.mem, h2, h3, h4, by rw [← h, h1]⟩
        · rename_i stop hstop
          obtain ⟨e, info, rfl, rfl⟩ := stopCommand_next h
          rcases unpackWindow_error (by simp only [ceil8] at hl'; omega) hstop with ⟨e', info', he, hc⟩ | ⟨_, _, he, _⟩
          · simp only [Stop.err.injEq] at he
            obtain ⟨rfl, rfl⟩ := he
            exact .inr ⟨h0, hl', _, _, hc, rfl⟩
          · simp at he

/-! ### When a command does not complete (20_memory.md R98, R105; 70_reset_and_hazards.md R363, R368) -/

/-- The fault of a command that reads a device in its source window (93_implementation_defined.md U7). -/
def DeviceFault (s : State) (f : Fault) : Prop :=
  ∃ k, k < s.srcLen.toNat ∧ f = .sourceDevice (s.src k) ∧ s.platform.isDevice (s.src k) = true

theorem deviceFault_of_stop {s : State} {stop : Stop} {a : Addr} {f : Fault} (hd : DeviceStop s stop)
    (hs : stop = .device a) (hf : f = .sourceDevice a) : DeviceFault s f := by
  obtain ⟨k, hk, rfl, h⟩ := hd
  simp only [Stop.device.injEq] at hs
  exact ⟨k, hk, by rw [hf, hs], h⟩

theorem exec_fault {i : Instr} {s : State} {f : Fault} (h : exec i s = .fault f) :
    (f = .windowOverlap ∧ overlapHazard i s = true) ∨ (readsSrc i = true ∧ DeviceFault s f) := by
  cases i <;> simp only [exec] at h
  case clear => simp [execClear] at h
  case count =>
    unfold execCount at h
    split at h
    · simp at h
    · obtain ⟨k, hk, hok, ⟨rfl, hr⟩ | ⟨hlt, stop, he, hr⟩⟩ := countLoop_spec s s.srcLen.toNat 0 s.freq
      · rw [hr] at h; simp at h
      · rw [hr] at h
        obtain ⟨a, hs, hf⟩ := stopCommand_fault h
        simp only [Nat.zero_add] at he
        rcases busRead_eq_error he with ⟨rfl, _⟩ | ⟨h1, h2⟩
        · simp at hs
        · exact .inr ⟨rfl, deviceFault_of_stop ⟨k, hlt, h1, h2⟩ hs hf⟩
  case buildTree => unfold execBuildTree at h; split at h <;> simp at h
  case genCodes => unfold execGenCodes at h; split at h <;> simp at h
  case encode =>
    unfold execEncode at h
    split at h
    · rename_i hov
      exact .inl ⟨by simpa using h.symm, hov⟩
    · split at h
      · simp at h
      · split at h
        · simp at h
        · rename_i stop hstop
          obtain ⟨a, hs, hf⟩ := stopCommand_fault h
          rcases packWindow_error hstop with ⟨_, _, rfl, _⟩ | hd
          · simp at hs
          · exact .inr ⟨rfl, deviceFault_of_stop hd hs hf⟩
  case serialize =>
    unfold execSerialize at h
    split at h
    · simp at h
    · split at h
      · simp at h
      · split at h
        · simp at h
        · rename_i stop hstop
          obtain ⟨a, hs, _⟩ := stopCommand_fault h
          obtain ⟨b, rfl⟩ := emitBytes_error hstop
          simp at hs
  case parse =>
    unfold execParse at h
    split at h
    · simp at h
    · rename_i stop hstop
      obtain ⟨a, hs, hf⟩ := stopCommand_fault h
      rcases parseHeader_parseStop hstop with ⟨_, _, rfl, _⟩ | hd
      · simp at hs
      · exact .inr ⟨rfl, deviceFault_of_stop hd hs hf⟩
  case decode =>
    unfold execDecode at h
    split at h
    · rename_i hov
      exact .inl ⟨by simpa using h.symm, hov⟩
    · split at h
      · simp at h
      · split at h
        · simp at h
        · rename_i hl
          split at h
          · simp at h
          · rename_i stop hstop
            obtain ⟨a, hs, hf⟩ := stopCommand_fault h
            rcases unpackWindow_error (by simp only [ceil8] at hl; omega) hstop with ⟨_, _, rfl, _⟩ | hd
            · simp at hs
            · exact .inr ⟨rfl, deviceFault_of_stop hd hs hf⟩

/-- No command is refused. -/
theorem exec_ne_refused {i : Instr} {s : State} {r : Refusal} : exec i s ≠ .refused r := by
  intro h
  cases i <;> simp only [exec] at h
  case clear => simp [execClear] at h
  case count =>
    unfold execCount at h
    split at h
    · simp at h
    · split at h
      · simp at h
      · exact stopCommand_ne_refused h
  case buildTree => unfold execBuildTree at h; split at h <;> simp at h
  case genCodes => unfold execGenCodes at h; split at h <;> simp at h
  case encode => unfold execEncode at h; (repeat' split at h) <;> first | exact stopCommand_ne_refused h | simp at h
  case serialize =>
    unfold execSerialize at h; (repeat' split at h) <;> first | exact stopCommand_ne_refused h | simp at h
  case parse => unfold execParse at h; (repeat' split at h) <;> first | exact stopCommand_ne_refused h | simp at h
  case decode => unfold execDecode at h; (repeat' split at h) <;> first | exact stopCommand_ne_refused h | simp at h

/-- A command without the overlap hazard, whose source window (if it reads one) is memory, completes
(40_command_protocol.md R171). -/
theorem exec_completes {i : Instr} {s : State} (hov : overlapHazard i s = false)
    (hsrc : readsSrc i = true → s.SourceIsMemory) : ∃ t, exec i s = .next t := by
  cases h : exec i s with
  | next t => exact ⟨t, rfl⟩
  | fault f =>
    rcases exec_fault h with ⟨_, h1⟩ | ⟨h1, k, hk, _, h2⟩
    · rw [hov] at h1; cases h1
    · rw [hsrc h1 k hk] at h2; cases h2
  | refused r => exact absurd h exec_ne_refused

end Sys2Proof.Machine
end

