-- ==== Sys2Proof/Laws/Isolation.lean ====
section
/-! SUPPORT. Two memories with the same source window: the commands run alike on both (20_memory.md R92). -/

namespace Sys2Proof.Machine

/-- Two memories that hold the same source window. -/
structure SameSource (s : State) (m₁ m₂ : Memory) : Prop where
  wf₁ : Memory.wf m₁ = true
  wf₂ : Memory.wf m₂ = true
  src : ∀ k, k < s.srcLen.toNat → memRead m₁ (s.src k).toNat = memRead m₂ (s.src k).toNat

/-- Both runs stop alike, or both go on with related progress. -/
inductive SameResult {α : Type} (R : α → α → Prop) : Except Stop α → Except Stop α → Prop where
  | ok {a b : α} (h : R a b) : SameResult R (.ok a) (.ok b)
  | error (stop : Stop) : SameResult R (.error stop) (.error stop)

theorem SameResult.eq_of_eq {α : Type} {r₁ r₂ : Except Stop α} (h : SameResult Eq r₁ r₂) : r₁ = r₂ := by
  cases h with
  | ok h => rw [h]
  | error => rfl

theorem busRead_same {s : State} {m₁ m₂ : Memory} (h : SameSource s m₁ m₂) {k : Nat} (hk : k < s.srcLen.toNat) :
    busRead s.platform m₁ (s.src k) = busRead s.platform m₂ (s.src k) := by
  unfold busRead
  rw [h.src k hk]

theorem busWrite_same {s : State} {m₁ m₂ : Memory} (h : SameSource s m₁ m₂) (j : Nat) (b : Byte) :
    SameResult (SameSource s) (busWrite s.platform m₁ (s.dst j) b) (busWrite s.platform m₂ (s.dst j) b) := by
  unfold busWrite
  split
  · refine .ok ⟨memWrite_wf h.wf₁ (s.dst j).isLt b, memWrite_wf h.wf₂ (s.dst j).isLt b, fun k hk => ?_⟩
    rw [memRead_memWrite h.wf₁, memRead_memWrite h.wf₂, h.src k hk]
  · exact .error _

/-! ### COUNT and PARSE only read -/

theorem countLoop_same {s : State} {m : Memory} (h : SameSource s s.mem m) {n i : Nat} (hin : i + n ≤ s.srcLen.toNat)
    (f : Vector Word 256) : countLoop { s with mem := m } n i f = countLoop s n i f := by
  induction n generalizing i f with
  | zero => rfl
  | succ n ih =>
    unfold countLoop
    have hr := busRead_same h (k := i) (by omega)
    change (match busRead s.platform m (s.src i) with
      | .ok x => countLoop { s with mem := m } n (i + 1) (bumpFreq f x)
      | .error stop => (f, some stop)) = _
    rw [← hr]
    cases busRead s.platform s.mem (s.src i) with
    | ok x => exact ih (by omega) _
    | error stop => rfl

theorem hdrByte_same {s : State} {m : Memory} (h : SameSource s s.mem m) (p : Nat) :
    hdrByte { s with mem := m } p = hdrByte s p := by
  unfold hdrByte
  change (if p ≥ s.srcLen.toNat then _ else _) = _
  by_cases hp : p ≥ s.srcLen.toNat
  · rw [if_pos hp, if_pos hp]
  · rw [if_neg hp, if_neg hp]
    have hr := busRead_same h (k := p) (by omega)
    exact congrArg (fun r => match r with
      | .ok b => Except.ok (b, p + 1)
      | .error stop => .error stop) hr.symm

theorem hdrBytes_same {s : State} {m : Memory} (h : SameSource s s.mem m) (n p : Nat) :
    hdrBytes { s with mem := m } n p = hdrBytes s n p := by
  induction n generalizing p with
  | zero => rfl
  | succ n ih =>
    unfold hdrBytes
    rw [hdrByte_same h]
    split
    · rfl
    · rw [ih]

theorem parseEntry_same {s : State} {m : Memory} (h : SameSource s s.mem m) (j : Nat) (es : List (Byte × Code)) (p : Nat) :
    parseEntry { s with mem := m } j es p = parseEntry s j es p := by
  unfold parseEntry
  rw [hdrByte_same h]
  split
  · rfl
  · rw [hdrByte_same h]
    split
    · rfl
    · rw [hdrBytes_same h]

theorem parseEntries_same {s : State} {m : Memory} (h : SameSource s s.mem m) (n j : Nat) (es : List (Byte × Code))
    (p : Nat) : parseEntries { s with mem := m } n j es p = parseEntries s n j es p := by
  induction n generalizing j es p with
  | zero => rfl
  | succ n ih =>
    unfold parseEntries
    rw [parseEntry_same h]
    split
    · rfl
    · exact ih _ _ _

/-- PARSE's reading depends on the source window only. -/
theorem parseHeader_same {s : State} {m : Memory} (h : SameSource s s.mem m) :
    parseHeader { s with mem := m } = parseHeader s := by
  unfold parseHeader
  rw [hdrBytes_same h]
  split
  · rfl
  · simp only [parseEntries_same h, hdrBytes_same h]

/-! ### ENCODE -/

/-- Two packers that differ in memory alone. -/
structure SamePacker (s : State) (p q : Packer) : Prop where
  n : q.n = p.n
  cur : q.cur = p.cur
  mem : SameSource s p.mem q.mem

theorem emitBit_same {s : State} {m : Memory} {p q : Packer} (h : SamePacker s p q)
    (bit : Bool) : SameResult (SamePacker s) (emitBit s p bit) (emitBit { s with mem := m } q bit) := by
  unfold emitBit
  rw [h.n, h.cur]
  change SameResult _ (if _ then _ else _) (if p.n % 8 = 0 ∧ p.n / 8 ≥ s.dstCap.toNat then _ else _)
  by_cases hc : p.n % 8 = 0 ∧ p.n / 8 ≥ s.dstCap.toNat
  · rw [if_pos hc, if_pos hc]; exact .error _
  · rw [if_neg hc, if_neg hc]
    dsimp only
    by_cases hn : (p.n + 1) % 8 = 0
    · rw [if_pos hn, if_pos hn]
      have hw := busWrite_same h.mem ((p.n + 1) / 8 - 1) (setBit p.cur (7 - p.n % 8) bit)
      generalize busWrite s.platform p.mem (s.dst ((p.n + 1) / 8 - 1)) (setBit p.cur (7 - p.n % 8) bit) = r₁ at hw
      change SameResult _ _ (match busWrite s.platform q.mem (s.dst ((p.n + 1) / 8 - 1)) (setBit p.cur (7 - p.n % 8) bit) with
        | .ok m => Except.ok ({ n := p.n + 1, cur := 0#8, mem := m } : Packer)
        | .error stop => .error stop)
      generalize busWrite s.platform q.mem (s.dst ((p.n + 1) / 8 - 1)) (setBit p.cur (7 - p.n % 8) bit) = r₂ at hw
      cases hw with
      | ok hm => exact .ok ⟨rfl, rfl, hm⟩
      | error => exact .error _
    · rw [if_neg hn, if_neg hn]; exact .ok ⟨rfl, rfl, h.mem⟩

theorem emitBits_same {s : State} {m : Memory} {p q : Packer} (h : SamePacker s p q)
    (cs : Code) : SameResult (SamePacker s) (emitBits s cs p) (emitBits { s with mem := m } cs q) := by
  induction cs generalizing p q with
  | nil => exact .ok h
  | cons b cs ih =>
    have hb := emitBit_same (m := m) h b
    unfold emitBits
    generalize emitBit s p b = r₁ at hb
    generalize emitBit { s with mem := m } q b = r₂ at hb
    cases hb with
    | ok h' => exact ih h'
    | error => exact .error _

theorem encodeLoop_same {s : State} {m : Memory} {p q : Packer} (h : SamePacker s p q)
    {n i : Nat} (hin : i + n ≤ s.srcLen.toNat) :
    SameResult (SamePacker s) (encodeLoop s n i p) (encodeLoop { s with mem := m } n i q) := by
  induction n generalizing i p q with
  | zero => exact .ok h
  | succ n ih =>
    unfold encodeLoop
    have hr := busRead_same h.mem (k := i) (by omega)
    change SameResult _ _ (match busRead s.platform q.mem (s.src i) with
      | .error stop => .error stop
      | .ok x =>
        if s.codeLen x = 0 then .error (.err .unknownSymbol (BitVec.ofNat 32 i))
        else
          match emitBits { s with mem := m } (s.codeOf x) q with
          | .ok p' => encodeLoop { s with mem := m } n (i + 1) p'
          | .error stop => .error stop)
    rw [← hr]
    cases busRead s.platform p.mem (s.src i) with
    | error stop => exact .error _
    | ok x =>
      dsimp only
      by_cases hx : s.codeLen x = 0
      · rw [if_pos hx, if_pos hx]; exact .error _
      · rw [if_neg hx, if_neg hx]
        have hb := emitBits_same (m := m) h (s.codeOf x)
        generalize emitBits s (s.codeOf x) p = r₁ at hb
        generalize emitBits { s with mem := m } (s.codeOf x) q = r₂ at hb
        cases hb with
        | ok h' => exact ih h' (by omega)
        | error => exact .error _

theorem flushPacker_same {s : State} {m : Memory} {p q : Packer} (h : SamePacker s p q) :
    SameResult (SamePacker s) (flushPacker s p) (flushPacker { s with mem := m } q) := by
  unfold flushPacker
  rw [h.n, h.cur]
  by_cases hn : p.n % 8 = 0
  · rw [if_pos hn, if_pos hn]; exact .ok h
  · rw [if_neg hn, if_neg hn]
    have hw := busWrite_same h.mem (p.n / 8) p.cur
    generalize busWrite s.platform p.mem (s.dst (p.n / 8)) p.cur = r₁ at hw
    change SameResult _ _ (match busWrite s.platform q.mem (s.dst (p.n / 8)) p.cur with
      | .ok m => Except.ok ({ n := p.n, cur := p.cur, mem := m } : Packer)
      | .error stop => .error stop)
    generalize busWrite s.platform q.mem (s.dst (p.n / 8)) p.cur = r₂ at hw
    cases hw with
    | ok hm => exact .ok ⟨rfl, rfl, hm⟩
    | error => exact .error _

/-- ENCODE's packing depends on the source window only. -/
theorem packWindow_same {s : State} {m : Memory} (h : SameSource s s.mem m) :
    SameResult (SamePacker s) (packWindow s) (packWindow { s with mem := m }) := by
  have hl := encodeLoop_same (s := s) (m := m) (p := { n := 0, cur := 0#8, mem := s.mem })
    (q := { n := 0, cur := 0#8, mem := m }) ⟨rfl, rfl, h⟩ (n := s.srcLen.toNat) (i := 0) (by omega)
  unfold packWindow
  generalize encodeLoop s s.srcLen.toNat 0 { n := 0, cur := 0#8, mem := s.mem } = r₁ at hl
  change SameResult _ _ (match encodeLoop { s with mem := m } s.srcLen.toNat 0 { n := 0, cur := 0#8, mem := m } with
    | .ok p => flushPacker { s with mem := m } p
    | .error stop => .error stop)
  generalize encodeLoop { s with mem := m } s.srcLen.toNat 0 { n := 0, cur := 0#8, mem := m } = r₂ at hl
  cases hl with
  | ok h' => exact flushPacker_same h'
  | error => exact .error _

/-! ### SERIALIZE -/

theorem emitBytes_same {s : State} {m m₁ m₂ : Memory} (bs : List Byte) (p : Nat) :
    SameResult (fun _ _ => True) (emitBytes s bs p m₁) (emitBytes { s with mem := m } bs p m₂) := by
  induction bs generalizing p m₁ m₂ with
  | nil => exact .ok trivial
  | cons b bs ih =>
    unfold emitBytes
    change SameResult _ _ (match busWrite s.platform m₂ (s.dst p) b with
      | .ok m' => emitBytes { s with mem := m } bs (p + 1) m'
      | .error stop => .error stop)
    cases hw : s.platform.busOk .write (s.dst p)
    · rw [busWrite_busError hw, busWrite_busError hw]; exact .error _
    · rw [busWrite_ok hw, busWrite_ok hw]; exact ih _

/-! ### DECODE -/

/-- Two unpackers that differ in memory alone, and not in the bytes written. -/
structure SameUnpacker (s : State) (u v : Unpacker) : Prop where
  cur : v.cur = u.cur
  acc : v.acc = u.acc
  j : v.j = u.j
  mem : SameSource s u.mem v.mem
  bytes : ∀ i, i < u.j → memRead u.mem (s.dst i).toNat = memRead v.mem (s.dst i).toNat

theorem takeBit_same {s : State} {m : Memory} {u v : Unpacker} (h : SameUnpacker s u v)
    (es : List (Byte × Code)) (maxLen : Nat) (bit : Bool) (cur : Byte) :
    SameResult (SameUnpacker s) (takeBit s es maxLen bit cur u) (takeBit { s with mem := m } es maxLen bit cur v) := by
  unfold takeBit
  rw [h.acc, h.j]
  split
  · rename_i x _
    change SameResult _ (if _ then _ else _) (if u.j ≥ s.dstCap.toNat then _ else _)
    by_cases hj : u.j ≥ s.dstCap.toNat
    · rw [if_pos hj, if_pos hj]; exact .error _
    · rw [if_neg hj, if_neg hj]
      have hw := busWrite_same h.mem u.j x
      change SameResult _ _ (match busWrite s.platform v.mem (s.dst u.j) x with
        | .ok m => Except.ok ({ cur := cur, acc := [], j := u.j + 1, mem := m } : Unpacker)
        | .error stop => .error stop)
      cases hrep : s.platform.busOk .write (s.dst u.j)
      · rw [busWrite_busError hrep, busWrite_busError hrep]; exact .error _
      · rw [busWrite_ok hrep, busWrite_ok hrep] at hw ⊢
        cases hw with
        | ok hm =>
          refine .ok ⟨rfl, rfl, rfl, hm, fun i hi => ?_⟩
          change memRead (memWrite u.mem (s.dst u.j).toNat x) _ = memRead (memWrite v.mem (s.dst u.j).toNat x) _
          rw [memRead_memWrite h.mem.wf₁, memRead_memWrite h.mem.wf₂]
          split
          · rfl
          · rename_i hne
            refine h.bytes i ?_
            change i < u.j + 1 at hi
            rcases Nat.lt_succ_iff_lt_or_eq.mp hi with hlt | rfl
            · exact hlt
            · exact absurd rfl hne
  · split
    · exact .error _
    · exact .ok ⟨rfl, rfl, rfl, h.mem, h.bytes⟩

theorem decodeLoop_same {s : State} {m : Memory} {u v : Unpacker} (h : SameUnpacker s u v)
    (es : List (Byte × Code)) (maxLen : Nat) {n k : Nat} (hin : k + n ≤ 8 * s.srcLen.toNat) :
    SameResult (SameUnpacker s) (decodeLoop s es maxLen n k u) (decodeLoop { s with mem := m } es maxLen n k v) := by
  induction n generalizing k u v with
  | zero => exact .ok h
  | succ n ih =>
    have hf : fetchByte { s with mem := m } k v = fetchByte s k u := by
      unfold fetchByte
      rw [h.cur]
      split
      · exact (busRead_same h.mem (k := k / 8) (by omega)).symm
      · rfl
    unfold decodeLoop
    rw [hf]
    split
    · exact .error _
    · rename_i cur _
      have ht := takeBit_same (m := m) h es maxLen (cur.getLsbD (7 - k % 8)) cur
      generalize takeBit s es maxLen (cur.getLsbD (7 - k % 8)) cur u = r₁ at ht
      generalize takeBit { s with mem := m } es maxLen (cur.getLsbD (7 - k % 8)) cur v = r₂ at ht
      cases ht with
      | ok h' => exact ih h' (by omega)
      | error => exact .error _

/-- DECODE's unpacking depends on the source window only. -/
theorem unpackWindow_same {s : State} {m : Memory} (h : SameSource s s.mem m)
    (hin : s.bitcnt.toNat ≤ 8 * s.srcLen.toNat) :
    SameResult (SameUnpacker s) (unpackWindow s) (unpackWindow { s with mem := m }) := by
  have hl := decodeLoop_same (s := s) (m := m) (u := { cur := 0#8, acc := [], j := 0, mem := s.mem })
    (v := { cur := 0#8, acc := [], j := 0, mem := m }) ⟨rfl, rfl, rfl, h, by simp⟩ s.entries s.maxlen
    (n := s.bitcnt.toNat) (k := 0) (by omega)
  unfold unpackWindow
  generalize decodeLoop s s.entries s.maxlen s.bitcnt.toNat 0 { cur := 0#8, acc := [], j := 0, mem := s.mem } = r₁ at hl
  change SameResult _ _ (match decodeLoop { s with mem := m } s.entries s.maxlen s.bitcnt.toNat 0
      { cur := 0#8, acc := [], j := 0, mem := m } with
    | .error stop => .error stop
    | .ok u => if u.acc = [] then .ok u else .error (.err .truncatedStream 3#32))
  generalize decodeLoop { s with mem := m } s.entries s.maxlen s.bitcnt.toNat 0
    { cur := 0#8, acc := [], j := 0, mem := m } = r₂ at hl
  cases hl with
  | ok h' =>
    simp only [h'.acc]
    split
    · exact .ok h'
    · exact .error _
  | error => exact .error _

end Sys2Proof.Machine
end

