-- ==== Sys2Proof/Laws/PerInstr.lean ====
section
/-! SUPPORT. One statement about every command's encoding (30_encoding.md R121, R122, R125), one lemma per command. -/

namespace Sys2Proof.Laws.Encoding

/-- The command is well formed, its word holds its opcode in OP and 0 in RSVD, and both decoders read it back. -/
def Statement (i : Instr) : Prop :=
  i.wellFormed = true ∧ opField (encode i) = opcode i ∧ rsvdField (encode i) = 0#28 ∧ decode (encode i) = .cmd i ∧
    decodeTableWord 32 (encode i).toNat = some i

theorem clear : Statement .clear := by simp only [Statement]; decide
theorem count : Statement .count := by simp only [Statement]; decide
theorem buildTree : Statement .buildTree := by simp only [Statement]; decide
theorem genCodes : Statement .genCodes := by simp only [Statement]; decide
theorem encode : Statement .encode := by simp only [Statement]; decide
theorem serialize : Statement .serialize := by simp only [Statement]; decide
theorem parse : Statement .parse := by simp only [Statement]; decide
theorem decode : Statement .decode := by simp only [Statement]; decide

end Sys2Proof.Laws.Encoding
end

