-- ==== Sys2Proof/Laws/Registers.lean ====
section
/-! SUPPORT. Everything a host action can do. -/

namespace Sys2Proof.Machine

theorem not_busy_iff (s : State) : s.busy = false ↔ s.running = none := by simp [State.busy]

/-! ### Register accesses by name -/

theorem offset_aligned (r : Reg) : r.offset.toNat % 4 = 0 := by
  cases r <;> try rfl
  rename_i k; revert k; decide

theorem regAt_eq (r : Reg) : regAt r.offset = some r := by
  cases r <;> try rfl
  rename_i k; revert k; decide

theorem hostAct_regRead (off : Offset) (s : State) (h : off.toNat % 4 = 0) :
    hostAct (.regRead off 4) s = .next (readReg off s) := by
  simp [hostAct, HostAct.wellFormed, isWordSize, isWordAligned, h]

theorem hostAct_regWrite (off : Offset) (v : Word) (s : State) (h : off.toNat % 4 = 0) :
    hostAct (.regWrite off 4 v) s = writeReg off v s := by
  simp [hostAct, HostAct.wellFormed, isWordSize, isWordAligned, h]

theorem hostAct_write (r : Reg) (v : Word) (s : State) : hostAct (.regWrite r.offset 4 v) s = writeAt r v s := by
  rw [hostAct_regWrite _ _ _ (offset_aligned r), writeReg, regAt_eq]

/-- The fields of the STATUS word (10_state.md R43). -/
theorem statusWord_fields (lastOp : BitVec 4) (tableValid treeValid err busy : Bool) :
    (statusWord lastOp tableValid treeValid err busy).getLsbD 0 = busy ∧
    (statusWord lastOp tableValid treeValid err busy).getLsbD 1 = err ∧
    (statusWord lastOp tableValid treeValid err busy).getLsbD 2 = treeValid ∧
    (statusWord lastOp tableValid treeValid err busy).getLsbD 3 = tableValid ∧
    (statusWord lastOp tableValid treeValid err busy).extractLsb' 4 4 = lastOp ∧
    (statusWord lastOp tableValid treeValid err busy).extractLsb' 8 24 = 0#24 := by
  revert lastOp tableValid treeValid err busy; decide +kernel

/-! ### What an action answers -/

/-- An acceptance, when it answers a next state (40_command_protocol.md R164, R169). -/
theorem accept_next {w : Word} {s t : State} (h : accept w s = .next t) :
    (∃ v, decode w = .illegal v ∧ t = raiseError .illegalCommand v (markAccepted w s)) ∨
    ∃ i, decode w = .cmd i ∧ overlapHazard i s = false ∧ t = { markAccepted w s with running := some i } := by
  unfold accept at h
  split at h
  · rename_i v hv
    simp only [Host.Outcome.next.injEq] at h
    exact .inl ⟨v, hv, h.symm⟩
  · rename_i i hi
    split at h
    · simp at h
    · rename_i hov
      simp only [Host.Outcome.next.injEq] at h
      exact .inr ⟨i, hi, by simpa using hov, h.symm⟩

/-- A register write, when it answers a next state (40_command_protocol.md R162). -/
theorem writeReg_next {off : Offset} {v : Word} {s t : State} (h : writeReg off v s = .next t) :
    t = s ∨ t = ackIrq v s ∨ (s.busy = true ∧ t = dropWrite s) ∨ (s.busy = false ∧ ∃ r, t = storeReg r v s) ∨
      (s.busy = false ∧ accept v s = .next t) := by
  unfold writeReg at h
  split at h
  · simp only [Host.Outcome.next.injEq] at h
    exact .inl h.symm
  · rename_i r _
    unfold writeAt at h
    split at h
    · simp only [Host.Outcome.next.injEq] at h
      exact .inl h.symm
    · simp only [Host.Outcome.next.injEq] at h
      exact .inr (.inl h.symm)
    · split at h
      · rename_i hb
        simp only [Host.Outcome.next.injEq] at h
        exact .inr (.inr (.inl ⟨hb, h.symm⟩))
      · rename_i hb
        exact .inr (.inr (.inr (.inr ⟨by simpa using hb, h⟩)))
    · simp only [Host.Outcome.next.injEq] at h
      split at h
      · rename_i hb
        exact .inr (.inr (.inl ⟨hb, h.symm⟩))
      · rename_i hb
        exact .inr (.inr (.inr (.inl ⟨by simpa using hb, r, h.symm⟩)))

/-- A register read changes the host's data and the draw counter, nothing else (40_command_protocol.md R160). -/
theorem readReg_eq (off : Offset) (s : State) : ∃ v n, readReg off s = { s with rdata := v, draws := s.draws + n } := by
  unfold readReg
  split
  · exact ⟨_, 0, rfl⟩
  · split
    · exact ⟨_, 1, rfl⟩
    · split
      · exact ⟨_, 1, rfl⟩
      · exact ⟨_, 0, rfl⟩

/-- A host action, when it answers a next state. -/
theorem hostAct_next {a : HostAct} {s t : State} (h : hostAct a s = .next t) :
    (∃ v n, t = { s with rdata := v, draws := s.draws + n }) ∨
    (∃ off v, writeReg off v s = .next t) ∨
    (∃ b c, writeRaces s b = false ∧ t = { s with mem := memWrite s.mem b.toNat c }) ∨
    (a = .reset ∧ t = resetBlock s) := by
  cases a with
  | regRead off size =>
    simp only [hostAct] at h
    split at h
    · simp only [Host.Outcome.next.injEq] at h
      obtain ⟨v, n, hv⟩ := readReg_eq off s
      exact .inl ⟨v, n, by rw [← h, hv]⟩
    · simp at h
  | regWrite off size v =>
    simp only [hostAct] at h
    split at h
    · exact .inr (.inl ⟨off, v, h⟩)
    · simp at h
  | memRead b =>
    simp only [hostAct, hostMemRead] at h
    split at h
    · simp at h
    · split at h
      · simp only [Host.Outcome.next.injEq] at h
        exact .inl ⟨_, 1, h.symm⟩
      · simp only [Host.Outcome.next.injEq] at h
        exact .inl ⟨_, 0, h.symm⟩
  | memWrite b c =>
    simp only [hostAct, hostMemWrite] at h
    split at h
    · simp at h
    · rename_i hr
      simp only [Host.Outcome.next.injEq] at h
      exact .inr (.inr (.inl ⟨b, c, by simpa using hr, h.symm⟩))
  | reset =>
    simp only [hostAct, Host.Outcome.next.injEq] at h
    exact .inr (.inr (.inr ⟨rfl, h.symm⟩))

end Sys2Proof.Machine
end

