-- ==== Sys2Proof/Laws/Step.lean ====
section
/-! SUPPORT. Everything a step can do. -/

namespace Sys2Proof.Machine

theorem finishRunning_next {s t : State} (h : finishRunning s = .next t) :
    (s.running = none ∧ t = s) ∨ ∃ i, s.running = some i ∧ exec i s = .next t := by
  unfold finishRunning at h
  split at h
  · rename_i hr
    simp only [Host.Outcome.next.injEq] at h
    exact .inl ⟨hr, h.symm⟩
  · rename_i i hr
    exact .inr ⟨i, hr, h⟩

theorem engineBeat_next {f : Bool} {s t : State} (h : engineBeat f s = .next t) :
    t = s ∨ ∃ i, s.running = some i ∧ exec i s = .next t := by
  unfold engineBeat at h
  split at h
  · rcases finishRunning_next h with ⟨_, rfl⟩ | h
    · exact .inl rfl
    · exact .inr h
  · simp only [Host.Outcome.next.injEq] at h
    exact .inl h.symm

theorem runBeat_next {b : Beat} {s t : State} (h : runBeat b s = .next t) :
    ∃ u, (u = s ∨ ∃ a, b.act = some a ∧ hostAct a s = .next u) ∧
      (t = u ∨ ∃ i, u.running = some i ∧ exec i u = .next t) := by
  unfold runBeat at h
  split at h
  · exact ⟨s, .inl rfl, engineBeat_next h⟩
  · rename_i a ha
    split at h
    · rename_i u hu
      exact ⟨u, .inr ⟨a, ha, hu⟩, engineBeat_next h⟩
    · simp at h
    · simp at h

/-- A step is a host action or none, then the completion of the running command or nothing. -/
theorem step_next {s t : State} (h : step s = .next t) :
    ∃ u, (u = s ∨ u = { s with beats := s.beats.tail } ∨ ∃ a, hostAct a { s with beats := s.beats.tail } = .next u) ∧
      (t = u ∨ ∃ i, u.running = some i ∧ exec i u = .next t) := by
  unfold step nextBeat at h
  split at h
  · rcases finishRunning_next h with ⟨_, rfl⟩ | h
    · exact ⟨t, .inl rfl, .inl rfl⟩
    · exact ⟨s, .inl rfl, .inr h⟩
  · rename_i b bs hb
    obtain ⟨u, h1, h2⟩ := runBeat_next h
    rw [show bs = s.beats.tail by rw [hb]; rfl] at h1
    rcases h1 with h1 | ⟨a, _, h1⟩
    · exact ⟨u, .inr (.inl h1), h2⟩
    · exact ⟨u, .inr (.inr ⟨a, h1⟩), h2⟩

/-! ### Every memory operation keeps the canonical form -/

theorem reset_mem_wf : Memory.wf State.reset.mem = true := rfl

theorem freeDst_mem_wf {s : State} (h : Memory.wf s.mem = true) : Memory.wf (freeDst s).mem = true :=
  drawWindow_wf _ _ _ h

theorem abandonRunning_mem_wf {s : State} (h : Memory.wf s.mem = true) : Memory.wf (abandonRunning s).mem = true := by
  unfold abandonRunning
  split
  · exact h
  · split
    · exact freeDst_mem_wf h
    · exact h

theorem exec_mem_wf {i : Instr} {s t : State} (hm : Memory.wf s.mem = true) (h : exec i s = .next t) :
    Memory.wf t.mem = true := by
  cases i <;> simp only [exec] at h
  case clear =>
    simp only [execClear, Host.Outcome.next.injEq] at h
    subst h; exact hm
  case count => rcases execCount_next h with ⟨_, rfl⟩ | ⟨_, rfl⟩ | ⟨_, _, _, _, rfl⟩ <;> exact hm
  case buildTree => rcases execBuildTree_next h with ⟨_, rfl⟩ | ⟨_, _, _, _, rfl⟩ <;> exact hm
  case genCodes => rcases execGenCodes_next h with ⟨_, rfl⟩ | ⟨_, _, rfl⟩ <;> exact hm
  case encode =>
    rcases (execEncode_next hm h).2 with ⟨_, rfl⟩ | ⟨_, m, hp, _, rfl⟩ | ⟨_, _, _, _, rfl⟩
    · exact freeDst_mem_wf hm
    · exact hp.wf
    · exact freeDst_mem_wf hm
  case serialize =>
    rcases execSerialize_next hm h with ⟨_, rfl⟩ | ⟨_, _, rfl⟩ | ⟨_, _, m, hp, rfl⟩ | ⟨_, _, _, rfl⟩
    · exact freeDst_mem_wf hm
    · exact freeDst_mem_wf hm
    · exact hp.wf
    · exact freeDst_mem_wf hm
  case parse => rcases execParse_next h with ⟨_, _, rfl⟩ | ⟨_, _, _, _, rfl⟩ <;> exact hm
  case decode =>
    rcases (execDecode_next hm h).2 with ⟨_, rfl⟩ | ⟨_, _, rfl⟩ | ⟨_, _, _, m, hp, _, _, rfl⟩ | ⟨_, _, _, _, _, rfl⟩
    · exact freeDst_mem_wf hm
    · exact freeDst_mem_wf hm
    · exact hp.wf
    · exact freeDst_mem_wf hm

theorem storeReg_mem (r : Reg) (v : Word) (s : State) : (storeReg r v s).mem = s.mem := by cases r <;> rfl

theorem hostAct_mem_wf {a : HostAct} {s t : State} (hm : Memory.wf s.mem = true) (h : hostAct a s = .next t) :
    Memory.wf t.mem = true := by
  rcases hostAct_next h with ⟨_, _, rfl⟩ | ⟨_, _, hw⟩ | ⟨b, c, _, rfl⟩ | ⟨_, rfl⟩
  · exact hm
  · rcases writeReg_next hw with rfl | rfl | ⟨_, rfl⟩ | ⟨_, r, rfl⟩ | ⟨_, hacc⟩
    · exact hm
    · exact hm
    · exact hm
    · rw [storeReg_mem]; exact hm
    · rcases accept_next hacc with ⟨_, _, rfl⟩ | ⟨_, _, _, rfl⟩ <;> exact hm
  · exact memWrite_wf hm b.isLt c
  · exact abandonRunning_mem_wf hm

theorem step_mem_wf {s t : State} (hm : Memory.wf s.mem = true) (h : step s = .next t) : Memory.wf t.mem = true := by
  obtain ⟨u, h1, h2⟩ := step_next h
  have hu : Memory.wf u.mem = true := by
    rcases h1 with rfl | rfl | ⟨a, ha⟩
    · exact hm
    · exact hm
    · exact hostAct_mem_wf (s := { s with beats := s.beats.tail }) hm ha
  rcases h2 with rfl | ⟨i, _, he⟩
  · exact hu
  · exact exec_mem_wf hu he

end Sys2Proof.Machine
end

