-- ==== Sys2Proof/Machine/Transactions.lean ====
section
/-! DEFINITION. The host's program forms as bus transactions, and as beats of the schedule (30_encoding.md R150, R151). -/

namespace Sys2Proof.Machine

/-- `RD REG`: one read at the register's offset. -/
def readOf (r : Reg) : HostAct := .regRead r.offset 4

/-- `WR REG, v`: one write at the register's offset. -/
def writeOf (r : Reg) (v : Word) : HostAct := .regWrite r.offset 4 v

/-- `MEM addr: b0 b1 ...`: the host's stores, in address order. -/
def storesOf : Addr → List Byte → List HostAct
  | _, [] => []
  | a, b :: bs => .memWrite a b :: storesOf (a + 1#32) bs

/-- The transactions of one form; `RUN OP` is `CMD OP` then `WAIT`, and `WAIT` ends with the first STATUS read
that sees BUSY = 0 (30_encoding.md R151). -/
def hostOpActs : HostOp → List HostAct
  | .wr r v => [writeOf r v]
  | .rd r => [readOf r]
  | .cmd i => [writeOf .cmd (encode i)]
  | .cmdw w => [writeOf .cmd w]
  | .wait n => List.replicate n (readOf .status) ++ [readOf .status]
  | .run i n => writeOf .cmd (encode i) :: (List.replicate n (readOf .status) ++ [readOf .status])
  | .ack => [writeOf .irqStat 7#32]
  | .mem a bs => storesOf a bs

/-- A beat in which only the host acts. -/
def hostBeat (a : HostAct) : Beat := { act := some a, finish := false }

/-- The beats of `WAIT`: the reads that see BUSY = 1, the completion, and the read that sees BUSY = 0. -/
def waitBeats (n : Nat) : List Beat :=
  List.replicate n (hostBeat (readOf .status)) ++ [{ act := none, finish := true }, hostBeat (readOf .status)]

/-- The beats of one form. That the running command completes inside a `WAIT` and in no other form, so that after a
`CMD` with no `WAIT` a following register write is dropped, is the model's choice (DESIGN CHOICE, log entry 25): the spec
lets it complete between any two host steps (30_encoding.md R151; 70_reset_and_hazards.md R360, R370). `State.beats` holds
those schedules too. -/
def hostOpBeats (op : HostOp) : List Beat :=
  match op with
  | .wait n => waitBeats n
  | .run i n => hostBeat (writeOf .cmd (encode i)) :: waitBeats n
  | .wr _ _ | .rd _ | .cmd _ | .cmdw _ | .ack | .mem _ _ => (hostOpActs op).map hostBeat

/-- One schedule of a program (log entry 11): the one in which commands complete inside a `WAIT` only (DESIGN CHOICE, log
entry 25). -/
def programBeats (ops : List HostOp) : List Beat := ops.flatMap hostOpBeats

end Sys2Proof.Machine
end

