-- ==== Sys2Proof/Tests/Slice0.lean ====
section
/-! SUPPORT. Tests on fixed values, each from the spec's own encodings, examples or vectors (95_test_vectors.md),
and for every obligation with hypotheses a witness that meets them. -/

namespace Sys2Proof.Tests

set_option Elab.async false

open Sys2Proof Sys2Proof.Machine

/-! ### Decoding: words written out bit by bit from 30_encoding.md R121 (RSVD = 0, OP in bits 3:0) and R122 -/

theorem test_word_clear : decode 0b00000000000000000000000000000001#32 = .cmd .clear := by decide
theorem test_word_count : decode 0b00000000000000000000000000000010#32 = .cmd .count := by decide
theorem test_word_buildTree : decode 0b00000000000000000000000000000011#32 = .cmd .buildTree := by decide
theorem test_word_genCodes : decode 0b00000000000000000000000000000100#32 = .cmd .genCodes := by decide
theorem test_word_encode : decode 0b00000000000000000000000000000101#32 = .cmd .encode := by decide
theorem test_word_serialize : decode 0b00000000000000000000000000000110#32 = .cmd .serialize := by decide
theorem test_word_parse : decode 0b00000000000000000000000000000111#32 = .cmd .parse := by decide
theorem test_word_decode : decode 0b00000000000000000000000000001000#32 = .cmd .decode := by decide

/-- The reserved words of V-IL1 to V-IL5. -/
theorem test_word_illegal :
    decode 0#32 = .illegal 0#32 ∧ decode 0xF#32 = .illegal 0xF#32 ∧ decode 9#32 = .illegal 9#32 ∧
    decode 0x11#32 = .illegal 0x11#32 ∧ decode 0x80000003#32 = .illegal 0x80000003#32 := by decide

/-- Table words: the opcode table's bits are the command word's. -/
theorem test_table_words : decodeTableWord 32 8 = some .decode ∧ decodeTableWord 32 0 = none := by decide

/-! ### WellFormed: an ill-formed term for each check (20_memory.md R96) -/

/-- Check 1 refuses a halfword access. -/
theorem test_illformed_size : (HostAct.regRead 0x000#12 2).wellFormed = false := by decide
/-- Check 2 refuses a misaligned access. -/
theorem test_illformed_align : (HostAct.regWrite 0x006#12 4 1#32).wellFormed = false := by decide
theorem test_wellformed_word : (HostAct.regRead 0x07C#12 4).wellFormed = true := by decide
/-- The machine refuses them by name. -/
theorem test_illformed_refused :
    hostAct (.regRead 0x000#12 2) State.reset = .refused (.badRegisterAccess 0x000#12 2) := rfl

/-! ### Small states -/

/-- A source window at 0x1000 and a destination window at 0x2000. -/
def windows (mem : Memory) (len cap : Word) : State :=
  { State.reset with mem := mem, srcAddr := 0x1000#32, srcLen := len, dstAddr := 0x2000#32, dstCap := cap }

/-- The bytes of "aaab" in memory at 0x1000. -/
def memAaab : Memory := [(0x1000, 0x61#8), (0x1001, 0x61#8), (0x1002, 0x61#8), (0x1003, 0x62#8)]

/-- The table of V1: a = "0", b = "1". -/
def entriesAB : List (Byte × Code) := [(0x61#8, [false]), (0x62#8, [true])]

/-- A table that is prefix-free and not complete (V-PA15): A = "01". -/
def entriesA : List (Byte × Code) := [(0x41#8, [false, true])]

/-- `windows` with the code table of these entries. -/
def withTable (es : List (Byte × Code)) (mem : Memory) (len cap : Word) (count : BitVec 64) : State :=
  { windows mem len cap with code := tableOf es, bitcnt := count }

/-- The state after an outcome. -/
def after (o : Host.Outcome State Fault Refusal) : State :=
  match o with
  | .next t => t
  | .fault _ => State.reset
  | .refused _ => State.reset

/-- The outcome is a next state. -/
def goesOn (o : Host.Outcome State Fault Refusal) : Bool :=
  match o with
  | .next _ => true
  | .fault _ => false
  | .refused _ => false

/-- The fault of an outcome that is one. -/
def faultOf (o : Host.Outcome State Fault Refusal) : Option Fault :=
  match o with
  | .next _ => none
  | .fault f => some f
  | .refused _ => none

theorem next_after {o : Host.Outcome State Fault Refusal} (h : goesOn o = true) : o = .next (after o) := by
  cases o <;> simp_all [goesOn, after]

/-- The bytes of memory from an address. -/
def bytesAt (s : State) (a n : Nat) : List Byte := (List.range n).map fun i => memRead s.mem (a + i)

/-! ### One command each: the vectors of 95_test_vectors.md part 2 -/

/-- V-CL2: the operand registers stay. -/
theorem test_clear_keeps_operands :
    let t := after (exec .clear { withTable entriesAB [] 0#32 0x10#32 4#64 with tabSel := 0x63#8 })
    t.srcAddr = 0x1000#32 ∧ t.dstCap = 0x10#32 ∧ t.tabSel = 0x63#8 ∧ t.bitcnt = 0#64 := by
  decide +kernel

/-- V-CL4, as one step: LAST_OP is 1 and DONE is set. -/
theorem test_clear_step :
    let t := after (step (State.reset.withFetchWord 32 1))
    t.status = 0x00000010#32 ∧ t.irqStat = 1#3 := by decide +kernel

/-- V-CT1. -/
theorem test_count_aaab :
    let t := after (exec .count (windows memAaab 4#32 0#32))
    t.freqOf 0x61#8 = 3#32 ∧ t.freqOf 0x62#8 = 1#32 ∧ t.freqOf 0x63#8 = 0#32 ∧ t.outLen = 0#32 := by decide +kernel

/-- V-CT7: the window wraps. -/
theorem test_count_wraps :
    let t := after (exec .count
      { windows [(0x0, 0x62#8), (0xFFFFFFFF, 0x61#8)] 2#32 0#32 with srcAddr := 0xFFFFFFFF#32 })
    t.freqOf 0x61#8 = 1#32 ∧ t.freqOf 0x62#8 = 1#32 ∧ t.freqOf 0x00#8 = 0#32 := by decide +kernel

/-- FREQ with these counts. -/
def freqs (l : List (Byte × Word)) : Vector Word 256 := l.foldl (fun f e => tabSet f e.1 e.2) zeroFreq

/-- V-BT4: two internal nodes tie, and the older one is extracted first and becomes the right child. -/
theorem test_buildTree_tie :
    (after (exec .buildTree
      { State.reset with freq := freqs [(0x41#8, 1#32), (0x42#8, 1#32), (0x43#8, 1#32), (0x44#8, 1#32)] })).tree =
      some (.node 4 258 (.node 2 257 (.leaf 0x44#8 1) (.leaf 0x43#8 1))
        (.node 2 256 (.leaf 0x42#8 1) (.leaf 0x41#8 1))) := by decide +kernel

/-- V-BT5. -/
theorem test_buildTree_empty :
    let t := after (step (State.reset.withFetchWord 32 3))
    t.status = 0x00000032#32 ∧ t.errInfo = 0#32 ∧ t.tree = none := by decide +kernel

/-- V-BT3: the codes of the tree whose leaf c is the right child: a = "01", b = "00", c = "1". -/
theorem test_genCodes_paths :
    let t := after (exec .genCodes { State.reset with
      tree := some (.node 4 257 (.node 2 256 (.leaf 0x62#8 1) (.leaf 0x61#8 1)) (.leaf 0x63#8 2)) })
    t.codeOf 0x61#8 = [false, true] ∧ t.codeOf 0x62#8 = [false, false] ∧ t.codeOf 0x63#8 = [true] ∧
      t.tree = none := by decide +kernel

/-- V-BT6: a single symbol's code. -/
theorem test_genCodes_single :
    let t := after (exec .genCodes { State.reset with tree := some (.leaf 0x7A#8 4) })
    t.codeOf 0x7A#8 = [false] ∧ t.hdrSize = 13 := by decide +kernel

/-- V-EN1. -/
theorem test_encode_aaab :
    let t := after (exec .encode (withTable entriesAB memAaab 4#32 1#32 0#64))
    bytesAt t 0x2000 2 = [0x10#8, 0x00#8] ∧ t.bitcnt = 4#64 ∧ t.outLen = 1#32 := by decide +kernel

/-- V-EN7: the unknown symbol's offset, and BITCNT stays. -/
theorem test_encode_unknown :
    let t := after (exec .encode
      (withTable entriesAB [(0x1000, 0x61#8), (0x1001, 0x62#8), (0x1002, 0x63#8)] 3#32 8#32 77#64))
    t.errCode = .unknownSymbol ∧ t.errInfo = 2#32 ∧ t.bitcnt = 77#64 ∧ t.outLen = 0#32 := by decide +kernel

/-- V-SE3. -/
theorem test_serialize_aaab :
    let t := after (exec .serialize (withTable entriesAB [] 0#32 16#32 0x100000004#64))
    bytesAt t 0x2000 16 =
      [0x00#8, 0x02#8, 0x61#8, 0x01#8, 0x00#8, 0x62#8, 0x01#8, 0x80#8,
        0x00#8, 0x00#8, 0x00#8, 0x01#8, 0x00#8, 0x00#8, 0x00#8, 0x04#8] ∧ t.outLen = 16#32 := by decide +kernel

/-- V-SE2. -/
theorem test_serialize_overflow :
    (after (exec .serialize (withTable entriesAB [] 0#32 15#32 4#64))).errCode = .dstOverflow := by decide +kernel

/-- The header of V-PA12, whose padding bits are 1. -/
def memPadded : Memory :=
  [(0x1001, 0x02#8), (0x1002, 0x61#8), (0x1003, 0x01#8), (0x1004, 0x7F#8), (0x1005, 0x62#8), (0x1006, 0x01#8),
    (0x1007, 0xFF#8), (0x100F, 0x04#8)]

/-- V-PA12. -/
theorem test_parse_padding :
    let t := after (exec .parse (windows memPadded 16#32 0#32))
    t.codeOf 0x61#8 = [false] ∧ t.codeOf 0x62#8 = [true] ∧ t.bitcnt = 4#64 ∧ t.hdrLen = 16#32 := by decide +kernel

/-- The header of V-PA10: a = "0" is a prefix of b = "01". -/
def memConflict : Memory :=
  [(0x1001, 0x02#8), (0x1002, 0x61#8), (0x1003, 0x01#8), (0x1005, 0x62#8), (0x1006, 0x02#8), (0x1007, 0x40#8),
    (0x100F, 0x04#8)]

/-- V-PA10. -/
theorem test_parse_conflict :
    let t := after (exec .parse (windows memConflict 16#32 0#32))
    t.errCode = .headerIntegrity ∧ t.errInfo = 1#32 ∧ t.codeOf 0x61#8 = [] := by decide +kernel

/-- V-DE2: the padding bits are not read. -/
theorem test_decode_aaab :
    let t := after (exec .decode (withTable entriesAB [(0x1000, 0x1F#8)] 1#32 4#32 4#64))
    bytesAt t 0x2000 4 = [0x61#8, 0x61#8, 0x61#8, 0x62#8] ∧ t.outLen = 4#32 := by decide +kernel

/-- V-DE15: the second bit leaves MAXLEN bits that match no entry. -/
theorem test_decode_unresolved :
    let t := after (exec .decode (withTable entriesA [(0x1000, 0xC0#8)] 1#32 1#32 2#64))
    t.errCode = .truncatedStream ∧ t.errInfo = 2#32 ∧ t.outLen = 0#32 := by decide +kernel

/-! ### Registers and the protocol -/

/-- V-RG4 and V-RG5: the writable bits. -/
theorem test_masked_writes :
    (after (hostAct (.regWrite 0x014#12 4 0xFFFFFFFF#32) State.reset)).irqEn = 7#3 ∧
    (after (hostAct (.regWrite 0x050#12 4 0x1FF#32) State.reset)).tabSel = 0xFF#8 := by decide +kernel

/-- V-RG7: a command word written while a command runs is dropped. -/
theorem test_dropped_command :
    let t := after (hostAct (.regWrite 0x004#12 4 1#32) { State.reset with running := some .count, lastOp := 2#4 })
    t.lastOp = 2#4 ∧ t.irqStat = 4#3 ∧ t.running = some .count := by decide +kernel

/-- V-IL2. -/
theorem test_illegal_step :
    let t := after (step (withCommand State.reset 0xF#32))
    t.status = 0x000000F2#32 ∧ t.errInfo = 0xF#32 := by decide +kernel

/-- V-BT14: bit 31 of TAB_CODE0 is the first code bit. -/
theorem test_tab_code :
    regValue { withTable [(0x63#8, [true, false, true])] [] 0#32 0#32 0#64 with tabSel := 0x63#8 } (.tabCode 0) =
      0xA0000000#32 := by decide +kernel

/-- The encodings of part 3: `RUN COUNT` is a write of 2 to offset 0x004 and reads of offset 0x008, and the program
form `ACK` writes 7 to offset 0x018. -/
theorem test_transactions :
    hostOpActs (.run .count 0) = [.regWrite 0x004#12 4 2#32, .regRead 0x008#12 4] ∧
    hostOpActs .ack = [.regWrite 0x018#12 4 7#32] := by decide

/-- `WR SRC_LEN, 1` and `RUN COUNT` as a schedule: two writes, the completion, and the read that ends the `WAIT`. -/
theorem test_program_beats :
    programBeats [.wr .srcLen 1#32, .run .count 0] =
      [hostBeat (.regWrite 0x020#12 4 1#32), hostBeat (.regWrite 0x004#12 4 2#32),
        { act := none, finish := true }, hostBeat (.regRead 0x008#12 4)] := by decide

/-! ### Witnesses: for each obligation, states and operands that meet its hypotheses, at the boundaries of its clauses -/

theorem readable (s : State) (h : s.platform = State.reset.platform) (n : Nat) : s.ReadableTo n := by
  intro i _
  rw [h]
  rfl

theorem writable (s : State) (h : s.platform = State.reset.platform) (n : Nat) : s.WritableTo n := by
  intro i _
  rw [h]
  rfl

theorem apart (s : State)
    (h : windowsOverlap s.srcAddr s.srcLen.toNat s.dstAddr s.dstCap.toNat = false) : s.WindowsApart :=
  (windowsApart_iff s).mp h

theorem agreeAB : EntriesAgree entriesAB := by unfold EntriesAgree; decide
theorem agreeA : EntriesAgree entriesA := by unfold EntriesAgree; decide

theorem freeAB : PrefixFree (tableOf entriesAB) := prefixFree_tableOf agreeAB
theorem freeA : PrefixFree (tableOf entriesA) := prefixFree_tableOf agreeA

/-- The invariant of a state that differs from reset in its table, its windows, and a command that may be running. -/
theorem inv_of (s : State) (es : List (Byte × Code)) (hm : Memory.wf s.mem = true) (hf : s.freq = zeroFreq)
    (hc : s.code = tableOf es) (he : EntriesAgree es) (ht : s.tree = none) (h0 : s.errCode = .success)
    (h1 : s.errInfo = 0#32)
    (hr : ∀ i, s.running = some i → s.lastOp = opcode i ∧ overlapHazard i s = false) : s.Inv where
  memory := hm
  total := by rw [total_eq, hf, freqTotal_zeroFreq]; decide
  codesFit := hc ▸ codesFit_tableOf he
  prefixFree := hc ▸ prefixFree_tableOf he
  tree := by simp [ht]
  accepted i h := ⟨h0, (hr i h).1⟩
  apart i h := (hr i h).2
  noInfo _ := h1
  noOutput h := absurd h0 h
  noTreeFailure := by simp [h0]

theorem inv_windows (mem : Memory) (len cap : Word) (h : Memory.wf mem = true) : (windows mem len cap).Inv :=
  inv_of _ [] h rfl rfl ⟨by simp, .nil⟩ rfl rfl rfl (by simp [windows, State.reset])

theorem inv_withTable (es : List (Byte × Code)) (he : EntriesAgree es) (mem : Memory) (len cap : Word)
    (count : BitVec 64) (h : Memory.wf mem = true) : (withTable es mem len cap count).Inv :=
  inv_of _ es h rfl rfl he rfl rfl rfl (by simp [withTable, windows, State.reset])

/-- A state in which this command runs. -/
def busyWith (i : Instr) (s : State) : State := { s with running := some i, lastOp := opcode i }

theorem witness_DecodingIsTotal :
    (let w := 8#32; w.toNat / 16 = 0 ∧ 1 ≤ w.toNat % 16 ∧ w.toNat % 16 ≤ 8) ∧
    (let w := 1#32; w.toNat / 16 = 0 ∧ 1 ≤ w.toNat % 16 ∧ w.toNat % 16 ≤ 8) ∧
    (∀ w ∈ [0#32, 9#32, 0x11#32, 0xFFFFFFF8#32], ¬ (w.toNat / 16 = 0 ∧ 1 ≤ w.toNat % 16 ∧ w.toNat % 16 ≤ 8)) ∧
    decode 5#32 = .cmd .encode := by
  refine ⟨by decide, by decide, ?_, by decide⟩
  simp only [List.mem_cons, List.mem_nil_iff, or_false]
  rintro w (rfl | rfl | rfl | rfl) <;> decide

theorem witness_ReservedOffsetsReadZero :
    ∀ off ∈ [0x05C#12, 0x080#12, 0xFFC#12], off.toNat % 4 = 0 ∧ (off.toNat = 0x05C ∨ 0x080 ≤ off.toNat) := by
  simp only [List.mem_cons, List.mem_nil_iff, or_false]
  rintro off (rfl | rfl | rfl) <;> decide

theorem witness_ReadsChangeNoBlockState : State.reset.busy = false ∧ (0xFFC#12 : Offset).toNat % 4 = 0 := by decide

/-- A state of the invariant with two counted symbols, and its tree. -/
theorem witness_DerivedRegisterValues :
    (let s : State := { State.reset with freq := freqs [(0x61#8, 3#32), (0x62#8, 1#32)] }
     s.Inv ∧ buildTree s.freq = some (.node 4 256 (.leaf 0x61#8 3) (.leaf 0x62#8 1))) ∧
    CodesFit State.reset.code ∧ CodesFit (withTable entriesAB [] 0#32 0#32 0#64).code ∧
    (withTable entriesAB [] 0#32 0#32 0#64).tabNsym = 2 ∧ State.reset.tabNsym = 0 :=
  ⟨⟨⟨rfl, by decide +kernel, (inv_windows [] 0#32 0#32 rfl).codesFit, (inv_windows [] 0#32 0#32 rfl).prefixFree,
        by simp [State.reset], by simp [State.reset], by simp [State.reset], fun _ => rfl, fun h => absurd rfl h,
        by decide⟩, by decide +kernel⟩,
    (inv_windows [] 0#32 0#32 rfl).codesFit, codesFit_tableOf agreeAB, by decide +kernel, by decide +kernel⟩

theorem witness_TableWindowRegisters :
    CodesFit (withTable entriesAB [] 0#32 0#32 0#64).code ∧ 0 < 32 ∧ 31 < 32 :=
  ⟨codesFit_tableOf agreeAB, by decide, by decide⟩

theorem witness_BusyReadsExactOrFree :
    State.reset.busy = false ∧
    (busyWith .count (windows memAaab 4#32 0#32)).Inv ∧ (busyWith .count (windows memAaab 4#32 0#32)).busy = true :=
  ⟨rfl, inv_of _ [] rfl rfl rfl ⟨by simp, .nil⟩ rfl rfl rfl (by rintro i h; cases h; exact ⟨rfl, rfl⟩), rfl⟩

theorem witness_HostWriteRule :
    (regAt 0x05C#12 = none ∧ regAt 0x000#12 = some .id ∧ Reg.access .id = .ro ∧ (0x05C#12 : Offset).toNat % 4 = 0) ∧
    (busyWith .count State.reset).busy = true ∧ Reg.access .srcLen = .rw ∧ State.reset.busy = false := by decide

theorem witness_UnalignedAccessIsRefused :
    ((2 : Nat) ≠ 4 ∨ (0x000#12 : Offset).toNat % 4 ≠ 0) ∧ ((4 : Nat) ≠ 4 ∨ (0x001#12 : Offset).toNat % 4 ≠ 0) ∧
    ((4 : Nat) = 4 ∧ (0xFFC#12 : Offset).toNat % 4 = 0) := by decide

theorem witness_CommandWriteAccepted :
    State.reset.busy = false ∧ decode 9#32 = .illegal 9#32 ∧ decode 8#32 = .cmd .decode ∧
    overlapHazard .decode State.reset = false := by decide +kernel

theorem witness_IllegalWordCompletes :
    State.reset.busy = false ∧ ∀ w ∈ [0#32, 9#32, 0xF#32, 0x10#32, 0x80000003#32],
      (w.toNat % 16 = 0 ∨ 9 ≤ w.toNat % 16 ∨ 16 ≤ w.toNat) := by
  refine ⟨rfl, ?_⟩
  simp only [List.mem_cons, List.mem_nil_iff, or_false]
  rintro w (rfl | rfl | rfl | rfl | rfl) <;> decide

/-- The windows share the one address 0x1003. -/
theorem witness_OverlapFaultsAtAcceptance :
    let s : State := { windows memAaab 4#32 2#32 with dstAddr := 0x1003#32 }
    s.busy = false ∧ (∃ k j, k < s.srcLen.toNat ∧ j < s.dstCap.toNat ∧ s.src k = s.dst j) ∧
    Instr.count ≠ .encode ∧ Instr.count ≠ .decode :=
  ⟨rfl, ⟨3, 0, by decide, by decide, by decide⟩, by decide, by decide⟩

/-- A platform with a device at 0x1002 and one at 0x2000. -/
def devices : Platform :=
  { noRead := [], noWrite := [], device := [{ base := 0x1002#32, size := 1 }, { base := 0x2000#32, size := 1 }] }

/-- ENCODE runs over four source bytes and two destination bytes: the last of each, an address in neither, and a window
the running command does not have; a plain read of memory and of a device. -/
theorem witness_WindowRaceFaults :
    (let s := busyWith .encode (windows memAaab 4#32 2#32)
     s.running = some .encode ∧
     (readsSrc .encode = true ∧ ∃ k, k < s.srcLen.toNat ∧ 0x1003#32 = s.src k) ∧
     (writesDst .encode = true ∧ ∃ j, j < s.dstCap.toNat ∧ 0x2001#32 = s.dst j) ∧
     (∀ k, k < s.srcLen.toNat → 0x2002#32 ≠ s.src k) ∧ (∀ j, j < s.dstCap.toNat → 0x2002#32 ≠ s.dst j) ∧
     ∀ j, j < s.dstCap.toNat → 0x1003#32 ≠ s.dst j) ∧
    ((busyWith .count (windows memAaab 4#32 2#32)).running = some .count ∧ writesDst .count = false) ∧
    (windows memAaab 4#32 2#32).busy = false ∧ devices.isDevice 0x1002#32 = true ∧ devices.isDevice 0x1003#32 = false :=
  ⟨⟨rfl, ⟨rfl, 3, by decide, by decide⟩, ⟨rfl, 1, by decide, by decide⟩, by decide, by decide, by decide⟩,
    ⟨rfl, rfl⟩, rfl, by decide, by decide⟩

theorem witness_StepRunsDecodedCommand :
    (decode 2#32 = .cmd .count ∧ overlapHazard .count (windows memAaab 4#32 0#32) = false) ∧
    ((busyWith .count State.reset).running = some .count ∧ (busyWith .count State.reset).beats = []) ∧
    (let s := { busyWith .count State.reset with beats := [{ act := none, finish := true }] }
     s.running = some .count ∧ s.beats = { act := none, finish := true } :: []) ∧
    ({ State.reset with beats := [{ act := some .reset, finish := false }] } : State).beats =
      { act := some .reset, finish := false } :: [] ∧
    ({ State.reset with beats := [{ act := none, finish := false }] } : State).beats =
      { act := none, finish := false } :: [] := by decide +kernel

/-- Clauses of `StepRunsDecodedCommand` on a beat with an action and a completion: the action leaves COUNT running, leaves
the block idle, faults or is refused; and an idle block with no beat left or one of completion only. -/
theorem witness_StepRunsDecodedCommand_completing :
    (∃ t, hostAct (.regWrite Reg.srcLen.offset 4 1#32) (busyWith .count State.reset) = .next t ∧
      t.running = some .count) ∧
    (∃ t, hostAct .reset (busyWith .count State.reset) = .next t ∧ t.running = none) ∧
    hostAct (.memWrite 0x1000#32 0#8) (busyWith .count (windows memAaab 4#32 0#32)) =
      .fault (.windowRace 0x1000#32) ∧
    hostAct (.regRead 0x1#12 4) State.reset = .refused (.badRegisterAccess 0x1#12 4) ∧
    (State.reset.running = none ∧ State.reset.beats = []) ∧
    ({ State.reset with beats := [{ act := none, finish := true }] } : State).running = none :=
  ⟨⟨_, next_after (by decide +kernel), by decide +kernel⟩, ⟨_, next_after (by decide +kernel), by decide +kernel⟩,
    by unfold hostAct hostMemWrite; exact if_pos (by decide +kernel), rfl, ⟨rfl, rfl⟩, rfl⟩

/-- COUNT runs when the host's write, the acknowledgement or reset arrives with its completion, and BUILD_TREE without
a counted symbol completes with an error in such a step. -/
theorem witness_SimultaneousEvents :
    (∀ act ∈ [HostAct.regWrite Reg.cmd.offset 4 1#32, .regWrite Reg.irqStat.offset 4 7#32, .reset],
      let s : State := { busyWith .count (windows memAaab 4#32 0#32) with beats := [{ act := some act, finish := true }] }
      s.running = some .count ∧ s.beats = { act := some act, finish := true } :: [] ∧ ∃ t, step s = .next t) ∧
    let s : State := { busyWith .buildTree State.reset with
      beats := [{ act := some (.regWrite Reg.irqStat.offset 4 7#32), finish := true }] }
    ∃ t, step s = .next t ∧ t.errCode ≠ .success := by
  refine ⟨?_, _, next_after (by decide +kernel), by decide +kernel⟩
  intro act h
  simp only [List.mem_cons, List.mem_nil_iff, or_false] at h
  rcases h with rfl | rfl | rfl <;> exact ⟨rfl, rfl, _, next_after (by decide +kernel)⟩

/-- The destination window's one byte is a device's, and the command completes; COUNT of a window with a device faults. -/
theorem witness_EveryCommandCompletes :
    (let s : State := { withTable entriesAB memAaab 2#32 1#32 0#64 with platform := devices }
     s.SourceIsMemory ∧ (∀ i : Instr, overlapHazard i s = false) ∧ s.platform.isDevice (s.dst 0) = true ∧
     (after (exec .encode s)).outLen = 1#32) ∧
    (let s := busyWith .encode (windows memAaab 4#32 1#32)
     s.SourceIsMemory ∧ overlapHazard .encode s = false ∧ s.running = some .encode ∧ s.beats = []) ∧
    overlapHazard .decode { windows memAaab 4#32 2#32 with dstAddr := 0x1003#32 } = true ∧
    faultOf (exec .count { windows memAaab 4#32 0#32 with platform := devices }) = some (.sourceDevice 0x1002#32) :=
  ⟨⟨by unfold State.SourceIsMemory; decide, by intro i; cases i <;> decide, by decide, by decide +kernel⟩,
    ⟨by unfold State.SourceIsMemory; decide, by decide, rfl, rfl⟩, by decide, by decide +kernel⟩

/-- Each command completes with success from some state: the hypotheses of the frame statements. -/
theorem witness_success :
    (∃ t, exec .clear State.reset = .next t ∧ t.errCode = .success) ∧
    (∃ t, exec .count (windows memAaab 4#32 0#32) = .next t ∧ t.errCode = .success) ∧
    (∃ t, exec .buildTree { State.reset with freq := freqs [(0x61#8, 3#32), (0x62#8, 1#32)] } = .next t ∧
      t.errCode = .success) ∧
    (∃ t, exec .genCodes { State.reset with tree := some (.leaf 0x7A#8 4) } = .next t ∧ t.errCode = .success) ∧
    (∃ t, exec .encode (withTable entriesAB memAaab 4#32 1#32 0#64) = .next t ∧ t.errCode = .success) ∧
    (∃ t, exec .serialize (withTable entriesAB [] 0#32 16#32 4#64) = .next t ∧ t.errCode = .success) ∧
    (∃ t, exec .parse (windows memPadded 16#32 0#32) = .next t ∧ t.errCode = .success) ∧
    (∃ t, exec .decode (withTable entriesAB [(0x1000, 0x10#8)] 1#32 4#32 4#64) = .next t ∧ t.errCode = .success) := by
  refine ⟨?_, ?_, ?_, ?_, ?_, ?_, ?_, ?_⟩ <;> exact ⟨_, next_after (by decide +kernel), by decide +kernel⟩

/-- A platform on which a read of 0x1002 ends in a bus error. -/
def noThirdByte : Platform := { noRead := [{ base := 0x1002#32, size := 1 }], noWrite := [], device := [] }

/-- COUNT of "aaab" stopped by a bus error at its third byte. -/
def countStopped : State := { windows memAaab 4#32 0#32 with platform := noThirdByte }

/-- TOTAL is 2^32 - 2 and the window has two bytes (V-CT4). -/
def countFull : State := { windows memAaab 2#32 0#32 with freq := freqs [(0x41#8, 4294967294#32)] }

/-- Each command but CLEAR fails from some state that meets the invariant: the hypotheses of the error statements. -/
theorem witness_errors :
    (countFull.srcLen = 2#32 ∧ ∃ t, exec .count countFull = .next t ∧ t.errCode = .countOverflow) ∧
    (countStopped.Inv ∧ ∃ t, exec .count countStopped = .next t ∧ t.errCode = .busError) ∧
    (State.reset.Inv ∧ ∀ i ∈ [Instr.buildTree, .genCodes, .encode, .serialize, .parse, .decode],
      ∃ t, exec i State.reset = .next t ∧ t.errCode ≠ .success) := by
  refine ⟨⟨rfl, _, next_after (by decide +kernel), by decide +kernel⟩,
    ⟨inv_of _ [] rfl rfl rfl ⟨by simp, .nil⟩ rfl rfl rfl (by simp [countStopped, windows, State.reset]),
      _, next_after (by decide +kernel), by decide +kernel⟩,
    inv_of _ [] rfl rfl rfl ⟨by simp, .nil⟩ rfl rfl rfl (by simp [State.reset]), ?_⟩
  intro i h
  simp only [List.mem_cons, List.mem_nil_iff, or_false] at h
  rcases h with rfl | rfl | rfl | rfl | rfl | rfl <;> exact ⟨_, next_after (by decide +kernel), by decide +kernel⟩

/-- `countFull` meets the invariant. -/
theorem inv_countFull : countFull.Inv where
  memory := rfl
  total := by decide +kernel
  codesFit := (inv_windows [] 0#32 0#32 rfl).codesFit
  prefixFree := (inv_windows [] 0#32 0#32 rfl).prefixFree
  tree := by simp [countFull, windows, State.reset]
  accepted := by simp [countFull, windows, State.reset]
  apart := by simp [countFull, windows, State.reset]
  noInfo _ := rfl
  noOutput h := absurd rfl h
  noTreeFailure := by decide

theorem witness_CompletionEffects :
    (∃ t, exec .clear State.reset = .next t) ∧ State.reset.busy = false ∧ decode 9#32 = .illegal 9#32 ∧
    ∃ t, hostAct (.regWrite Reg.cmd.offset 4 9#32) State.reset = .next t :=
  ⟨⟨_, rfl⟩, rfl, by decide, _, next_after (by decide +kernel)⟩

theorem witness_CommandsKeepOperandRegisters :
    Memory.wf (withTable entriesAB memAaab 4#32 1#32 0#64).mem = true ∧
    (∃ t, exec .encode (withTable entriesAB memAaab 4#32 1#32 0#64) = .next t ∧ t.errCode = .success) ∧
    Memory.wf memPadded = true ∧ ∃ t, exec .parse (windows memPadded 16#32 0#32) = .next t ∧ t.errCode = .success :=
  ⟨rfl, witness_success.2.2.2.2.1, by decide, witness_success.2.2.2.2.2.2.1⟩

theorem witness_WhoWritesTheTables :
    (∃ t, exec .serialize (withTable entriesAB [] 0#32 16#32 4#64) = .next t) ∧
    ∃ t, exec .genCodes State.reset = .next t ∧ t.errCode ≠ .success :=
  ⟨witness_success.2.2.2.2.2.1.imp fun _ h => h.1, witness_errors.2.2.2 _ (by decide)⟩

theorem witness_MemoryOnlyInDestination :
    let s := withTable entriesAB memAaab 4#32 1#32 0#64
    Memory.wf s.mem = true ∧ (∃ t, exec .encode s = .next t ∧ t.errCode = .success) ∧
    s.OutsideDst s.dstCap.toNat 0x2001 ∧ s.OutsideDst s.dstCap.toNat 0x1FFF := by
  refine ⟨rfl, witness_success.2.2.2.2.1, ?_, ?_⟩ <;> unfold State.OutsideDst <;> decide

/-- ENCODE with an unknown symbol fails over a destination window of eight bytes, COUNT over none. -/
theorem witness_FailedWindowIsFree :
    (let s := withTable entriesA memAaab 4#32 8#32 0#64
     Memory.wf s.mem = true ∧ s.OutsideDst s.dstCap.toNat 0x2008 ∧
      ∃ t, exec .encode s = .next t ∧ t.errCode ≠ .success) ∧
    (Memory.wf countFull.mem = true ∧ ∃ t, exec .count countFull = .next t ∧ t.errCode ≠ .success) ∧
    State.reset.busy = false ∧ decode 9#32 = .illegal 9#32 ∧
    ∃ t, hostAct (.regWrite Reg.cmd.offset 4 9#32) State.reset = .next t :=
  ⟨⟨rfl, by unfold State.OutsideDst; decide, _, next_after (by decide +kernel), by decide +kernel⟩,
    ⟨rfl, _, next_after (by decide +kernel), by decide +kernel⟩, rfl, by decide, _, next_after (by decide +kernel)⟩

theorem witness_ErrorCodesPerCommand :
    Memory.wf (windows memAaab 4#32 0#32).mem = true ∧ ∃ t, exec .count (windows memAaab 4#32 0#32) = .next t :=
  ⟨rfl, witness_success.2.1.imp fun _ h => h.1⟩

theorem witness_ErrorStatePerCommand :
    (countFull.Inv ∧ ∃ t, exec .count countFull = .next t ∧ t.errCode = .countOverflow) ∧
    (countStopped.Inv ∧ ∃ t, exec .count countStopped = .next t ∧ t.errCode = .busError) ∧
    (State.reset.Inv ∧ ∃ t, exec .parse State.reset = .next t ∧ t.errCode ≠ .success) ∧
    State.reset.busy = false ∧ decode 0#32 = .illegal 0#32 ∧
    ∃ t, hostAct (.regWrite Reg.cmd.offset 4 0#32) State.reset = .next t :=
  ⟨⟨inv_countFull, witness_errors.1.2⟩, witness_errors.2.1,
    ⟨witness_errors.2.2.1, witness_errors.2.2.2 _ (by decide)⟩, rfl, by decide, _, next_after (by decide +kernel)⟩

/-- V-CT5: TOTAL reaches exactly 2^32 - 1. -/
theorem witness_CountAddsWindow :
    let s := { countFull with srcLen := 1#32 }
    s.total + s.srcLen.toNat ≤ 2 ^ 32 - 1 ∧ s.ReadableTo s.srcLen.toNat :=
  ⟨by decide +kernel, readable _ rfl _⟩

theorem witness_CountErrors :
    (2 ^ 32 - 1 < countFull.total + countFull.srcLen.toNat) ∧
    (countStopped.total + countStopped.srcLen.toNat ≤ 2 ^ 32 - 1 ∧ 2 < countStopped.srcLen.toNat ∧
      countStopped.ReadableTo 2 ∧ countStopped.platform.busOk .read (countStopped.src 2) = false) ∧
    let s : State := { windows memAaab 3#32 0#32 with platform := devices }
    s.total + s.srcLen.toNat ≤ 2 ^ 32 - 1 ∧ 2 < s.srcLen.toNat ∧ s.ReadableTo 2 ∧
    s.platform.busOk .read (s.src 2) = true ∧ s.platform.isDevice (s.src 2) = true :=
  ⟨by decide +kernel, ⟨by decide +kernel, by decide, by unfold State.ReadableTo; decide, by decide⟩,
    by decide +kernel, by decide, by unfold State.ReadableTo; decide, by decide, by decide⟩

/-- "aa" at 0x1000, "ab" at 0x1002, and both as one window. -/
theorem witness_CountAccumulates :
    let s := windows memAaab 0#32 0#32
    (4#32 : Word).toNat = (2#32 : Word).toNat + (2#32 : Word).toNat ∧ s.total + (4#32 : Word).toNat ≤ 2 ^ 32 - 1 ∧
    ({ s with srcAddr := 0x1000#32, srcLen := 2#32 } : State).ReadableTo 2 ∧
    ({ s with srcAddr := 0x1002#32, srcLen := 2#32 } : State).ReadableTo 2 ∧
    ({ s with srcAddr := 0x1000#32, srcLen := 4#32 } : State).ReadableTo 4 ∧
    ({ s with srcAddr := 0x1000#32, srcLen := 4#32 } : State).srcBytes =
      ({ s with srcAddr := 0x1000#32, srcLen := 2#32 } : State).srcBytes ++
        ({ s with srcAddr := 0x1002#32, srcLen := 2#32 } : State).srcBytes :=
  ⟨by decide, by decide +kernel, readable _ rfl _, readable _ rfl _, readable _ rfl _, by decide +kernel⟩

theorem witness_MissingInputErrors :
    (∀ x, State.reset.freqOf x = 0#32) ∧ State.reset.tree = none ∧ State.reset.tabNsym = 0 ∧
    State.reset.WindowsApart ∧
    (let s := withTable entriesAB [] 0#32 15#32 4#64; s.tabNsym ≠ 0 ∧ s.dstCap.toNat < s.hdrSize) :=
  ⟨fun x => tabGet_zeroFreq x, rfl, by decide +kernel, apart _ (by decide), by decide +kernel⟩

theorem witness_BuildTreeBuilds :
    (let s : State := { State.reset with freq := freqs [(0x61#8, 3#32), (0x62#8, 1#32)] }
     (∃ x, s.freqOf x ≠ 0#32) ∧ s.total ≤ 2 ^ 32 - 1) ∧
    let s : State := { State.reset with freq := freqs [(0x7A#8, 4#32)] }
    (∃ x, s.freqOf x ≠ 0#32) ∧ ∀ y, s.freqOf y ≠ 0#32 ↔ y = 0x7A#8 := by
  refine ⟨⟨⟨0x61#8, by decide +kernel⟩, by decide +kernel⟩, ⟨0x7A#8, by decide +kernel⟩, fun y => ?_⟩
  show tabGet (tabSet zeroFreq 0x7A#8 4#32) y ≠ 0#32 ↔ _
  rw [tabGet_tabSet]
  by_cases h : y = 0x7A#8 <;> simp [h]

theorem witness_NodeOrder :
    (let x := Machine.Tree.leaf 0x61#8 1
     let y := Machine.Tree.leaf 0x62#8 1
     let z := Machine.Tree.node 1 256 x y
     precedes x y = true ∧ precedes y z = true ∧ x.key ≠ y.key) ∧
    (0x61#8 : Byte).toNat < (0x62#8 : Byte).toNat ∧ (0 : Nat) < 1 := by decide

theorem witness_MergeTakesTwoLeast :
    let q := [Machine.Tree.leaf 0x62#8 1, .leaf 0x61#8 3]
    (q.Pairwise fun x y => precedes x y = true) ∧ (∀ z ∈ q, z.key < 256 + 0) ∧
    buildTree (freqs [(0x61#8, 3#32), (0x62#8, 1#32)]) = some (.node 4 256 (.leaf 0x61#8 3) (.leaf 0x62#8 1)) := by
  decide +kernel

theorem witness_GenCodesWritesPaths :
    let one := Machine.Tree.leaf 0x7A#8 4
    let two := Machine.Tree.node 4 256 (.leaf 0x61#8 3) (.leaf 0x62#8 1)
    (({ State.reset with tree := some one } : State).tree = some one ∧ (one.leaves.map (·.1)).Nodup) ∧
    (({ State.reset with tree := some two } : State).tree = some two ∧ (two.leaves.map (·.1)).Nodup ∧
      (0x62#8, [true]) ∈ two.paths ∧ 0x63#8 ∉ two.leaves.map (·.1)) := by decide +kernel

/-- Trees of one leaf and of two that are trees of their counts. -/
theorem witness_GenCodesTableProperties :
    (let s : State := { State.reset with freq := freqs [(0x7A#8, 4#32)], tree := some (.leaf 0x7A#8 4) }
     TreeOf s.freq (.leaf 0x7A#8 4) ∧ s.tree = some (.leaf 0x7A#8 4)) ∧
    let tr := Machine.Tree.node 4 256 (.leaf 0x61#8 3) (.leaf 0x62#8 1)
    let s : State := { State.reset with freq := freqs [(0x61#8, 3#32), (0x62#8, 1#32)], tree := some tr }
    TreeOf s.freq tr ∧ s.tree = some tr ∧ 2 ≤ tr.leaves.length := by
  have h1 : countedSymbols (freqs [(0x7A#8, 4#32)]) = [(0x7A#8, 4)] := by decide +kernel
  have h2 : countedSymbols (freqs [(0x61#8, 3#32), (0x62#8, 1#32)]) = [(0x61#8, 3), (0x62#8, 1)] := by decide +kernel
  refine ⟨⟨⟨?_, trivial⟩, rfl⟩, ⟨?_, rfl, trivial, trivial⟩, rfl, by decide⟩
  · show List.Perm [(0x7A#8, 4)] _
    rw [h1]
  · show List.Perm [(0x61#8, 3), (0x62#8, 1)] _
    rw [h2]

theorem witness_CodesDependOnCountsOnly :
    let s₁ : State := { State.reset with freq := freqs [(0x7A#8, 4#32)] }
    let s₂ : State := { windows memAaab 4#32 1#32 with freq := freqs [(0x7A#8, 4#32)] }
    s₁.freq = s₂.freq ∧ ∃ x, s₁.freqOf x ≠ 0#32 := ⟨rfl, 0x7A#8, by decide +kernel⟩

/-- Eight bits fill one byte exactly, and an empty source needs none. -/
theorem witness_EncodePacksWindow :
    (let s := withTable entriesAB (memAaab ++ [(0x1004, 0x62#8), (0x1005, 0x62#8), (0x1006, 0x61#8), (0x1007, 0x61#8)])
       8#32 1#32 0#64
     Memory.wf s.mem = true ∧ s.WindowsApart ∧ s.tabNsym ≠ 0 ∧ s.ReadableTo s.srcLen.toNat ∧
     (∀ x ∈ s.srcBytes, s.codeOf x ≠ []) ∧ (codeBits s.code s.srcBytes).length = 8 * s.dstCap.toNat ∧
     s.WritableTo (ceil8 (codeBits s.code s.srcBytes).length)) ∧
    let s := withTable entriesAB [] 0#32 0#32 0#64
    Memory.wf s.mem = true ∧ s.WindowsApart ∧ s.tabNsym ≠ 0 ∧ s.ReadableTo s.srcLen.toNat ∧
    (∀ x ∈ s.srcBytes, s.codeOf x ≠ []) ∧ (codeBits s.code s.srcBytes).length ≤ 8 * s.dstCap.toNat ∧
    s.WritableTo (ceil8 (codeBits s.code s.srcBytes).length) ∧ s.srcLen = 0#32 :=
  ⟨⟨by decide, apart _ (by decide), by decide +kernel, readable _ rfl _, by decide +kernel, by decide +kernel,
      writable _ rfl _⟩,
    rfl, apart _ (by decide), by decide +kernel, readable _ rfl _, by decide +kernel, by decide +kernel,
      writable _ rfl _, rfl⟩

/-- "aaab" with the table A = "01": its first byte is unknown; with a = "0", b = "1" and no room, its first bit is
too many. -/
theorem witness_EncodeErrors :
    (let s := withTable entriesA memAaab 4#32 1#32 0#64
     Memory.wf s.mem = true ∧ s.WindowsApart ∧ s.tabNsym ≠ 0 ∧ (∀ i, i < 0 → s.codeOf (s.srcByte i) ≠ []) ∧
     0 < s.srcLen.toNat ∧ s.ReadableTo 1 ∧ s.codeOf (s.srcByte 0) = [] ∧
     (codeBits s.code ((List.range 0).map s.srcByte)).length ≤ 8 * s.dstCap.toNat ∧
     s.WritableTo ((codeBits s.code ((List.range 0).map s.srcByte)).length / 8)) ∧
    let s := withTable entriesAB memAaab 4#32 0#32 0#64
    Memory.wf s.mem = true ∧ s.WindowsApart ∧ s.tabNsym ≠ 0 ∧ (∀ i, i < 1 → s.codeOf (s.srcByte i) ≠ []) ∧
    1 ≤ s.srcLen.toNat ∧ s.ReadableTo 1 ∧
    8 * s.dstCap.toNat < (codeBits s.code ((List.range 1).map s.srcByte)).length ∧ s.WritableTo s.dstCap.toNat :=
  ⟨⟨rfl, apart _ (by decide), by decide +kernel, by simp, by decide, readable _ rfl _, by decide +kernel,
      by decide +kernel, writable _ rfl _⟩,
    rfl, apart _ (by decide), by decide +kernel, by decide +kernel, by decide, readable _ rfl _, by decide +kernel,
      writable _ rfl _⟩

/-- A platform on which writes of 0x2001 end in a bus error. -/
def noSecondWrite : Platform := { noRead := [], noWrite := [{ base := 0x2001#32, size := 1 }], device := [] }

/-- BUS_ERROR and the device fault of ENCODE: V-EN10's third byte, and a device there; the second of two destination
bytes, completed by sixteen symbols, or padded behind nine. -/
theorem witness_EncodeErrors_bus :
    (∀ p ∈ [noThirdByte, devices],
      let s : State := { withTable entriesAB memAaab 3#32 8#32 0#64 with platform := p }
      Memory.wf s.mem = true ∧ s.WindowsApart ∧ s.tabNsym ≠ 0 ∧ (∀ i, i < 2 → s.codeOf (s.srcByte i) ≠ []) ∧
      2 < s.srcLen.toNat ∧ s.ReadableTo 2 ∧
      (codeBits s.code ((List.range 2).map s.srcByte)).length ≤ 8 * s.dstCap.toNat ∧
      s.WritableTo ((codeBits s.code ((List.range 2).map s.srcByte)).length / 8)) ∧
    noThirdByte.busOk .read 0x1002#32 = false ∧
    (devices.busOk .read 0x1002#32 = true ∧ devices.isDevice 0x1002#32 = true) ∧
    ∀ n ∈ [9#32, 16#32],
      let s : State := { withTable [(0x00#8, [true])] [] n 2#32 0#64 with platform := noSecondWrite }
      Memory.wf s.mem = true ∧ s.WindowsApart ∧ s.tabNsym ≠ 0 ∧ (∀ i, i < n.toNat → s.codeOf (s.srcByte i) ≠ []) ∧
      s.ReadableTo n.toNat ∧ 1 < s.dstCap.toNat ∧ s.WritableTo 1 ∧ s.platform.busOk .write (s.dst 1) = false ∧
      n = s.srcLen ∧ (codeBits s.code ((List.range n.toNat).map s.srcByte)).length = n.toNat := by
  refine ⟨?_, by decide, by decide, ?_⟩
  · intro p h
    simp only [List.mem_cons, List.mem_nil_iff, or_false] at h
    rcases h with rfl | rfl <;>
    exact ⟨rfl, apart _ (by decide), by decide +kernel, by decide +kernel, by decide, by unfold State.ReadableTo; decide,
      by decide +kernel, fun j _ => rfl⟩
  · intro n h
    simp only [List.mem_cons, List.mem_nil_iff, or_false] at h
    rcases h with rfl | rfl <;>
    exact ⟨rfl, apart _ (by decide), by decide +kernel, by decide +kernel, fun j _ => rfl, by decide,
      by unfold State.WritableTo; decide, by decide, rfl, by decide +kernel⟩

/-- The counters are those of the window that is encoded. -/
theorem witness_EncodeBitCount :
    (let s := withTable entriesAB memAaab 4#32 1#32 0#64
     s.Inv ∧ ∃ t, exec .encode s = .next t ∧ t.errCode = .success) ∧
    let s := { withTable entriesAB memAaab 4#32 1#32 0#64 with freq := freqs [(0x61#8, 3#32), (0x62#8, 1#32)] }
    ∀ n : Fin 256, (s.freqOf (BitVec.ofFin n)).toNat = s.srcBytes.count (BitVec.ofFin n) :=
  ⟨⟨inv_withTable _ agreeAB _ _ _ _ rfl, witness_success.2.2.2.2.1⟩, by decide +kernel⟩

/-- The header needs exactly DST_CAP bytes; or its second byte cannot be written. -/
theorem witness_SerializeWritesHeader :
    (let s := withTable entriesAB [] 0#32 16#32 4#64
     Memory.wf s.mem = true ∧ s.tabNsym ≠ 0 ∧ s.hdrSize = s.dstCap.toNat ∧ s.WritableTo s.hdrSize) ∧
    let s : State := { withTable entriesAB [] 0#32 16#32 4#64 with platform := noSecondWrite }
    s.tabNsym ≠ 0 ∧ s.hdrSize ≤ s.dstCap.toNat ∧ 1 < s.hdrSize ∧ s.WritableTo 1 ∧
    s.platform.busOk .write (s.dst 1) = false :=
  ⟨⟨rfl, by decide +kernel, by decide +kernel, writable _ rfl _⟩,
    by decide +kernel, by decide +kernel, by decide +kernel, by unfold State.WritableTo; decide, by decide⟩

theorem witness_HeaderLayout :
    (let es := List.replicate 256 ((0x61#8 : Byte), List.replicate 249 true)
     es.length = 256 ∧ ∀ e ∈ es, 249 ≤ e.2.length ∧ e.2.length ≤ 255) ∧
    (entriesA.length = 1 ∧ ∀ e ∈ [((0x61#8 : Byte), [true])], e.2.length = 1) ∧
    (withTable entriesAB [] 0#32 16#32 4#64).tabNsym ≠ 0 ∧
    entriesAB.length < 2 ^ 16 ∧ 4 < 2 ^ 64 ∧ entriesAB ≠ [] ∧ entriesAB.length ≤ 256 ∧
    (∀ e ∈ entriesAB, 1 ≤ e.2.length ∧ e.2.length ≤ 255) ∧ (List.replicate 255 true).length ≤ 255 := by decide +kernel

/-- The bytes of the entries of V-PA12, padding bits 1. -/
def partsPadded : List (List Byte) := [[0x61#8, 0x01#8, 0x7F#8], [0x62#8, 0x01#8, 0xFF#8]]

theorem fitsPadded : List.Forall₂ EntryFits entriesAB partsPadded :=
  .cons ⟨[0x7F#8], rfl, by decide, by decide⟩ (.cons ⟨[0xFF#8], rfl, by decide, by decide⟩ .nil)

/-- The 16 bytes of the header of V-PA12. -/
def headerPadded : List Byte := beBytes 2 2 ++ partsPadded.flatten ++ beBytes 8 4

/-- The bytes of a window, looked at one by one. -/
theorem holds_of (s : State) (bs : List Byte) (h : ∀ k : Fin bs.length, s.srcByte (0 + k.val) = bs.getD k.val 0#8) :
    HoldsAt s 0 bs := fun k hk => h ⟨k, hk⟩

/-- The window is exactly the header. -/
theorem witness_ParseAcceptsHeader :
    let s := windows memPadded 16#32 0#32
    entriesAB ≠ [] ∧ EntriesAgree entriesAB ∧ 4 < 2 ^ 64 ∧ HeaderFits entriesAB 4 headerPadded ∧
    HoldsAt s 0 headerPadded ∧ headerPadded.length = s.srcLen.toNat ∧ s.ReadableTo headerPadded.length :=
  ⟨by decide, agreeAB, by decide, ⟨partsPadded, fitsPadded, rfl⟩, holds_of _ _ (by decide +kernel), by decide,
    readable _ rfl _⟩

theorem witness_HeaderRoundTrip :
    let s := withTable entriesAB [] 0#32 16#32 4#64
    s.Inv ∧ s.tabNsym ≠ 0 ∧ s.hdrSize ≤ s.dstCap.toNat ∧ s.WritableTo s.hdrSize ∧ s.hdrSize ≤ (16#32 : Word).toNat ∧
    ({ s with srcAddr := s.dstAddr, srcLen := 16#32 } : State).ReadableTo s.hdrSize :=
  ⟨inv_withTable _ agreeAB _ _ _ _ rfl, by decide +kernel, by decide +kernel, writable _ rfl _, by decide +kernel,
    readable _ rfl _⟩

theorem witness_ParseErrorEmptiesTable :
    ∃ t, exec .parse (withTable entriesAB [] 0#32 0#32 99#64) = .next t ∧ t.errCode ≠ .success ∧ t.WindowsApart :=
  ⟨_, next_after (by decide +kernel), by decide +kernel, apart _ (by decide +kernel)⟩

/-- No byte; the count's first byte; a cut inside an entry that repeats the symbol of the one before it, and inside the
total: each asks for a byte. -/
theorem headerStarts :
    HeaderStart [] ∧ HeaderStart [0#8] ∧
    HeaderStart (beBytes 2 2 ++ ([[0x61#8, 0x01#8, 0x00#8]] : List (List Byte)).flatten ++ [0x61#8, 0x01#8]) ∧
    HeaderStart (beBytes 2 2 ++ partsPadded.flatten ++ [0#8, 0#8, 0#8, 0#8, 0#8, 0#8, 0#8]) :=
  ⟨.inl (by decide), .inl (by decide),
    .inr ⟨2, [(0x61#8, [false])], [[0x61#8, 0x01#8, 0x00#8]], _, by decide, by decide, by unfold EntriesAgree; decide,
      .cons ⟨[0x00#8], rfl, by decide, by decide⟩ .nil, rfl,
      .inl ⟨by decide, (0x61#8, [true]), [0x80#8], by decide, by decide, by decide, [0x80#8], rfl, by decide, by decide⟩⟩,
    .inr ⟨2, entriesAB, partsPadded, _, by decide, by decide, agreeAB, fitsPadded, rfl, .inr ⟨by decide, by decide⟩⟩⟩

/-- A header cut after none, and after two bytes of an entry that repeats a symbol; its third byte not readable, or a
device's; a count of 0 and of 257; a length byte 0 in entry 0. -/
theorem witness_ParseMalformedHeader :
    (let s := windows [] 0#32 0#32
     HeaderStart [] ∧ HoldsAt s 0 [] ∧ s.ReadableTo 0 ∧ s.srcLen.toNat = ([] : List Byte).length) ∧
    (let s := windows [(0x1001, 0x02#8), (0x1002, 0x61#8), (0x1003, 0x01#8), (0x1005, 0x61#8), (0x1006, 0x01#8)] 7#32 0#32
     let bs := beBytes 2 2 ++ ([[0x61#8, 0x01#8, 0x00#8]] : List (List Byte)).flatten ++ [0x61#8, 0x01#8]
     HeaderStart bs ∧ HoldsAt s 0 bs ∧ s.ReadableTo bs.length ∧ s.srcLen.toNat = bs.length) ∧
    (∀ p ∈ [noThirdByte, devices], let s : State := { windows memPadded 16#32 0#32 with platform := p }
     HeaderStart [0#8, 2#8] ∧ HoldsAt s 0 [0#8, 2#8] ∧ s.ReadableTo 2 ∧ 2 < s.srcLen.toNat) ∧
    (noThirdByte.busOk .read 0x1002#32 = false ∧ devices.busOk .read 0x1002#32 = true ∧
      devices.isDevice 0x1002#32 = true) ∧
    (∀ m ∈ [[], [(0x1000, 0x01#8), (0x1001, 0x01#8)]], let s := windows m 2#32 0#32
     2 ≤ s.srcLen.toNat ∧ s.ReadableTo 2 ∧
     ((s.srcByte 0).toNat * 256 + (s.srcByte 1).toNat = 0 ∨ 256 < (s.srcByte 0).toNat * 256 + (s.srcByte 1).toNat)) ∧
    let s := windows [(0x1001, 0x02#8), (0x1002, 0x61#8)] 4#32 0#32
    EntriesAgree [] ∧ List.Forall₂ EntryFits [] [] ∧ ([] : List (Byte × Code)).length < 2 ∧ 2 ≤ 256 ∧
    HoldsAt s 0 (beBytes 2 2 ++ ([] : List (List Byte)).flatten ++ [0x61#8, 0#8]) ∧
    2 + ([] : List (List Byte)).flatten.length + 2 ≤ s.srcLen.toNat ∧
    s.ReadableTo (2 + ([] : List (List Byte)).flatten.length + 2) := by
  refine ⟨⟨headerStarts.1, fun k hk => by simp at hk, readable _ rfl _, rfl⟩,
    ⟨headerStarts.2.2.1, holds_of _ _ (by decide +kernel), readable _ rfl _, by decide⟩, ?_, by decide, ?_,
    ⟨by simp, .nil⟩, .nil, by decide, by decide, holds_of _ _ (by decide +kernel), by decide, readable _ rfl _⟩
  · intro p h
    simp only [List.mem_cons, List.mem_nil_iff, or_false] at h
    have hs : HeaderStart [0#8, 2#8] :=
      .inr ⟨2, [], [], [], by decide, by decide, ⟨by simp, .nil⟩, .nil, by decide,
        .inl ⟨by decide, (0x61#8, [false]), [0x61#8, 0x01#8, 0x00#8], by decide, by decide, by decide,
          [0x00#8], rfl, by decide, by decide⟩⟩
    rcases h with rfl | rfl <;>
    exact ⟨hs, holds_of _ _ (by decide +kernel), by unfold State.ReadableTo; decide, by decide⟩
  · intro m h
    simp only [List.mem_cons, List.mem_nil_iff, or_false] at h
    rcases h with rfl | rfl
    · exact ⟨by decide, readable _ rfl _, by decide⟩
    · exact ⟨by decide, readable _ rfl _, by decide⟩

/-- V-PA10: a = "0" is a prefix of b = "01". -/
theorem witness_ParseRejectsConflict :
    let s := windows memConflict 16#32 0#32
    let e : Byte × Code := (0x62#8, [false, true])
    EntriesAgree [(0x61#8, [false])] ∧ List.Forall₂ EntryFits [(0x61#8, [false])] [[0x61#8, 0x01#8, 0x00#8]] ∧
    [((0x61#8 : Byte), [false])].length < 2 ∧ 2 ≤ 256 ∧ 1 ≤ e.2.length ∧ e.2.length ≤ 255 ∧
    EntryFits e [0x62#8, 0x02#8, 0x40#8] ∧
    (∃ f ∈ [((0x61#8 : Byte), [false])], f.1 = e.1 ∨ f.2 <+: e.2 ∨ e.2 <+: f.2) ∧
    HoldsAt s 0 (beBytes 2 2 ++ [[0x61#8, 0x01#8, 0x00#8]].flatten ++ [0x62#8, 0x02#8, 0x40#8]) ∧
    2 + ([[0x61#8, 0x01#8, 0x00#8]] : List (List Byte)).flatten.length + 3 ≤ s.srcLen.toNat ∧ s.ReadableTo 8 :=
  ⟨by unfold EntriesAgree; decide, .cons ⟨[0x00#8], rfl, by decide, by decide⟩ .nil, by decide, by decide, by decide,
    by decide, ⟨[0x40#8], rfl, by decide, by decide⟩, by decide, holds_of _ _ (by decide +kernel), by decide,
    readable _ rfl _⟩

/-- GEN_CODES of a two-leaf tree that is a tree of its counts, from a state that meets the invariant. -/
theorem witness_CodeTableStaysSound :
    let tr := Machine.Tree.node 4 256 (.leaf 0x61#8 3) (.leaf 0x62#8 1)
    let s : State := { State.reset with freq := freqs [(0x61#8, 3#32), (0x62#8, 1#32)], tree := some tr }
    s.Inv ∧ ∃ t, exec .genCodes s = .next t ∧ t.errCode = .success ∧ 2 ≤ t.tabNsym := by
  refine ⟨⟨rfl, by decide +kernel, (inv_windows [] 0#32 0#32 rfl).codesFit, (inv_windows [] 0#32 0#32 rfl).prefixFree,
    ?_, by simp [State.reset], by simp [State.reset], fun _ => rfl, fun h => absurd rfl h, by decide⟩,
    _, next_after (by decide +kernel), by decide +kernel, by decide +kernel⟩
  intro t h
  cases h
  exact witness_GenCodesTableProperties.2.1

/-- "aaab" from 0x10 into exactly four bytes, and the empty payload. -/
theorem witness_DecodeReadsPayload :
    (let s := withTable entriesAB [(0x1000, 0x1F#8)] 1#32 4#32 4#64
     let xs := [0x61#8, 0x61#8, 0x61#8, 0x62#8]
     Memory.wf s.mem = true ∧ PrefixFree s.code ∧ s.WindowsApart ∧ s.tabNsym ≠ 0 ∧ (∀ x ∈ xs, s.codeOf x ≠ []) ∧
     s.bitcnt.toNat = (codeBits s.code xs).length ∧ s.srcLen.toNat = ceil8 s.bitcnt.toNat ∧
     s.ReadableTo s.srcLen.toNat ∧ (∀ k, k < s.bitcnt.toNat → s.srcBit k = (codeBits s.code xs).getD k false) ∧
     xs.length = s.dstCap.toNat ∧ s.WritableTo xs.length) ∧
    let s := withTable entriesAB [] 0#32 0#32 0#64
    Memory.wf s.mem = true ∧ PrefixFree s.code ∧ s.WindowsApart ∧ s.tabNsym ≠ 0 ∧
    s.bitcnt.toNat = (codeBits s.code []).length ∧ s.srcLen.toNat = ceil8 s.bitcnt.toNat :=
  ⟨⟨rfl, freeAB, apart _ (by decide), by decide +kernel, by decide +kernel, by decide +kernel, by decide,
      readable _ rfl _, by decide +kernel, rfl, writable _ rfl _⟩,
    rfl, freeAB, apart _ (by decide), by decide +kernel, by decide, by decide⟩

theorem witness_DecodeConsumesAllBits :
    let s := withTable entriesAB [(0x1000, 0x10#8)] 1#32 4#32 4#64
    s.Inv ∧ ∃ t, exec .decode s = .next t ∧ t.errCode = .success :=
  ⟨inv_withTable _ agreeAB _ _ _ _ (by decide), witness_success.2.2.2.2.2.2.2⟩

/-- The table A = "01": a payload of another length, "11" of MAXLEN bits (V-DE15), and "0" left over at the end. -/
theorem witness_DecodeTruncatedStream :
    (let s := withTable entriesA [] 1#32 1#32 0#64
     s.WindowsApart ∧ s.tabNsym ≠ 0 ∧ s.srcLen.toNat ≠ ceil8 s.bitcnt.toNat) ∧
    (∀ c ∈ [(([] : List Byte), ([true, true] : Code), 0xC0#8, 2#64), ([0x41#8], [false], 0x40#8, 3#64)],
      let s := withTable entriesA [(0x1000, c.2.2.1)] 1#32 1#32 c.2.2.2
      Memory.wf s.mem = true ∧ PrefixFree s.code ∧ s.WindowsApart ∧ s.tabNsym ≠ 0 ∧
      s.srcLen.toNat = ceil8 s.bitcnt.toNat ∧ (∀ x ∈ c.1, s.codeOf x ≠ []) ∧ c.2.1 ≠ [] ∧
      (∀ m, 1 ≤ m → m ≤ c.2.1.length → ∀ x, s.codeOf x ≠ c.2.1.take m) ∧
      (codeBits s.code c.1).length + c.2.1.length ≤ s.bitcnt.toNat ∧
      s.ReadableTo (ceil8 ((codeBits s.code c.1).length + c.2.1.length)) ∧
      (∀ k, k < (codeBits s.code c.1 ++ c.2.1).length → s.srcBit k = (codeBits s.code c.1 ++ c.2.1).getD k false) ∧
      c.1.length ≤ s.dstCap.toNat ∧ s.WritableTo c.1.length) ∧
    (withTable entriesA [] 1#32 1#32 2#64).maxlen = 2 ∧
    (codeBits (tableOf entriesA) [0x41#8]).length + [false].length = (3#64).toNat := by
  have code : ∀ x, tabGet (tableOf entriesA) x = [] ∨ tabGet (tableOf entriesA) x = [false, true] := by
    intro x
    by_cases h : x = 0x41#8
    · right; subst h; decide +kernel
    · left; exact (tabGet_tableOf agreeA).2 x (by simpa [entriesA] using h)
  have unmatched (c : Code) (h : ∀ m, m < c.length → c.take (m + 1) ≠ [] ∧ c.take (m + 1) ≠ [false, true]) :
      ∀ m, 1 ≤ m → m ≤ c.length → ∀ x, tabGet (tableOf entriesA) x ≠ c.take m := by
    intro m h1 h2 x hx
    obtain ⟨k, rfl⟩ : ∃ k, m = k + 1 := ⟨m - 1, by omega⟩
    obtain ⟨h3, h4⟩ := h k (by omega)
    rcases code x with h5 | h5
    · exact h3 (hx.symm.trans h5)
    · exact h4 (hx.symm.trans h5)
  refine ⟨⟨apart _ (by decide), by decide +kernel, by decide⟩, ?_, by decide +kernel, by decide +kernel⟩
  intro c h
  simp only [List.mem_cons, List.mem_nil_iff, or_false] at h
  rcases h with rfl | rfl
  · exact ⟨by decide, freeA, apart _ (by decide), by decide +kernel, by decide, by simp, by decide,
      unmatched _ (by decide), by decide +kernel, readable _ rfl _, by decide +kernel, by decide, writable _ rfl _⟩
  · exact ⟨by decide, freeA, apart _ (by decide), by decide +kernel, by decide, by decide +kernel, by decide,
      unmatched _ (by decide), by decide +kernel, readable _ rfl _, by decide +kernel, by decide, writable _ rfl _⟩

/-- V-DE3: the fourth symbol overflows three bytes. -/
theorem witness_DecodeOverflow :
    let s := withTable entriesAB [(0x1000, 0x10#8)] 1#32 3#32 4#64
    let xs := [0x61#8, 0x61#8, 0x61#8]
    Memory.wf s.mem = true ∧ PrefixFree s.code ∧ s.WindowsApart ∧ s.tabNsym ≠ 0 ∧
    s.srcLen.toNat = ceil8 s.bitcnt.toNat ∧ (∀ y ∈ xs ++ [0x62#8], s.codeOf y ≠ []) ∧
    (codeBits s.code (xs ++ [0x62#8])).length ≤ s.bitcnt.toNat ∧
    s.ReadableTo (ceil8 (codeBits s.code (xs ++ [0x62#8])).length) ∧
    (∀ k, k < (codeBits s.code (xs ++ [0x62#8])).length →
      s.srcBit k = (codeBits s.code (xs ++ [0x62#8])).getD k false) ∧
    xs.length = s.dstCap.toNat ∧ s.WritableTo xs.length :=
  ⟨by decide, freeAB, apart _ (by decide), by decide +kernel, by decide, by decide +kernel, by decide +kernel,
    readable _ rfl _, by decide +kernel, rfl, writable _ rfl _⟩

/-- BUS_ERROR and the device fault of DECODE: the second symbol's byte cannot be written; the third payload byte cannot
be read, or is a device's, behind sixteen symbols. -/
theorem witness_DecodeOverflow_bus :
    (let s : State := { withTable entriesAB [(0x1000, 0x10#8)] 1#32 4#32 4#64 with platform := noSecondWrite }
     let xs := [0x61#8]
     Memory.wf s.mem = true ∧ PrefixFree s.code ∧ s.WindowsApart ∧ s.tabNsym ≠ 0 ∧
     s.srcLen.toNat = ceil8 s.bitcnt.toNat ∧ (∀ y ∈ xs ++ [0x61#8], s.codeOf y ≠ []) ∧
     (codeBits s.code (xs ++ [0x61#8])).length ≤ s.bitcnt.toNat ∧
     s.ReadableTo (ceil8 (codeBits s.code (xs ++ [0x61#8])).length) ∧
     (∀ k, k < (codeBits s.code (xs ++ [0x61#8])).length →
       s.srcBit k = (codeBits s.code (xs ++ [0x61#8])).getD k false) ∧
     s.WritableTo xs.length ∧ xs.length < s.dstCap.toNat ∧ s.platform.busOk .write (s.dst xs.length) = false) ∧
    (∀ p ∈ [noThirdByte, devices],
      let s : State := { withTable entriesAB [] 3#32 16#32 17#64 with platform := p }
      let xs := List.replicate 16 0x61#8
      let rest : Code := []
      Memory.wf s.mem = true ∧ PrefixFree s.code ∧ s.WindowsApart ∧ s.tabNsym ≠ 0 ∧
      s.srcLen.toNat = ceil8 s.bitcnt.toNat ∧ (∀ x ∈ xs, s.codeOf x ≠ []) ∧ rest.length < s.maxlen ∧
      (∀ m, 1 ≤ m → m ≤ rest.length → ∀ x, s.codeOf x ≠ rest.take m) ∧
      (codeBits s.code xs ++ rest).length = 8 * 2 ∧ 8 * 2 < s.bitcnt.toNat ∧ s.ReadableTo 2 ∧
      (∀ k, k < 8 * 2 → s.srcBit k = (codeBits s.code xs ++ rest).getD k false) ∧ xs.length ≤ s.dstCap.toNat ∧
      s.WritableTo xs.length) ∧
    (noThirdByte.busOk .read 0x1002#32 = false ∧ devices.busOk .read 0x1002#32 = true ∧
      devices.isDevice 0x1002#32 = true) := by
  refine ⟨⟨by decide, freeAB, apart _ (by decide), by decide +kernel, by decide, by decide +kernel, by decide +kernel,
    fun j _ => rfl, by decide +kernel, by unfold State.WritableTo; decide, by decide, by decide⟩, ?_, by decide⟩
  intro p h
  simp only [List.mem_cons, List.mem_nil_iff, or_false] at h
  rcases h with rfl | rfl <;>
  exact ⟨rfl, freeAB, apart _ (by decide), by decide +kernel, by decide, by decide +kernel, by decide +kernel,
    fun m h1 h2 => by simp at h2; omega, by decide +kernel, by decide, by unfold State.ReadableTo; decide,
    by decide +kernel, by decide, fun j _ => rfl⟩

/-- "aaab" encodes into one byte at 0x2000 and decodes into four at 0x3000. -/
theorem witness_EncodeDecodeRoundTrip :
    (let s := windows memAaab 4#32 1#32
     Memory.wf s.mem = true ∧ s.srcLen ≠ 0#32 ∧ s.WindowsApart ∧ s.ReadableTo s.srcLen.toNat ∧
     s.WritableTo s.dstCap.toNat ∧
     ({ s with srcAddr := s.dstAddr, srcLen := s.dstCap } : State).ReadableTo s.dstCap.toNat ∧
     ({ s with srcAddr := s.dstAddr, srcLen := s.dstCap, dstAddr := 0x3000#32, dstCap := 4#32 } : State).WindowsApart ∧
     s.srcLen.toNat ≤ (4#32 : Word).toNat ∧
     ({ s with dstAddr := 0x3000#32, dstCap := 4#32 } : State).WritableTo s.srcLen.toNat ∧
     (codeBits (tableOf entriesAB) s.srcBytes).length ≤ 8 * s.dstCap.toNat) ∧
    State.reset.srcLen = 0#32 :=
  ⟨⟨rfl, by decide, apart _ (by decide), readable _ rfl _, writable _ rfl _, readable _ rfl _, apart _ (by decide),
      by decide, writable _ rfl _, by decide +kernel⟩, rfl⟩

theorem witness_ResetAtAnyTime :
    Memory.wf (busyWith .encode (windows memAaab 4#32 1#32)).mem = true ∧
    (busyWith .encode (windows memAaab 4#32 1#32)).running = some .encode ∧ writesDst .encode = true ∧
    (windows memAaab 4#32 1#32).OutsideDst 1 0x2001 ∧
    (∀ i, (busyWith .count (windows memAaab 4#32 0#32)).running = some i → writesDst i = false) := by
  refine ⟨rfl, rfl, rfl, by unfold State.OutsideDst; decide, ?_⟩
  rintro i h
  cases h
  rfl

theorem witness_StepKeepsInvariant : State.reset.Inv ∧ ∃ t, step State.reset = .next t :=
  ⟨witness_errors.2.2.1, _, rfl⟩

/-- ENCODE's state with another byte outside its source window. -/
theorem witness_ReadsOnlySourceWindow :
    let s := withTable entriesAB memAaab 4#32 1#32 0#64
    let m : Memory := memAaab ++ [(0x3000, 0x55#8)]
    Memory.wf s.mem = true ∧ Memory.wf m = true ∧
    (∀ k, k < s.srcLen.toNat → memRead m (s.src k).toNat = s.srcByte k) ∧ ∃ t, exec .encode s = .next t :=
  ⟨rfl, by decide, by decide +kernel, witness_success.2.2.2.2.1.imp fun _ h => h.1⟩

end Sys2Proof.Tests
end

section
/-! The host-visible registers (10_state.md): reserved offsets, derived registers, the table window, and what a command
leaves of them. -/

namespace Sys2Proof.Machine

/-! ### Reserved offsets (10_state.md R64) -/

theorem regAt_eq_none_of_reserved {off : Offset} (h : off.toNat = 0x05C ∨ 0x080 ≤ off.toNat) : regAt off = none := by
  unfold regAt
  split <;> simp only [reduceCtorEq] <;> omega

theorem readReg_of_regAt_none {off : Offset} (h : regAt off = none) (s : State) :
    readReg off s = { s with rdata := 0#32 } := by
  rw [readReg, h]

theorem writeReg_of_regAt_none {off : Offset} (h : regAt off = none) (v : Word) (s : State) :
    writeReg off v s = .next s := by
  rw [writeReg, h]

/-- Settles O4: no register is at such an offset, so the read answers 0 and the write is ignored. -/
theorem reservedOffsetsReadZero : Obligations.ReservedOffsetsReadZero := by
  intro s off v haligned hreserved
  have hnone := regAt_eq_none_of_reserved hreserved
  rw [hostAct_regRead off s haligned, hostAct_regWrite off v s haligned]
  exact ⟨by rw [readReg_of_regAt_none hnone], writeReg_of_regAt_none hnone v s⟩

/-! ### The table window (10_state.md R61 to R63) -/

/-- A number that fits a register is read back whole. -/
theorem toNat_ofNat_of_fits {n : Nat} (h : n < 2 ^ 32) : (BitVec.ofNat 32 n).toNat = n := by
  rw [BitVec.toNat_ofNat, Nat.mod_eq_of_lt h]

theorem tabCode_getLsbD (s : State) (k : Nat) {j : Nat} (hj : j < 32) :
    (s.tabCode k).getLsbD (31 - j) = (s.codeOf s.tabSel).getD (32 * k + j) false := by
  have hbit := natOfBits_testBit 32 j ((s.codeOf s.tabSel).drop (32 * k)) hj
  rw [State.tabCode, BitVec.getLsbD_ofNat, decide_eq_true (by omega : 31 - j < 32), Bool.true_and, hbit]
  simp [List.getD_eq_getElem?_getD]

/-- Settles O8: each register is the selected row of its table; the bits of TAB_CODEk are those of `natOfBits`. -/
theorem tableWindowRegisters : Obligations.TableWindowRegisters := by
  intro s hfit
  have hlen : s.codeLen s.tabSel ≤ 255 := hfit s.tabSel
  have htabLen : (regValue s .tabLen).toNat = s.codeLen s.tabSel :=
    toNat_ofNat_of_fits (n := s.codeLen s.tabSel) (by omega)
  refine ⟨rfl, htabLen, htabLen ▸ hlen, fun k j hj => ?_⟩
  refine (tabCode_getLsbD s k.val hj).trans ?_
  split
  · rfl
  · rename_i hpast
    exact List.getD_eq_default _ _ (Nat.le_of_not_lt hpast)

/-! ### The derived registers (10_state.md R54 to R58) -/

theorem nsym_eq_card (s : State) :
    s.nsym = (Finset.univ.filter fun n : Fin 256 => s.freqOf (BitVec.ofFin n) ≠ 0#32).card := by
  rw [nsym_eq, length_filter_symbols]
  simp only [bne_iff_ne]

theorem tabNsym_eq_card (s : State) :
    s.tabNsym = (Finset.univ.filter fun n : Fin 256 => s.codeLen (BitVec.ofFin n) ≠ 0).card := by
  rw [tabNsym_eq_filter, length_filter_symbols]
  simp [State.codeLen]

theorem total_eq_sum (s : State) : s.total = ∑ n : Fin 256, (s.freqOf (BitVec.ofFin n)).toNat := by
  rw [total_eq, freqTotal, sum_map_symbols]
  rfl

theorem hdrSize_eq_sum (s : State) :
    s.hdrSize = if s.tabNsym = 0 then 0 else
      2 + (∑ n : Fin 256, if s.codeLen (BitVec.ofFin n) = 0 then 0 else 2 + ceil8 (s.codeLen (BitVec.ofFin n))) + 8 := by
  have hsum := sum_map_entries s fun n => 2 + ceil8 n
  rw [sum_map_symbols] at hsum
  rw [State.hdrSize, ← hsum]
  rfl

theorem nsym_le (s : State) : s.nsym ≤ 256 := by
  rw [nsym_eq]
  exact (List.length_filter_le _ _).trans symbols_length.le

theorem tabNsym_le (s : State) : s.tabNsym ≤ 256 := entriesOf_length_le s.code

theorem maxlen_le {s : State} (hfit : CodesFit s.code) : s.maxlen ≤ 255 := by
  rcases maxlen_attained s with hzero | ⟨x, hx⟩
  · omega
  · exact hx ▸ hfit x

/-- The root of the tree of a frequency table weighs the sum of its counters (10_state.md R55). -/
theorem buildTree_weight {freq : Vector Word 256} {t : Tree} (h : buildTree freq = some t) :
    t.weight = freqTotal freq := by
  have hne : countedSymbols freq ≠ [] := fun he => by simp [buildTree_none freq he] at h
  obtain ⟨t', ht', htree, -⟩ := buildTree_spec freq hne
  obtain rfl : t' = t := Option.some.inj (ht'.symm.trans h)
  exact treeOf_weight htree

theorem regValue_total {s : State} (hinv : s.Inv) : (regValue s .total).toNat = s.total := by
  have htotal : s.total ≤ 2 ^ 32 - 1 := hinv.total
  exact toNat_ofNat_of_fits (n := s.total) (by omega)

theorem regValue_nsym (s : State) : (regValue s .nsym).toNat = s.nsym :=
  toNat_ofNat_of_fits (n := s.nsym) ((nsym_le s).trans_lt (by norm_num))

theorem regValue_tabNsym (s : State) : (regValue s .tabNsym).toNat = s.tabNsym :=
  toNat_ofNat_of_fits (n := s.tabNsym) ((tabNsym_le s).trans_lt (by norm_num))

theorem regValue_maxlen {s : State} (hfit : CodesFit s.code) : (regValue s .maxlen).toNat = s.maxlen :=
  toNat_ofNat_of_fits (n := s.maxlen) ((maxlen_le hfit).trans_lt (by norm_num))

theorem regValue_hdrSize {s : State} (hfit : CodesFit s.code) : (regValue s .hdrSize).toNat = s.hdrSize :=
  toNat_ofNat_of_fits (n := s.hdrSize) ((hdrSize_le s hfit).trans_lt (by norm_num))

theorem regValue_tabNsym_eq_zero_iff (s : State) : regValue s .tabNsym = 0#32 ↔ s.tabNsym = 0 := by
  rw [← BitVec.toNat_inj, regValue_tabNsym]
  rfl

/-- Settles O7: each register holds its number whole, because the table bounds it, and each number is a scan over the
256 symbols. -/
theorem derivedRegisterValues : Obligations.DerivedRegisterValues := by
  refine ⟨fun s hinv => ?_, fun s hfit => ⟨⟨?_, ?_⟩, ⟨?_, ?_, ?_⟩, ⟨?_, ?_, ?_⟩, ?_, ?_⟩⟩
  · rw [regValue_total hinv, ← total_eq_sum]
    exact ⟨rfl, hinv.total, fun tr htr => (buildTree_weight htr).trans (total_eq s).symm⟩
  · rw [regValue_nsym, nsym_eq_card]
  · rw [regValue_nsym]; exact nsym_le s
  · rw [regValue_tabNsym, tabNsym_eq_card]
  · rw [regValue_tabNsym]; exact tabNsym_le s
  · rw [Ne, regValue_tabNsym_eq_zero_iff]
    simp [State.tableValid]
  · rw [regValue_maxlen hfit]; exact codeLen_le_maxlen s
  · intro hne
    rw [regValue_maxlen hfit]
    refine (maxlen_attained s).resolve_left fun hzero => hne ?_
    simp [regValue, hzero]
  · rw [regValue_maxlen hfit]; exact maxlen_le hfit
  · rw [regValue_hdrSize hfit, hdrSize_eq_sum]
    simp only [regValue_tabNsym_eq_zero_iff]
  · rw [regValue_hdrSize hfit]; exact hdrSize_le s hfit

/-! ### The frame of every command (10_state.md R32, R70) -/

/-- The commands that can write BITCNT (10_state.md R53). -/
def setsBitcnt : Instr → Bool
  | .clear | .encode | .parse => true
  | .count | .buildTree | .genCodes | .serialize | .decode => false

/-- The commands that can write the code table (10_state.md R70). -/
def setsTable : Instr → Bool
  | .clear | .genCodes | .parse => true
  | .count | .buildTree | .encode | .serialize | .decode => false

/-- What command `i` leaves of `s` in `t`. -/
structure CommandFrame (i : Instr) (s t : State) : Prop where
  srcAddr : t.srcAddr = s.srcAddr
  srcLen : t.srcLen = s.srcLen
  dstAddr : t.dstAddr = s.dstAddr
  dstCap : t.dstCap = s.dstCap
  tabSel : t.tabSel = s.tabSel
  irqEn : t.irqEn = s.irqEn
  lastOp : t.lastOp = s.lastOp
  platform : t.platform = s.platform
  beats : t.beats = s.beats
  rdata : t.rdata = s.rdata
  bitcnt : setsBitcnt i = false → t.bitcnt = s.bitcnt
  code : setsTable i = false → t.code = s.code

/-- Every command keeps its frame: each next state it can answer is `s` with the fields of its rule changed, freed
window included, then completed or in error. -/
theorem exec_commandFrame {i : Instr} {s t : State} (hm : Memory.wf s.mem = true) (h : exec i s = .next t) :
    CommandFrame i s t := by
  cases i <;> simp only [exec] at h
  case clear =>
    obtain rfl := Host.Outcome.next.inj h
    constructor <;> simp [setsBitcnt, setsTable]
  case count =>
    rcases execCount_next h with ⟨-, rfl⟩ | ⟨-, rfl⟩ | ⟨k, -, -, -, rfl⟩ <;>
      constructor <;> simp
  case buildTree =>
    rcases execBuildTree_next h with ⟨-, rfl⟩ | ⟨-, tr, -, -, rfl⟩ <;>
      constructor <;> simp
  case genCodes =>
    rcases execGenCodes_next h with ⟨-, rfl⟩ | ⟨tr, -, rfl⟩ <;>
      constructor <;> simp [setsTable]
  case encode =>
    rcases (execEncode_next hm h).2 with ⟨-, rfl⟩ | ⟨-, m, -, -, rfl⟩ | ⟨-, e, info, -, rfl⟩ <;>
      constructor <;> simp [setsBitcnt]
  case serialize =>
    rcases execSerialize_next hm h with ⟨-, rfl⟩ | ⟨-, -, rfl⟩ | ⟨-, -, m, -, rfl⟩ | ⟨-, -, info, rfl⟩ <;>
      constructor <;> simp
  case parse =>
    rcases execParse_next h with ⟨hd, -, rfl⟩ | ⟨e, info, -, -, rfl⟩ <;>
      constructor <;> simp [setsBitcnt, setsTable]
  case decode =>
    rcases (execDecode_next hm h).2 with ⟨-, rfl⟩ | ⟨-, -, rfl⟩ | ⟨-, -, xs, m, -, -, -, rfl⟩ |
        ⟨-, -, e, info, -, rfl⟩ <;>
      constructor <;> simp

/-! ### BITCNT (10_state.md R32, R53) -/

theorem execClear_bitcnt {s t : State} (h : exec .clear s = .next t) : t.bitcnt = 0#64 := by
  obtain rfl := Host.Outcome.next.inj h
  rfl

theorem execEncode_bitcnt {s t : State} (hm : Memory.wf s.mem = true) (h : exec .encode s = .next t) :
    (t.errCode = .success → t.bitcnt = BitVec.ofNat 64 (codeBits s.code s.srcBytes).length) ∧
    (t.errCode ≠ .success → t.bitcnt = s.bitcnt) := by
  rcases (execEncode_next hm h).2 with ⟨-, rfl⟩ | ⟨-, m, -, -, rfl⟩ | ⟨-, e, info, he, rfl⟩
  · simp
  · simp
  · rcases he with rfl | rfl | rfl <;> simp

theorem execParse_bitcnt {s t : State} (h : exec .parse s = .next t) :
    (t.errCode = .success → ∃ hd, parseHeader s = .ok hd ∧ t.bitcnt = BitVec.ofNat 64 hd.total) ∧
    (t.errCode ≠ .success → t.bitcnt = s.bitcnt) := by
  rcases execParse_next h with ⟨hd, hhd, rfl⟩ | ⟨e, info, -, he, rfl⟩
  · exact ⟨fun _ => ⟨hd, hhd, rfl⟩, fun hne => absurd rfl hne⟩
  · rcases he with rfl | rfl | rfl <;> simp

/-- A command in error keeps BITCNT; CLEAR has no error. -/
theorem exec_error_bitcnt {i : Instr} {s t : State} (hm : Memory.wf s.mem = true) (h : exec i s = .next t)
    (hclear : i ≠ .clear) (herr : t.errCode ≠ .success) : t.bitcnt = s.bitcnt := by
  cases i
  case clear => exact absurd rfl hclear
  case encode => exact (execEncode_bitcnt hm h).2 herr
  case parse => exact (execParse_bitcnt h).2 herr
  all_goals exact (exec_commandFrame hm h).bitcnt rfl

/-- Settles O21: the frame is `exec_commandFrame`, and BITCNT is what the rules of CLEAR, ENCODE and PARSE say. -/
theorem commandsKeepOperandRegisters : Obligations.CommandsKeepOperandRegisters := by
  intro i s t hm h
  have hframe := exec_commandFrame hm h
  refine ⟨⟨hframe.srcAddr, hframe.srcLen, hframe.dstAddr, hframe.dstCap, hframe.tabSel⟩,
    ⟨hframe.irqEn, hframe.lastOp, hframe.platform, hframe.beats, hframe.rdata⟩, ?_, exec_error_bitcnt hm h, ?_, ?_, ?_⟩
  · intro hclear hencode hparse
    exact hframe.bitcnt (by cases i <;> simp [setsBitcnt] at *)
  · rintro rfl
    exact execClear_bitcnt h
  · rintro rfl
    exact (execEncode_bitcnt hm h).1
  · rintro rfl
    exact (execParse_bitcnt h).1

/-! ### The code table stays sound (10_state.md R72) -/

theorem codesFit_emptyTable : CodesFit emptyTable := fun x => by simp

theorem prefixFree_emptyTable : PrefixFree emptyTable := fun x _ _ hx => absurd (tabGet_emptyTable x) hx

/-- Every command that writes the table writes the empty one, the codes of a tree of the current counts, or a header's
entries that agree; each is sound. -/
theorem exec_code_sound {i : Instr} {s t : State} (hinv : s.Inv) (h : exec i s = .next t) :
    CodesFit t.code ∧ PrefixFree t.code := by
  have hframe := exec_commandFrame hinv.memory h
  cases i
  case clear =>
    obtain rfl := Host.Outcome.next.inj h
    exact ⟨codesFit_emptyTable, prefixFree_emptyTable⟩
  case genCodes =>
    rcases execGenCodes_next h with ⟨-, rfl⟩ | ⟨tr, htr, rfl⟩
    · exact ⟨hinv.codesFit, hinv.prefixFree⟩
    · have hnodup := treeOf_nodup (hinv.tree tr htr)
      exact ⟨codesFit_codesOf tr hnodup, prefixFree_codesOf tr hnodup⟩
  case parse =>
    rcases execParse_next h with ⟨hd, hhd, rfl⟩ | ⟨e, info, -, -, rfl⟩
    · have hagree := (parseHeader_eq_ok hhd).1
      exact ⟨codesFit_tableOf hagree, prefixFree_tableOf hagree⟩
    · exact ⟨codesFit_emptyTable, prefixFree_emptyTable⟩
  all_goals
    rw [hframe.code rfl]
    exact ⟨hinv.codesFit, hinv.prefixFree⟩

/-- The table of a tree with distinct symbols has one entry for each leaf. -/
theorem entriesOf_codesOf_length {t : Tree} (hn : (t.leaves.map (·.1)).Nodup) :
    (entriesOf (codesOf t)).length = t.leaves.length := by
  rw [(entriesOf_codesOf_perm t hn).length_eq]
  simpa using congrArg List.length (leafCodes_map_fst t)

/-- A table of two or more entries that GEN_CODES writes is complete (10_state.md R72(c)). -/
theorem execGenCodes_kraftSum {s t : State} (hinv : s.Inv) (h : exec .genCodes s = .next t)
    (hok : t.errCode = .success) (htwo : 2 ≤ t.tabNsym) : kraftSum t.code = 2 ^ Config.lenMax := by
  rcases execGenCodes_next h with ⟨-, rfl⟩ | ⟨tr, htr, rfl⟩
  · simp at hok
  · have hnodup := treeOf_nodup (hinv.tree tr htr)
    exact kraft_codesOf tr hnodup (entriesOf_codesOf_length hnodup ▸ htwo)

/-- Settles O49: the table a command leaves is sound by `exec_code_sound`, and the one GEN_CODES writes is complete. -/
theorem codeTableStaysSound : Obligations.CodeTableStaysSound := by
  intro i s t hinv h
  obtain ⟨hfit, hfree⟩ := exec_code_sound hinv h
  refine ⟨hfit, fun x y hxy hx hy => ?_, ?_⟩
  · have hx' : t.codeOf x ≠ [] := fun he => hx (congrArg List.length he)
    have hy' : t.codeOf y ≠ [] := fun he => hy (congrArg List.length he)
    exact ⟨hfree x y hxy hx' hy', hfree y x hxy.symm hy' hx'⟩
  · rintro rfl hok htwo
    exact execGenCodes_kraftSum hinv h hok htwo

end Sys2Proof.Machine
end

section
/-! The CMD write on an idle block and the overlap hazard (20_memory.md R105; 70_reset_and_hazards.md R363). -/

namespace Sys2Proof.Machine

/-! ### The CMD write on an idle block (40_command_protocol.md R162, R164) -/

/-- `Laws.Encoding` has one lemma per command; this is all of them at once (30_encoding.md R125). -/
theorem encoding_statement (i : Instr) : Laws.Encoding.Statement i := by
  cases i
  case clear => exact Laws.Encoding.clear
  case count => exact Laws.Encoding.count
  case buildTree => exact Laws.Encoding.buildTree
  case genCodes => exact Laws.Encoding.genCodes
  case encode => exact Laws.Encoding.encode
  case serialize => exact Laws.Encoding.serialize
  case parse => exact Laws.Encoding.parse
  case decode => exact Laws.Encoding.decode

@[simp] theorem opField_encode (i : Instr) : opField (encode i) = opcode i := by
  obtain ⟨-, hop, -⟩ := encoding_statement i
  exact hop

@[simp] theorem decode_encode (i : Instr) : decode (encode i) = .cmd i := by
  obtain ⟨-, -, -, hdecode, -⟩ := encoding_statement i
  exact hdecode

/-- On an idle block a write to CMD is an acceptance (40_command_protocol.md R162). -/
theorem hostAct_writeCmd_of_idle {s : State} (hidle : s.busy = false) (w : Word) :
    hostAct (.regWrite Reg.cmd.offset 4 w) s = accept w s := by
  rw [hostAct_write, writeAt, Reg.access, hidle]
  rfl

theorem accept_encode_of_hazard {i : Instr} {s : State} (h : overlapHazard i s = true) :
    accept (encode i) s = .fault .windowOverlap := by
  simp [accept, h]

theorem accept_encode_of_no_hazard {i : Instr} {s : State} (h : overlapHazard i s = false) :
    accept (encode i) s = .next { markAccepted (encode i) s with running := some i } := by
  simp [accept, h]

/-! ### Which commands have the overlap hazard -/

theorem overlapHazard_of_shared {i : Instr} {s : State} (hi : i = .encode ∨ i = .decode) {k j : Nat}
    (hk : k < s.srcLen.toNat) (hj : j < s.dstCap.toNat) (hshared : s.src k = s.dst j) :
    overlapHazard i s = true := by
  have hoverlap : windowsOverlap s.srcAddr s.srcLen.toNat s.dstAddr s.dstCap.toNat = true :=
    (windowsOverlap_iff _ _ _ _).mpr ⟨k, j, hk, hj, hshared⟩
  rcases hi with rfl | rfl
  · exact hoverlap
  · exact hoverlap

/-- Every command but ENCODE and DECODE lacks one of the two windows. -/
theorem overlapHazard_eq_false_of_ne {i : Instr} (hencode : i ≠ .encode) (hdecode : i ≠ .decode) (s : State) :
    overlapHazard i s = false := by
  cases i
  case encode => exact absurd rfl hencode
  case decode => exact absurd rfl hdecode
  all_goals rfl

/-- Settles O15: the CMD write on an idle block is an acceptance, which faults exactly on the overlap hazard; a shared
address is that hazard for ENCODE and DECODE, and no other command has it. -/
theorem overlapFaultsAtAcceptance : Obligations.OverlapFaultsAtAcceptance := by
  refine ⟨fun s i hidle hi ⟨k, j, hk, hj, hshared⟩ => ?_, fun s i hidle hencode hdecode => ?_⟩
  · rw [hostAct_writeCmd_of_idle hidle]
    exact accept_encode_of_hazard (overlapHazard_of_shared hi hk hj hshared)
  · rw [hostAct_writeCmd_of_idle hidle,
      accept_encode_of_no_hazard (overlapHazard_eq_false_of_ne hencode hdecode s), markAccepted, opField_encode]

end Sys2Proof.Machine
end

section
/-! The encodings (30_encoding.md): command words, and the layout and length of the header. -/

namespace Sys2Proof.Machine

/-! ### The fields of a command word (30_encoding.md R121) -/

theorem rsvdField_toNat (w : Word) : (rsvdField w).toNat = w.toNat / 16 := by
  rw [rsvdField, BitVec.extractLsb'_toNat, Nat.shiftRight_eq_div_pow, Nat.mod_eq_of_lt (by omega)]

theorem opField_toNat (w : Word) : (opField w).toNat = w.toNat % 16 := by
  rw [opField, BitVec.extractLsb'_toNat, Nat.shiftRight_zero]

theorem rsvdField_eq_zero_iff (w : Word) : rsvdField w = 0#28 ↔ w.toNat / 16 = 0 := by
  rw [← BitVec.toNat_inj, rsvdField_toNat, BitVec.toNat_zero]

theorem encode_toNat (i : Instr) : (encode i).toNat = (opcode i).toNat :=
  (BitVec.toNat_append 0#28 (opcode i)).trans (by simp)

/-- The two fields are the whole word. -/
theorem eq_encode_iff (w : Word) (i : Instr) : w = encode i ↔ rsvdField w = 0#28 ∧ opField w = opcode i := by
  have hop := (opcode i).isLt
  rw [rsvdField_eq_zero_iff, ← BitVec.toNat_inj, ← BitVec.toNat_inj, encode_toNat, opField_toNat]
  omega

/-! ### The opcode map (30_encoding.md R122, R124) -/

theorem commandOfOp_eq_some_iff (op : BitVec 4) (i : Instr) : commandOfOp op = some i ↔ op = opcode i := by
  cases i <;> revert op <;> decide

theorem commandOfOp_eq_none_iff (op : BitVec 4) : commandOfOp op = none ↔ ¬ (1 ≤ op.toNat ∧ op.toNat ≤ 8) := by
  revert op
  decide

/-! ### Decoding is total (30_encoding.md R125) -/

theorem decode_eq_cmd_iff (w : Word) (i : Instr) : decode w = .cmd i ↔ w = encode i := by
  rw [eq_encode_iff, ← commandOfOp_eq_some_iff, decode]
  split
  · rename_i hrsvd
    cases commandOfOp (opField w) <;> simp [hrsvd]
  · rename_i hrsvd
    simp [hrsvd]

theorem decode_eq_illegal {w : Word} (h : ¬ (w.toNat / 16 = 0 ∧ 1 ≤ w.toNat % 16 ∧ w.toNat % 16 ≤ 8)) :
    decode w = .illegal w := by
  rw [decode]
  split
  · rename_i hrsvd
    have hnone : commandOfOp (opField w) = none := by
      rw [commandOfOp_eq_none_iff, opField_toNat]
      exact fun hop => h ⟨(rsvdField_eq_zero_iff w).mp hrsvd, hop⟩
    rw [hnone]
  · rfl

/-- Settles O2: the opcode map selects a command for OP 1 to 8 and no other, and the two fields are the whole word. -/
theorem decodingIsTotal : Obligations.DecodingIsTotal := by
  refine ⟨fun w ⟨hrsvd, hop⟩ => ?_, fun w h => decode_eq_illegal h, decode_eq_cmd_iff⟩
  rw [← rsvdField_eq_zero_iff] at hrsvd
  rw [← opField_toNat] at hop ⊢
  obtain ⟨i, hi⟩ : ∃ i, commandOfOp (opField w) = some i := by
    rw [← Option.ne_none_iff_exists']
    exact fun hnone => (commandOfOp_eq_none_iff _).mp hnone hop
  have hopcode := (commandOfOp_eq_some_iff _ _).mp hi
  have hword := (eq_encode_iff w i).mpr ⟨hrsvd, hopcode⟩
  exact ⟨i, (decode_eq_cmd_iff w i).mpr hword, congrArg BitVec.toNat hopcode.symm, hword⟩

/-- Settles O1: the eight words are the commands' own, and the reserved ones have OP 0 or above 8, or RSVD not 0. -/
theorem commandWordsDecode : Obligations.CommandWordsDecode := by
  refine ⟨decode_encode .clear, decode_encode .count, decode_encode .buildTree, decode_encode .genCodes,
    decode_encode .encode, decode_encode .serialize, decode_encode .parse, decode_encode .decode,
    decode_eq_illegal (by decide), decode_eq_illegal (by decide), decode_eq_illegal (by decide),
    decode_eq_illegal (by decide), decode_eq_illegal (by decide), fun i => ?_⟩
  obtain ⟨-, -, -, hdecode, htable⟩ := encoding_statement i
  exact ⟨hdecode, htable⟩

/-! ### The header's integers (30_encoding.md R142, R145) -/

/-- A big-endian number is the sum of its bytes, each at its power of 256 (00_scope.md R12). -/
theorem beValue_eq_sum (bs : List Byte) :
    beValue bs = ∑ i ∈ Finset.range bs.length, (bs.getD i 0#8).toNat * 256 ^ (bs.length - 1 - i) := by
  induction bs using List.reverseRecOn with
  | nil => rfl
  | append_singleton bs b ih =>
    rw [beValue_append, ih, List.length_append, List.length_singleton, Finset.sum_range_succ, Finset.sum_mul]
    congr 1
    · refine Finset.sum_congr rfl fun i hi => ?_
      have hi := Finset.mem_range.mp hi
      rw [List.getD_append _ _ _ _ hi, mul_assoc, ← pow_succ]
      congr 2
      omega
    · simp

theorem beBytes_eq_sum {n v : Nat} (h : v < 256 ^ n) :
    v = ∑ i : Fin n, ((beBytes n v).getD i.val 0#8).toNat * 256 ^ (n - 1 - i.val) := by
  have hsum := beValue_eq_sum (beBytes n v)
  rwa [beValue_beBytes, Nat.mod_eq_of_lt h, beBytes_length, Finset.sum_range] at hsum

theorem headerBytes_layout (es : List (Byte × Code)) {total : Nat} (hcount : es.length < 2 ^ 16)
    (htotal : total < 2 ^ 64) :
    ∃ c₁ c₀ tail, headerBytes es total = [c₁, c₀] ++ es.flatMap entryBytes ++ tail ∧
      c₁.toNat * 256 + c₀.toNat = es.length ∧
      tail.length = 8 ∧ total = ∑ i : Fin 8, (tail.getD i.val 0#8).toNat * 256 ^ (7 - i.val) := by
  obtain ⟨c₁, c₀, hbytes⟩ := List.length_eq_two.mp (beBytes_length 2 es.length)
  have hvalue : beValue [c₁, c₀] = es.length := by
    rw [← hbytes, beValue_beBytes]
    exact Nat.mod_eq_of_lt hcount
  refine ⟨c₁, c₀, beBytes 8 total, by rw [headerBytes, hbytes], ?_, beBytes_length 8 total, beBytes_eq_sum htotal⟩
  simpa [beValue] using hvalue

/-! ### The header's length (30_encoding.md R147) -/

theorem entrySize_bounds {c : Code} (h : 1 ≤ c.length ∧ c.length ≤ 255) : 3 ≤ entrySize c ∧ entrySize c ≤ 34 := by
  simp only [entrySize, ceil8]
  omega

theorem headerBytes_length_bounds {es : List (Byte × Code)} (total : Nat)
    (h : ∀ e ∈ es, 1 ≤ e.2.length ∧ e.2.length ≤ 255) :
    2 + 3 * es.length + 8 ≤ (headerBytes es total).length ∧
    (headerBytes es total).length ≤ 2 + 34 * es.length + 8 := by
  rw [headerBytes_length]
  induction es with
  | nil => simp
  | cons e es ih =>
    rw [List.forall_mem_cons] at h
    have hes := ih h.2
    have he := entrySize_bounds h.1
    simp only [List.map_cons, List.sum_cons, List.length_cons]
    omega

theorem headerBytes_length_of_entrySize {es : List (Byte × Code)} (total : Nat) {n : Nat}
    (h : ∀ e ∈ es, entrySize e.2 = n) : (headerBytes es total).length = 2 + es.length * n + 8 := by
  rw [headerBytes_length, List.sum_eq_card_nsmul (es.map fun e => entrySize e.2) n (List.forall_mem_map.mpr h),
    List.length_map, smul_eq_mul]

/-- Settles O43: the integers are big-endian by `headerBytes_layout`, a body is packed by `pack_bit`, and an entry of 1
to 255 code bits has 3 to 34 bytes. -/
theorem headerLayout : Obligations.HeaderLayout := by
  refine ⟨fun es total => headerBytes_layout es, fun x c _ => ⟨pack c, rfl, pack_length c, fun k hk => ?_⟩,
    headerBytes_length, fun s total h => (hdrSize_eq s h total).symm, fun es total hne hcount hlen => ⟨?_, ?_, ?_⟩⟩
  · exact pack_bit c k (pack_length c ▸ hk)
  · have hpos := List.length_pos_iff.mpr hne
    have hbounds := headerBytes_length_bounds total hlen
    omega
  · intro hone hshort
    rw [headerBytes_length_of_entrySize total (n := 3) fun e he => by rw [entrySize, hshort e he]; rfl, hone]
  · intro hall hlong
    rw [headerBytes_length_of_entrySize total (n := 34) fun e he => ?_, hall]
    have hmin := hlong e he
    have hmax := (hlen e he).2
    simp only [entrySize, ceil8]
    omega

end Sys2Proof.Machine
end

section
/-! The command protocol (40_command_protocol.md): what a read answers while a command runs, what a write does, an
illegal word, and what a completion leaves. -/

namespace Sys2Proof.Machine

/-! ### Register reads, idle and busy (40_command_protocol.md R160, R161) -/

theorem hostAct_read (r : Reg) (s : State) : hostAct (.regRead r.offset 4) s = .next (readReg r.offset s) :=
  hostAct_regRead r.offset s (offset_aligned r)

theorem readReg_of_idle {s : State} (hidle : s.busy = false) (r : Reg) :
    readReg r.offset s = { s with rdata := regValue s r } := by
  simp [readReg, regAt_eq, hidle]

/-- A register that a running command cannot change reads exactly at any time. -/
theorem readReg_of_stable {r : Reg} (hstable : r.unspecifiedWhileBusy = false) (hstatus : r ≠ .status) (s : State) :
    readReg r.offset s = { s with rdata := regValue s r } := by
  simp [readReg, regAt_eq, hstable, hstatus]

theorem readReg_of_unspecified {s : State} (hbusy : s.busy = true) {r : Reg}
    (hfree : r.unspecifiedWhileBusy = true) :
    readReg r.offset s = { s with rdata := Config.freeWord s.draws, draws := s.draws + 1 } := by
  simp [readReg, regAt_eq, hbusy, hfree]

theorem readReg_status_of_busy {s : State} (hbusy : s.busy = true) :
    readReg Reg.status.offset s =
      { s with rdata := readStatusBusy s (Config.freeWord s.draws), draws := s.draws + 1 } := by
  simp [readReg, regAt_eq, hbusy, Reg.unspecifiedWhileBusy]

/-- A running command has cleared the last error (40_command_protocol.md R164). -/
theorem State.Inv.errCode_of_busy {s : State} (hinv : s.Inv) (hbusy : s.busy = true) : s.errCode = .success := by
  obtain ⟨i, hi⟩ := Option.isSome_iff_exists.mp hbusy
  exact (hinv.accepted i hi).1

/-- Settles O9: `readReg` has one case per kind of register; the invariant gives ERR_CODE and ERR_INFO, and
`statusWord_fields` the bits of STATUS. -/
theorem busyReadsExactOrFree : Obligations.BusyReadsExactOrFree := by
  refine ⟨fun s r hidle => by rw [hostAct_read, readReg_of_idle hidle], fun s hinv hbusy => ?_⟩
  have herr : s.errCode = .success := hinv.errCode_of_busy hbusy
  refine ⟨fun r hr => ?_, ?_, hinv.noInfo herr, rfl, ?_, fun r hr => ?_⟩
  · have hkind : r.unspecifiedWhileBusy = false ∧ r ≠ .status := by
      revert r
      decide
    rw [hostAct_read, readReg_of_stable hkind.1 hkind.2]
  · simp [regValue, herr, ErrCode.value]
  · obtain ⟨hbit0, hbit1, hbit2, hbit3, hlastOp, hzero⟩ := statusWord_fields s.lastOp
      ((Config.freeWord s.draws).getLsbD 3) ((Config.freeWord s.draws).getLsbD 2) s.errFlag s.busy
    have hnoErr : s.errFlag = false := by simp [State.errFlag, herr, ErrCode.value]
    exact ⟨readStatusBusy s (Config.freeWord s.draws), by rw [hostAct_read, readReg_status_of_busy hbusy],
      hbit0.trans hbusy, hbit1.trans hnoErr, hlastOp, hzero, hbit2, hbit3⟩
  · have hfree : r.unspecifiedWhileBusy = true := by
      rcases hr with hr | ⟨k, rfl⟩
      · revert r
        decide
      · rfl
    rw [hostAct_read, readReg_of_unspecified hbusy hfree]

/-! ### Register writes, idle and busy (40_command_protocol.md R162, R165) -/

theorem writeAt_of_ro {r : Reg} (hro : r.access = .ro) (v : Word) (s : State) : writeAt r v s = .next s := by
  rw [writeAt, hro]

/-- A write to CMD or a RW register while BUSY = 1 is dropped. -/
theorem writeAt_of_busy {s : State} (hbusy : s.busy = true) {r : Reg} (hr : r = .cmd ∨ r.access = .rw) (v : Word) :
    writeAt r v s = .next (dropWrite s) := by
  rcases hr with rfl | hrw
  · simp [writeAt, Reg.access, hbusy]
  · simp [writeAt, hrw, hbusy]

theorem hostAct_write_rw_of_idle {s : State} (hidle : s.busy = false) {r : Reg} (hrw : r.access = .rw) (v : Word) :
    hostAct (.regWrite r.offset 4 v) s = .next (storeReg r v s) := by
  rw [hostAct_write, writeAt, hrw, hidle]
  rfl

/-- A write to a read-only register or a reserved offset has no effect. -/
theorem writeReg_of_ignored {off : Offset} (h : regAt off = none ∨ ∃ r, regAt off = some r ∧ r.access = .ro)
    (v : Word) (s : State) : writeReg off v s = .next s := by
  rcases h with hnone | ⟨r, hr, hro⟩
  · exact writeReg_of_regAt_none hnone v s
  · rw [writeReg, hr]
    exact writeAt_of_ro hro v s

/-- Settles O10: `writeAt` has one case per access class, and `storeReg` one per RW register. -/
theorem hostWriteRule : Obligations.HostWriteRule := by
  intro s v
  refine ⟨fun off haligned hignored => ?_, hostAct_write .irqStat v s, fun hbusy r hr => ?_, fun hidle => ?_⟩
  · rw [hostAct_regWrite off v s haligned, writeReg_of_ignored hignored]
  · exact (hostAct_write r v s).trans (writeAt_of_busy hbusy hr v)
  · have hstore : ∀ r : Reg, r.access = .rw → hostAct (.regWrite r.offset 4 v) s = .next (storeReg r v s) :=
      fun r hrw => hostAct_write_rw_of_idle hidle hrw v
    exact ⟨hostAct_writeCmd_of_idle hidle v, hstore .irqEn rfl, hstore .srcAddr rfl, hstore .srcLen rfl,
      hstore .dstAddr rfl, hstore .dstCap rfl, hstore .bitcntLo rfl, hstore .bitcntHi rfl, hstore .tabSel rfl⟩

/-! ### Illegal words (30_encoding.md R124; 40_command_protocol.md R169) -/

theorem accept_of_illegal {w v : Word} (h : decode w = .illegal v) (s : State) :
    accept w s = .next (raiseError .illegalCommand v (markAccepted w s)) := by
  rw [accept, h]

/-- Settles O14: such a word decodes as illegal, and on an idle block its acceptance is the error's. -/
theorem illegalWordCompletes : Obligations.IllegalWordCompletes := by
  intro s w hidle hw
  have hillegal : decode w = .illegal w := decode_eq_illegal (by omega)
  have hrunning : s.running = none := (not_busy_iff s).mp hidle
  rw [hostAct_writeCmd_of_idle hidle, accept_of_illegal hillegal, hrunning]
  rfl

/-! ### Completions (40_command_protocol.md R167, R168) -/

/-- The two ways a command of `s` completes, from a state `u` in which its rule has not touched IRQ_STAT: `complete()`,
or an error with a nonzero code. -/
inductive CompletionOf (s : State) : State → Prop where
  | success {u : State} (hirq : u.irqStat = s.irqStat) : CompletionOf s (complete u)
  | error {u : State} {e : ErrCode} {info : Word} (hirq : u.irqStat = s.irqStat) (herr : e ≠ .success) :
      CompletionOf s (raiseError e info u)

/-- A command that ends early with an error of the codes `P`, or faults at a device, completes when it answers a next
state. -/
theorem completionOf_stopCommand {s u t : State} {stop : Stop} {P : ErrCode → Prop} (hirq : u.irqStat = s.irqStat)
    (hstop : (∃ e info, stop = .err e info ∧ P e) ∨ DeviceStop s stop) (hP : ¬ P .success)
    (h : stopCommand stop u = .next t) : CompletionOf s t := by
  obtain ⟨e, info, rfl, rfl⟩ := stopCommand_next h
  rcases hstop with ⟨e', info', he, hcode⟩ | ⟨k, -, hdevice, -⟩
  · obtain ⟨rfl, rfl⟩ := Stop.err.inj he
    exact .error hirq (by rintro rfl; exact hP hcode)
  · cases hdevice

theorem execEncode_completionOf {s t : State} (h : execEncode s = .next t) : CompletionOf s t := by
  unfold execEncode at h
  split at h
  · cases h
  · split at h
    · obtain rfl := Host.Outcome.next.inj h
      exact .error rfl (by decide)
    · split at h
      · obtain rfl := Host.Outcome.next.inj h
        exact .success rfl
      · rename_i stop hstop
        exact completionOf_stopCommand (freeDst_irqStat s) (packWindow_error hstop) (by decide) h

theorem execSerialize_completionOf {s t : State} (h : execSerialize s = .next t) : CompletionOf s t := by
  unfold execSerialize at h
  split at h
  · obtain rfl := Host.Outcome.next.inj h
    exact .error rfl (by decide)
  · split at h
    · obtain rfl := Host.Outcome.next.inj h
      exact .error rfl (by decide)
    · split at h
      · obtain rfl := Host.Outcome.next.inj h
        exact .success rfl
      · rename_i stop hstop
        obtain ⟨a, rfl⟩ := emitBytes_error hstop
        obtain rfl := Host.Outcome.next.inj h
        exact .error rfl (by decide)

theorem execDecode_completionOf {s t : State} (h : execDecode s = .next t) : CompletionOf s t := by
  unfold execDecode at h
  split at h
  · cases h
  · split at h
    · obtain rfl := Host.Outcome.next.inj h
      exact .error rfl (by decide)
    · split at h
      · obtain rfl := Host.Outcome.next.inj h
        exact .error rfl (by decide)
      · rename_i hlen
        have hin : s.bitcnt.toNat ≤ 8 * s.srcLen.toNat := by
          rw [not_not.mp hlen]
          exact (ceil8_spec _).1
        split at h
        · obtain rfl := Host.Outcome.next.inj h
          exact .success rfl
        · rename_i stop hstop
          exact completionOf_stopCommand (freeDst_irqStat s) (unpackWindow_error hin hstop) (by decide) h

/-- Every next state a command can answer is a completion. Nothing is asked of memory, so ENCODE, SERIALIZE and DECODE
are read from their rules, and the others from `Laws/Commands.lean`. -/
theorem exec_completionOf {i : Instr} {s t : State} (h : exec i s = .next t) : CompletionOf s t := by
  cases i <;> simp only [exec] at h
  case clear =>
    obtain rfl := Host.Outcome.next.inj h
    exact .success rfl
  case count =>
    rcases execCount_next h with ⟨-, rfl⟩ | ⟨-, rfl⟩ | ⟨k, -, -, -, rfl⟩
    · exact .error rfl (by decide)
    · exact .success rfl
    · exact .error rfl (by decide)
  case buildTree =>
    rcases execBuildTree_next h with ⟨-, rfl⟩ | ⟨-, tr, -, -, rfl⟩
    · exact .error rfl (by decide)
    · exact .success rfl
  case genCodes =>
    rcases execGenCodes_next h with ⟨-, rfl⟩ | ⟨tr, -, rfl⟩
    · exact .error rfl (by decide)
    · exact .success rfl
  case encode => exact execEncode_completionOf h
  case serialize => exact execSerialize_completionOf h
  case parse =>
    rcases execParse_next h with ⟨hd, -, rfl⟩ | ⟨e, info, -, hcode, rfl⟩
    · exact .success rfl
    · exact .error rfl (by rcases hcode with rfl | rfl | rfl <;> decide)
  case decode => exact execDecode_completionOf h

/-- Settles O20: a command's next state is one of the two completions, and `complete` and `raiseError` say what each
leaves; an illegal word's is the error's. -/
theorem completionEffects : Obligations.CompletionEffects := by
  refine ⟨fun i s t h => ?_, fun s t w v hidle hillegal h => ?_⟩
  · cases exec_completionOf h with
    | success hirq => simp [hirq, irqDone]
    | error hirq herr => simp [hirq, herr, irqDone, irqErr]
  · rw [hostAct_writeCmd_of_idle hidle, accept_of_illegal hillegal] at h
    obtain rfl := Host.Outcome.next.inj h
    simp

end Sys2Proof.Machine
end

section
/-! CLEAR and COUNT (41_frequency.md): the emptied session, the three ends of COUNT, and counting in parts. -/

namespace Sys2Proof.Machine

/-! ### The emptied tables (41_frequency.md R190, R191) -/

theorem total_of_zeroFreq {s : State} (h : s.freq = zeroFreq) : s.total = 0 := by
  rw [total_eq, h, freqTotal_zeroFreq]

theorem nsym_of_zeroFreq {s : State} (h : s.freq = zeroFreq) : s.nsym = 0 :=
  (nsym_eq_zero_iff s).mpr fun x => by rw [State.freqOf, h, tabGet_zeroFreq]

theorem entries_of_emptyTable {s : State} (h : s.code = emptyTable) : s.entries = [] := by
  rw [State.entries, h, entriesOf_emptyTable]

theorem tabNsym_of_emptyTable {s : State} (h : s.code = emptyTable) : s.tabNsym = 0 :=
  congrArg List.length (entries_of_emptyTable h)

theorem tableValid_of_emptyTable {s : State} (h : s.code = emptyTable) : s.tableValid = false := by
  rw [State.tableValid, tabNsym_of_emptyTable h]
  rfl

theorem maxlen_of_emptyTable {s : State} (h : s.code = emptyTable) : s.maxlen = 0 :=
  congrArg maxLenOf (entries_of_emptyTable h)

theorem hdrSize_of_emptyTable {s : State} (h : s.code = emptyTable) : s.hdrSize = 0 :=
  if_pos (tabNsym_of_emptyTable h)

/-- Settles O27: the next state is CLEAR's rule, and every view of it reads a zero FREQ or an empty table. -/
theorem clearEmptiesSession : Obligations.ClearEmptiesSession := by
  refine ⟨rfl, fun s => ⟨_, rfl, rfl, fun x => ⟨tabGet_zeroFreq x, tabGet_emptyTable x⟩, rfl, ?_, ?_, ?_, ?_, ?_⟩⟩
  · exact tableValid_of_emptyTable rfl
  · exact nsym_of_zeroFreq rfl
  · exact total_of_zeroFreq rfl
  · exact maxlen_of_emptyTable rfl
  · exact hdrSize_of_emptyTable rfl

/-! ### The three ends of COUNT (41_frequency.md R195, R198) -/

/-- The loop stops at the first byte the platform does not answer, with the bytes before it counted. -/
theorem countLoop_stopped {s : State} {k : Nat} {stop : Stop} (f : Vector Word 256) (hk : k < s.srcLen.toNat)
    (hread : s.ReadableTo k) (hstop : busRead s.platform s.mem (s.src k) = .error stop) :
    countLoop s s.srcLen.toNat 0 f = (countBytes f (srcSlice s 0 k), some stop) := by
  obtain ⟨j, -, hbefore, hend⟩ := countLoop_spec s s.srcLen.toNat 0 f
  simp only [Nat.zero_add] at hbefore hend
  have hjk : j ≤ k := by
    by_contra hlt
    rw [busRead_ok (hbefore k (by omega))] at hstop
    cases hstop
  obtain ⟨rfl, -⟩ | ⟨-, stop', hstop', hloop⟩ := hend
  · omega
  · have hkj : k ≤ j := by
      by_contra hlt
      rw [busRead_ok (hread j (by omega))] at hstop'
      cases hstop'
    obtain rfl : j = k := Nat.le_antisymm hjk hkj
    obtain rfl : stop' = stop := Except.error.inj (hstop'.symm.trans hstop)
    exact hloop

theorem execCount_of_overflow {s : State} (h : Config.totalMax < s.total + s.srcLen.toNat) :
    execCount s = .next (raiseError .countOverflow 0#32 s) :=
  if_pos h

theorem execCount_of_readable {s : State} (hfit : s.total + s.srcLen.toNat ≤ Config.totalMax)
    (hread : s.ReadableTo s.srcLen.toNat) :
    execCount s = .next (complete { s with tree := none, freq := countBytes s.freq s.srcBytes, outLen := 0#32 }) := by
  rw [execCount, if_neg (Nat.not_lt.mpr hfit), countLoop_ok s s.freq hread]

theorem execCount_of_stopped {s : State} {k : Nat} {stop : Stop} (hfit : s.total + s.srcLen.toNat ≤ Config.totalMax)
    (hk : k < s.srcLen.toNat) (hread : s.ReadableTo k)
    (hstop : busRead s.platform s.mem (s.src k) = .error stop) :
    execCount s = stopCommand stop { s with tree := none, freq := countBytes s.freq (srcSlice s 0 k) } := by
  rw [execCount, if_neg (Nat.not_lt.mpr hfit), countLoop_stopped s.freq hk hread hstop]

/-- Settles O29: the overflow check comes before any change, and `execCount_of_stopped` gives the two ends at byte `k`. -/
theorem countErrors : Obligations.CountErrors := by
  refine ⟨fun s hover => execCount_of_overflow hover, fun s k hfit hk hread => ⟨fun hbus => ?_, fun hbus hdevice => ?_⟩⟩
  · refine ⟨_, execCount_of_stopped hfit hk hread (busRead_busError hbus), fun x => ?_⟩
    have hcounted : freqTotal s.freq + (srcSlice s 0 k).length ≤ Config.totalMax := by
      rw [← total_eq, srcSlice_length]
      exact (Nat.add_le_add_left hk.le _).trans hfit
    rw [toNat_countBytes _ _ _ hcounted, srcSlice]
    simp only [Nat.zero_add]
    rfl
  · exact execCount_of_stopped hfit hk hread (busRead_device hbus hdevice)

/-! ### Counting in parts (41_frequency.md R196) -/

theorem countBytes_append (f : Vector Word 256) (as bs : List Byte) :
    countBytes f (as ++ bs) = countBytes (countBytes f as) bs :=
  List.foldl_append

/-- The counters do not depend on the order of the bytes. -/
theorem countBytes_perm {as bs : List Byte} (h : as.Perm bs) (f : Vector Word 256) :
    countBytes f as = countBytes f bs :=
  table_ext fun x => by rw [tabGet_countBytes, tabGet_countBytes, h.count_eq]

/-- `s` with its source operands set to the window of `n` bytes at `a`. -/
def State.withSrc (s : State) (a : Addr) (n : Word) : State := { s with srcAddr := a, srcLen := n }

theorem withSrc_srcBytes_length (s : State) (a : Addr) (n : Word) : (s.withSrc a n).srcBytes.length = n.toNat := by
  rw [srcBytes_eq, srcSlice_length]
  rfl

/-- COUNT of one window and then of another leaves the counters of both windows' bytes. -/
theorem execCount_twice {s : State} {a b : Addr} {m n : Word} (hfit : s.total + m.toNat + n.toNat ≤ Config.totalMax)
    (ha : (s.withSrc a m).ReadableTo m.toNat) (hb : (s.withSrc b n).ReadableTo n.toNat) :
    ∃ t u, execCount (s.withSrc a m) = .next t ∧ execCount (t.withSrc b n) = .next u ∧
      u.freq = countBytes s.freq ((s.withSrc a m).srcBytes ++ (s.withSrc b n).srcBytes) := by
  have hfitA : s.total + m.toNat ≤ Config.totalMax := (Nat.le_add_right _ _).trans hfit
  have htotal : freqTotal (countBytes s.freq (s.withSrc a m).srcBytes) = s.total + m.toNat := by
    rw [freqTotal_countBytes] <;> rw [withSrc_srcBytes_length, ← total_eq]
    exact hfitA
  refine ⟨_, _, execCount_of_readable hfitA ha, execCount_of_readable ?_ hb, (countBytes_append _ _ _).symm⟩
  rw [total_eq]
  exact (congrArg (· + n.toNat) htotal).trans_le hfit

/-- Settles O30: each order counts the bytes of both windows, and `countBytes_perm` makes the two equal. -/
theorem countAccumulates : Obligations.CountAccumulates := by
  intro s a b c m n l hlen hfit ha hb hc hbytes
  have hfitAB : s.total + m.toNat + n.toNat ≤ Config.totalMax := by rw [Nat.add_assoc, ← hlen]; exact hfit
  have hfitBA : s.total + n.toNat + m.toNat ≤ Config.totalMax := by rwa [Nat.add_right_comm]
  obtain ⟨tA, tAB, hA, hAB, hfreqAB⟩ := execCount_twice hfitAB ha hb
  obtain ⟨tB, tBA, hB, hBA, hfreqBA⟩ := execCount_twice hfitBA hb ha
  have hwhole : countBytes s.freq (s.withSrc c l).srcBytes =
      countBytes s.freq ((s.withSrc a m).srcBytes ++ (s.withSrc b n).srcBytes) := congrArg (countBytes s.freq) hbytes
  refine ⟨tA, tAB, tB, tBA, _, hA, hAB, hB, hBA, execCount_of_readable hfit hc, ?_, ?_⟩
  · exact hfreqAB.trans hwhole.symm
  · exact (hfreqBA.trans (countBytes_perm List.perm_append_comm s.freq)).trans hwhole.symm

end Sys2Proof.Machine
end

section
/-! BUILD_TREE and GEN_CODES (42_tree_codes.md): the order of nodes, the tree of the counts, and the codes of a tree. -/

namespace Sys2Proof.Machine

/-! ### The order of nodes (42_tree_codes.md R211) -/

theorem precedes_irrefl (x : Tree) : precedes x x = false := by simp [precedes]

theorem precedes_of_weight_eq {x y : Tree} (hw : x.weight = y.weight) (hk : x.key < y.key) : precedes x y = true :=
  (precedes_iff x y).mpr (.inr ⟨hw, hk⟩)

/-- Settles O33: the order is lexicographic in weight and key, and a symbol's key is below 256, every internal node's is
from 256 on. -/
theorem nodeOrder : Obligations.NodeOrder := by
  refine ⟨precedes_iff, precedes_irrefl, fun _ _ _ => precedes_trans, fun x y hkey => ?_, fun a w m l r => ?_, ?_, ?_⟩
  · by_cases hxy : precedes x y = true
    · exact .inl hxy
    · exact .inr (precedes_total hkey hxy)
  · have hsymbol : a.toNat < 256 := a.isLt
    exact precedes_of_weight_eq rfl (hsymbol.trans_le (Nat.le_add_right _ _))
  · exact fun a b w hab => precedes_of_weight_eq rfl hab
  · exact fun w m m' l r l' r' hm => precedes_of_weight_eq rfl (Nat.add_lt_add_left hm _)

/-! ### The worked trace (42_tree_codes.md R218, R225) -/

/-- Settles O35: each merge is one unfolding of the loop; the first queue, the tree and the codes are evaluated. -/
theorem workedMergeTrace : Obligations.WorkedMergeTrace := by
  unfold Obligations.WorkedMergeTrace
  refine ⟨?queue, fun _ => rfl, fun _ => rfl, fun _ => rfl, ?tree, ?codes⟩
  case queue => decide +kernel
  case tree => decide +kernel
  case codes => decide +kernel

/-! ### The shape of a tree (10_state.md R75) -/

theorem two_le_leaves_node (w k : Nat) (l r : Tree) : 2 ≤ (Tree.node w k l r).leaves.length := by
  rw [← innerKeys_length]
  simp [Tree.innerKeys]

/-- Only a leaf has one leaf. -/
theorem eq_leaf_of_leaves_length {t : Tree} (h : t.leaves.length = 1) : ∃ x w, t = .leaf x w := by
  cases t with
  | leaf x w => exact ⟨x, w, rfl⟩
  | node w k l r => have := two_le_leaves_node w k l r; omega

/-- No node weighs more than the root. -/
theorem subtree_weight_le {t n : Tree} (h : t.WeightsAdd) (hn : n ∈ t.subtrees) : n.weight ≤ t.weight := by
  rw [weight_eq_sum h, weight_eq_sum (weightsAdd_subtrees h n hn)]
  exact ((leaves_sublist_subtrees t n hn).map _).sum_le_sum fun _ _ => Nat.zero_le _

/-! ### A tree of the counts (42_tree_codes.md R214, R215) -/

theorem countedSymbols_of_single {freq : Vector Word 256} {x : Byte} (h : ∀ y, tabGet freq y ≠ 0#32 ↔ y = x) :
    countedSymbols freq = [(x, (tabGet freq x).toNat)] := by
  have hperm : (countedSymbols freq).Perm [(x, (tabGet freq x).toNat)] :=
    (List.perm_ext_iff_of_nodup (List.Nodup.of_map _ (countedSymbols_nodup freq)) (List.nodup_singleton _)).mpr fun e => by
      rw [mem_countedSymbols, h, List.mem_singleton, Prod.ext_iff]
      exact and_congr_right fun he => he ▸ Iff.rfl
  exact List.perm_singleton.mp hperm

section
variable {freq : Vector Word 256} {t : Tree}

theorem TreeOf.mem_leaves_iff (h : TreeOf freq t) (x : Byte) : x ∈ t.leaves.map (·.1) ↔ tabGet freq x ≠ 0#32 := by
  rw [(h.1.map _).mem_iff]
  simp [mem_countedSymbols]

theorem TreeOf.one_le_leaf (h : TreeOf freq t) {e : Byte × Nat} (he : e ∈ t.leaves) : 1 ≤ e.2 := by
  obtain ⟨hcounted, hweight⟩ := (mem_countedSymbols freq e.1 e.2).mp (h.1.mem_iff.mp he)
  rw [hweight]
  exact Nat.one_le_iff_ne_zero.mpr fun hzero => hcounted (BitVec.eq_of_toNat_eq hzero)

theorem TreeOf.leaves_length_le (h : TreeOf freq t) : t.leaves.length ≤ 256 := by
  simpa using distinct_symbols_le _ (treeOf_nodup h)

/-- The tree of a single counted symbol is its leaf (42_tree_codes.md R212). -/
theorem TreeOf.eq_leaf (h : TreeOf freq t) {x : Byte} (hx : ∀ y, tabGet freq y ≠ 0#32 ↔ y = x) :
    t = .leaf x (tabGet freq x).toNat := by
  have hleaves : t.leaves = [(x, (tabGet freq x).toNat)] := List.perm_singleton.mp (countedSymbols_of_single hx ▸ h.1)
  obtain ⟨y, w, rfl⟩ := eq_leaf_of_leaves_length (congrArg List.length hleaves)
  obtain ⟨rfl, rfl⟩ := Prod.mk.inj (List.singleton_inj.mp hleaves)
  rfl

end

/-! ### BUILD_TREE (42_tree_codes.md R212 to R215) -/

theorem execBuildTree_of_counted {s : State} (h : ∃ x, s.freqOf x ≠ 0#32) :
    ∃ tr, exec .buildTree s = .next (complete { s with tree := some tr, outLen := 0#32 }) ∧
      buildTree s.freq = some tr ∧ TreeOf s.freq tr := by
  have hcounted : s.nsym ≠ 0 := fun hzero => h.elim fun x hx => hx ((nsym_eq_zero_iff s).mp hzero x)
  have hexec : exec .buildTree s = .next (complete { s with tree := buildTree s.freq, outLen := 0#32 }) :=
    if_neg hcounted
  rcases execBuildTree_next hexec with ⟨hzero, -⟩ | ⟨-, tr, hbuild, htree, ht⟩
  · exact absurd hzero hcounted
  · exact ⟨tr, hexec.trans (congrArg _ ht), hbuild, htree⟩

/-- Settles O32: BUILD_TREE stores a tree of the counts, and what is said of its weights, its size and its depth holds of
every such tree. -/
theorem buildTreeBuilds : Obligations.BuildTreeBuilds := by
  intro s hcounted
  obtain ⟨tr, hexec, hbuild, htree⟩ := execBuildTree_of_counted hcounted
  have hweight : tr.weight = s.total := (treeOf_weight htree).trans (total_eq s).symm
  have hsize := htree.leaves_length_le
  have ⟨hleaves, hadd⟩ := htree
  refine ⟨tr, hexec, hbuild, hleaves, ?_, fun n hn => ?_, fun w k l r hn => ?_, fun e he => ?_, hweight,
    fun hfits n hn => ?_, ?_, fun e he => ?_, fun x hx => ?_⟩
  · rw [hleaves.length_eq, countedSymbols_length]
  · exact weight_eq_sum (weightsAdd_subtrees hadd n hn)
  · exact (weightsAdd_subtrees hadd _ hn).1
  · exact htree.one_le_leaf he
  · exact (subtree_weight_le hadd hn).trans (hweight.trans_le hfits)
  · have := innerKeys_length tr
    omega
  · have := path_length_lt tr e he
    omega
  · exact htree.eq_leaf hx

/-! ### The codes of a tree (42_tree_codes.md R220 to R223) -/

section
variable {t : Tree} (hn : (t.leaves.map (·.1)).Nodup)
include hn

theorem mem_leafCodes_of_ne_nil {x : Byte} (hx : tabGet (codesOf t) x ≠ []) : (x, tabGet (codesOf t) x) ∈ leafCodes t :=
  (mem_entriesOf_codesOf t hn _).mp ((mem_entriesOf _ x _).mpr ⟨rfl, hx⟩)

/-- Exactly the symbols of the leaves have codes (42_tree_codes.md R223 (a)). -/
theorem codesOf_ne_nil_iff (x : Byte) : tabGet (codesOf t) x ≠ [] ↔ x ∈ t.leaves.map (·.1) := by
  refine ⟨fun hx => by_contra fun hmem => hx ((tabGet_codesOf t hn).2 x hmem), fun hmem => ?_⟩
  rw [← leafCodes_map_fst] at hmem
  obtain ⟨e, he, rfl⟩ := List.mem_map.mp hmem
  exact (tabGet_codesOf t hn).1 e he ▸ leafCodes_ne_nil t e he

theorem codesOf_length_le {x : Byte} (hx : tabGet (codesOf t) x ≠ []) :
    (tabGet (codesOf t) x).length ≤ max 1 (t.leaves.length - 1) :=
  leafCodes_length_bound t _ (mem_leafCodes_of_ne_nil hn hx)

end

theorem entriesOf_codesOf_leaf (x : Byte) (w : Nat) : entriesOf (codesOf (.leaf x w)) = [(x, [false])] :=
  List.perm_singleton.mp (entriesOf_codesOf_perm (.leaf x w) (List.nodup_singleton x))

/-- The one code of a single leaf fills half the code space (42_tree_codes.md R223 (e)). -/
theorem kraft_codesOf_leaf (x : Byte) (w : Nat) : kraftSum (codesOf (.leaf x w)) = 2 ^ (Config.lenMax - 1) := by
  simp [kraftSum, entriesOf_codesOf_leaf]

/-! ### GEN_CODES (42_tree_codes.md R220 to R224) -/

theorem execGenCodes_of_tree {s : State} {tr : Tree} (h : s.tree = some tr) :
    exec .genCodes s = .next (complete { s with code := codesOf tr, tree := none, outLen := 0#32 }) := by
  simp [exec, execGenCodes, h]

/-- Settles O36: the table is `codesOf` of the tree, which reads at a leaf's symbol the leaf's code and nothing elsewhere. -/
theorem genCodesWritesPaths : Obligations.GenCodesWritesPaths := by
  intro s tr htr hnodup
  obtain ⟨hleaf, hother⟩ := tabGet_codesOf tr hnodup
  refine ⟨codesOf tr, execGenCodes_of_tree htr, ?_, ?_, hother⟩
  · rintro x w rfl
    exact hleaf (x, [false]) (List.mem_singleton_self _)
  · rintro w k l r rfl
    exact hleaf

/-- Settles O37: the codes are the paths of a tree whose leaves are the counted symbols; two leaves or more fill the code
space, and a single leaf has the code "0". -/
theorem genCodesTableProperties : Obligations.GenCodesTableProperties := by
  intro s tr htr htree
  have hnodup := treeOf_nodup htree
  have hbound (x : Byte) (hx : (tabGet (codesOf tr) x).length ≠ 0) :
      (tabGet (codesOf tr) x).length ≤ max 1 (tr.leaves.length - 1) :=
    codesOf_length_le hnodup fun hnil => hx (congrArg List.length hnil)
  refine ⟨_, execGenCodes_of_tree htr, ⟨entriesOf_codesOf_length hnodup, fun x => ?_⟩, fun htwo x hx => ?_,
    fun hone x hx => ?_, codesFit_codesOf tr hnodup, prefixFree_codesOf tr hnodup, kraft_codesOf tr hnodup, fun hone => ?_⟩
  · exact List.length_eq_zero_iff.not.trans ((codesOf_ne_nil_iff hnodup x).trans (htree.mem_leaves_iff x))
  · exact (hbound x hx).trans (max_le (by omega) le_rfl)
  · have hle : (tabGet (codesOf tr) x).length ≤ 1 := (hbound x hx).trans (by simp [hone])
    exact hle.antisymm (Nat.one_le_iff_ne_zero.mpr hx)
  · obtain ⟨x, w, rfl⟩ := eq_leaf_of_leaves_length hone
    exact ⟨⟨x, entriesOf_codesOf_leaf x w⟩, kraft_codesOf_leaf x w⟩

/-- Settles O38: each run stores the tree `buildTree` makes of FREQ and then writes that tree's codes. -/
theorem codesDependOnCountsOnly : Obligations.CodesDependOnCountsOnly := by
  intro s₁ s₂ hfreq hcounted
  have hcounted₂ : ∃ x, s₂.freqOf x ≠ 0#32 := by simpa [State.freqOf, hfreq] using hcounted
  obtain ⟨tr, hexec₁, hbuild₁, -⟩ := execBuildTree_of_counted hcounted
  obtain ⟨tr₂, hexec₂, hbuild₂, -⟩ := execBuildTree_of_counted hcounted₂
  obtain rfl : tr = tr₂ := Option.some.inj (hbuild₁.symm.trans (hfreq ▸ hbuild₂))
  exact ⟨_, _, _, _, hexec₁, execGenCodes_of_tree rfl, hexec₂, execGenCodes_of_tree rfl, rfl, rfl, rfl⟩

end Sys2Proof.Machine
end

section
/-! ENCODE (43_encode.md): the packed window, the stops of the packing, and the number of bits. -/

namespace Sys2Proof.Machine

/-! ### The two ends of ENCODE behind its checks (43_encode.md R240, R246) -/

theorem execEncode_of_packed {s : State} {p : Packer} (hapart : s.WindowsApart) (htable : s.tabNsym ≠ 0)
    (hpack : packWindow s = .ok p) :
    execEncode s = .next (complete
      { s with mem := p.mem, bitcnt := BitVec.ofNat 64 p.n, outLen := BitVec.ofNat 32 (ceil8 p.n) }) := by
  simp [execEncode, (overlapHazard_encode s).mpr hapart, htable, hpack]

theorem execEncode_of_stopped {s : State} {stop : Stop} (hapart : s.WindowsApart) (htable : s.tabNsym ≠ 0)
    (hpack : packWindow s = .error stop) : execEncode s = stopCommand stop (freeDst s) := by
  simp [execEncode, (overlapHazard_encode s).mpr hapart, htable, hpack]

/-! ### The payload in memory (43_encode.md R241, R242) -/

/-- Bit `k` of the stream stands at bit 7 - k mod 8 of byte k div 8, and a padding bit is 0. -/
theorem PayloadAt.bit {s : State} {bs : Code} {m : Memory} (h : PayloadAt s bs m) {k : Nat}
    (hk : k < 8 * ceil8 bs.length) : (memRead m (s.dst (k / 8)).toNat).getLsbD (7 - k % 8) = bs.getD k false := by
  rw [h.bytes (k / 8) (Nat.div_lt_of_lt_mul hk), pack_bit bs k hk]

theorem PayloadAt.mem_eq_of_nil {s : State} {m : Memory} (h : PayloadAt s [] m) (hm : Memory.wf s.mem = true) :
    m = s.mem :=
  memory_ext h.wf hm fun a => h.outside a fun _ hj => absurd hj (Nat.not_lt_zero _)

theorem srcBytes_of_srcLen_zero {s : State} (h : s.srcLen = 0#32) : s.srcBytes = [] := by
  simp [State.srcBytes, h]

/-- Settles O39: the packing succeeds, and the memory it leaves is the payload of the source bytes' codes. -/
theorem encodePacksWindow : Obligations.EncodePacksWindow := by
  intro s hm hapart htable hread hknown hfit hwrite
  obtain ⟨p, hpack⟩ := packWindow_ok hm hapart hread hknown hfit hwrite
  obtain ⟨hbits, hpayload, -⟩ := packWindow_payload hm hapart hpack
  refine ⟨p.mem, ?_, fun k hk => hpayload.bit hk, hpayload.outside, fun hempty => ?_⟩
  · rw [← hbits]
    exact execEncode_of_packed hapart htable hpack
  · rw [srcBytes_of_srcLen_zero hempty] at hpayload
    exact hpayload.mem_eq_of_nil hm

/-! ### The stops of ENCODE (43_encode.md R243, R244; 60_exceptions.md R312, R314) -/

theorem srcSlice_zero (s : State) (k : Nat) : srcSlice s 0 k = (List.range k).map s.srcByte := by
  simp [srcSlice]

theorem srcSlice_zero_known {s : State} {k : Nat} (h : ∀ i, i < k → s.codeOf (s.srcByte i) ≠ []) :
    ∀ x ∈ srcSlice s 0 k, s.codeOf x ≠ [] := by
  simpa [srcSlice_zero] using h

/-- Settles O40: behind `k` known bytes each premise makes the packing stop, and `execEncode_of_stopped` says what the
stop leaves. A refused payload byte is completed by the bits of the `k` bytes, or is the padded last one. -/
theorem encodeErrors : Obligations.EncodeErrors := by
  intro s k hm hapart htable hcodes
  have hknown := srcSlice_zero_known hcodes
  have hstop {stop : Stop} := execEncode_of_stopped (stop := stop) hapart htable
  simp only [← srcSlice_zero]
  refine ⟨fun hk hread hunknown hfit hwrite => ?_, fun hk hread hbig hwrite => ?_,
    fun hk hread hfit hwrite => ⟨fun hbus => ?_, fun hbus hdevice => ?_⟩, fun j hk hread hj hwrite hbad hbits => ?_⟩
  · exact hstop (packWindow_unknown hm hapart hk hread hknown hunknown hfit hwrite)
  · exact hstop (packWindow_overflow hm hapart hk hread hknown hbig hwrite)
  · exact hstop (packWindow_readStop hm hapart hk hread hknown hfit hwrite fun _ => busRead_busError hbus)
  · exact hstop (packWindow_readStop hm hapart hk hread hknown hfit hwrite fun _ => busRead_device hbus hdevice)
  · obtain hfull | ⟨rfl, hstarted, hpartial⟩ := hbits
    · exact hstop (packWindow_writeStop hm hapart hk hread hknown hfull hj hwrite hbad)
    · rw [← srcBytes_eq] at hknown hstarted hpartial
      exact hstop (packWindow_lastStop hm hapart hread hknown (by omega) (by omega) (by omega) hwrite hbad)

/-! ### The number of bits (43_encode.md R247) -/

theorem srcBytes_length (s : State) : s.srcBytes.length = s.srcLen.toNat := by simp [State.srcBytes]

theorem codeBits_length_le {code : Vector Code 256} (hfit : CodesFit code) (xs : List Byte) :
    (codeBits code xs).length ≤ 255 * xs.length := by
  induction xs with
  | nil => exact Nat.le_refl 0
  | cons x xs ih =>
    have hx : (tabGet code x).length ≤ 255 := hfit x
    rw [codeBits_cons, List.length_append, List.length_cons]
    omega

/-- The bits of a list of bytes, gathered by symbol: the count of each symbol times the length of its code. -/
theorem codeBits_length_eq_sum (code : Vector Code 256) (xs : List Byte) :
    (codeBits code xs).length =
      ∑ n : Fin 256, xs.count (BitVec.ofFin n) * (tabGet code (BitVec.ofFin n)).length := by
  rw [codeBits_length, sum_map_count xs fun x => (tabGet code x).length, sum_map_symbols]

/-- What a successful ENCODE leaves in BITCNT and OUT_LEN: the payload's bits, and its bytes, which DST_CAP holds. -/
theorem execEncode_success_counts {s t : State} (hm : Memory.wf s.mem = true) (h : exec .encode s = .next t)
    (hok : t.errCode = .success) :
    t.bitcnt = BitVec.ofNat 64 (codeBits s.code s.srcBytes).length ∧
    t.outLen = BitVec.ofNat 32 (ceil8 (codeBits s.code s.srcBytes).length) ∧
    ceil8 (codeBits s.code s.srcBytes).length ≤ s.dstCap.toNat := by
  rcases (execEncode_next hm h).2 with ⟨-, rfl⟩ | ⟨-, m, hstored, -, rfl⟩ | ⟨-, e, info, he, rfl⟩
  · cases hok
  · exact ⟨rfl, rfl, (pack_length _).symm.trans_le hstored.fits⟩
  · obtain rfl : e = .success := hok
    simp at he

/-- Settles O41: no code is longer than 255 bits, so neither count wraps; gathering the bits by symbol gives the sum. -/
theorem encodeBitCount : Obligations.EncodeBitCount := by
  intro s t hinv h hok
  obtain ⟨hbitcnt, hout, hcap⟩ := execEncode_success_counts hinv.memory h hok
  have hle : (codeBits s.code s.srcBytes).length ≤ 255 * s.srcLen.toNat :=
    srcBytes_length s ▸ codeBits_length_le hinv.codesFit s.srcBytes
  have hlen : t.bitcnt.toNat = (codeBits s.code s.srcBytes).length := by
    rw [hbitcnt, BitVec.toNat_ofNat, Nat.mod_eq_of_lt (by omega)]
  have houtLen : t.outLen.toNat = ceil8 t.bitcnt.toNat := by
    rw [hout, hlen, toNat_ofNat_of_fits (by omega)]
  refine ⟨hlen, hlen ▸ hle, by omega, houtLen, by rwa [houtLen, hlen], fun hfreq => ?_⟩
  simp only [hfreq]
  exact hlen.trans (codeBits_length_eq_sum s.code s.srcBytes)

end Sys2Proof.Machine
end

section
/-! SERIALIZE and PARSE (44_header.md): the written header, the loaded table, the round trip, and a rejected header. -/

namespace Sys2Proof.Machine

/-! ### The ends of SERIALIZE behind its checks (44_header.md R260 to R262) -/

section
variable {s : State} (htable : s.tabNsym ≠ 0) (hroom : s.hdrSize ≤ s.dstCap.toNat)
include htable hroom

theorem execSerialize_of_emitted {m : Memory}
    (hemit : emitBytes s (headerBytes s.entries s.bitcnt.toNat) 0 s.mem = .ok m) :
    execSerialize s = .next (complete { s with mem := m, outLen := BitVec.ofNat 32 s.hdrSize }) := by
  rw [execSerialize, if_neg htable, if_neg (Nat.not_lt.mpr hroom), hemit]

theorem execSerialize_of_stopped {stop : Stop}
    (hemit : emitBytes s (headerBytes s.entries s.bitcnt.toNat) 0 s.mem = .error stop) :
    execSerialize s = stopCommand stop (freeDst s) := by
  rw [execSerialize, if_neg htable, if_neg (Nat.not_lt.mpr hroom), hemit]

/-- With access to its whole header SERIALIZE completes, and the header is stored. -/
theorem execSerialize_of_writable (hm : Memory.wf s.mem = true) (hwrite : s.WritableTo s.hdrSize) :
    ∃ m, execSerialize s = .next (complete { s with mem := m, outLen := BitVec.ofNat 32 s.hdrSize }) ∧
      Stored s (headerBytes s.entries s.bitcnt.toNat) m := by
  have hlen := hdrSize_eq s htable s.bitcnt.toNat
  rw [hlen, ← Nat.zero_add (headerBytes _ _).length] at hwrite
  obtain ⟨m, hemit⟩ := emitBytes_ok (m := s.mem) hwrite
  obtain ⟨hwf, hbytes, houtside⟩ := emitBytes_eq_ok hm (by omega) hemit
  simp only [Nat.zero_add] at hbytes houtside
  exact ⟨m, execSerialize_of_emitted htable hroom hemit, hlen ▸ hroom, hwf, hbytes, houtside⟩

end

/-- The entries are the symbols with a code, each with its own (10_state.md R70, R72). -/
theorem mem_entries_iff (s : State) (x : Byte) (c : Code) :
    (x, c) ∈ s.entries ↔ c = s.codeOf x ∧ s.codeLen x ≠ 0 :=
  (mem_entriesOf s.code x c).trans (and_congr_right fun h => h ▸ List.length_eq_zero_iff.not.symm)

/-- Settles O42: the writing stores the whole header, or stops at the first byte that is refused; the entries are
sorted by symbol. -/
theorem serializeWritesHeader : Obligations.SerializeWritesHeader := by
  refine ⟨fun s hm htable hroom hwrite => ⟨?_, entriesOf_sorted s.code, mem_entries_iff s⟩,
    fun s j htable hroom hj hwrite hbad => ?_⟩
  · obtain ⟨m, hexec, hstored⟩ := execSerialize_of_writable htable hroom hm hwrite
    exact ⟨m, hexec, (hdrSize_eq s htable _).symm, hstored⟩
  · have hlen := hdrSize_eq s htable s.bitcnt.toNat
    exact execSerialize_of_stopped htable hroom (emitBytes_busError (Nat.zero_le j) (by omega) hwrite hbad)

/-! ### The two ends of PARSE (44_header.md R270, R275) -/

theorem execParse_of_error {s : State} {stop : Stop} (h : parseHeader s = .error stop) :
    execParse s = stopCommand stop { s with code := emptyTable, hdrLen := 0#32 } := by
  rw [execParse, h]

theorem execParse_of_header {s : State} {es : List (Byte × Code)} {total : Nat} {bs : List Byte} (hne : es ≠ [])
    (hagree : EntriesAgree es) (htotal : total < 2 ^ 64) (hfits : HeaderFits es total bs) (hholds : HoldsAt s 0 bs)
    (hlen : bs.length ≤ s.srcLen.toNat) (hread : s.ReadableTo bs.length) :
    execParse s = .next (complete
      { s with
        code := tableOf es
        bitcnt := BitVec.ofNat 64 total
        hdrLen := BitVec.ofNat 32 bs.length
        outLen := 0#32 }) := by
  rw [execParse, parseHeader_ok hne hagree htotal hfits hholds hlen hread]

/-! ### The loaded table (44_header.md R273, R274) -/

theorem tabNsym_of_tableOf {s : State} {es : List (Byte × Code)} (hagree : EntriesAgree es)
    (hcode : s.code = tableOf es) : s.tabNsym = es.length := by
  rw [State.tabNsym, State.entries, hcode, (entriesOf_tableOf_perm hagree).length_eq]

/-- HDR_SIZE of the loaded table is the length of the header it was loaded from, whatever the order of its entries. -/
theorem hdrSize_of_tableOf {s : State} {es : List (Byte × Code)} {total : Nat} {bs : List Byte} (hne : es ≠ [])
    (hagree : EntriesAgree es) (hfits : HeaderFits es total bs) (hcode : s.code = tableOf es) :
    s.hdrSize = bs.length := by
  have htable : s.tabNsym ≠ 0 := by rwa [tabNsym_of_tableOf hagree hcode, ne_eq, List.length_eq_zero_iff]
  rw [State.hdrSize, if_neg htable, hfits.length, State.entries, hcode,
    ((entriesOf_tableOf_perm hagree).map fun e => entrySize e.2).sum_eq]

/-- Settles O44: the header is parsed into exactly these entries, and the table of a list of agreeing entries has each
of them and no other. -/
theorem parseAcceptsHeader : Obligations.ParseAcceptsHeader := by
  intro s es total bs hne hagree htotal hfits hholds hlen hread
  obtain ⟨hloaded, hothers⟩ := tabGet_tableOf hagree
  exact ⟨tableOf es, execParse_of_header hne hagree htotal hfits hholds hlen hread, hloaded, hothers,
    tabNsym_of_tableOf hagree rfl, hdrSize_of_tableOf hne hagree hfits rfl, hfits.length⟩

/-! ### The round trip (44_header.md R276) -/

/-- What is stored in a destination window is held by a source window at the same address. -/
theorem Stored.holdsAt {s t : State} {bs : List Byte} (h : Stored s bs t.mem) (haddr : t.srcAddr = s.dstAddr) :
    HoldsAt t 0 bs := by
  intro k hk
  rw [State.srcByte, State.src, haddr, Nat.zero_add]
  exact h.bytes k hk

/-- Settles O45: SERIALIZE stores a header of the table's own entries, which agree, and PARSE loads them back. -/
theorem headerRoundTrip : Obligations.HeaderRoundTrip := by
  intro s n hinv htable hroom hwrite hn hread
  obtain ⟨m, hserialize, hstored⟩ := execSerialize_of_writable htable hroom hinv.memory hwrite
  have hlen := hdrSize_eq s htable s.bitcnt.toNat
  have hparse := execParse_of_header
    (s := { complete { s with mem := m, outLen := BitVec.ofNat 32 s.hdrSize } with srcAddr := s.dstAddr, srcLen := n })
    (List.length_pos_iff.mp (Nat.pos_of_ne_zero htable)) (entriesAgree_entriesOf hinv.codesFit hinv.prefixFree)
    s.bitcnt.isLt (headerFits_headerBytes s.entries s.bitcnt.toNat) (hstored.holdsAt rfl) (hlen ▸ hn) (hlen ▸ hread)
  refine ⟨_, _, hserialize, rfl, hparse, rfl, ?_, ?_, ?_⟩
  · exact tableOf_entriesOf hinv.codesFit hinv.prefixFree
  · exact (BitVec.ofNat_toNat 64 s.bitcnt).trans (BitVec.setWidth_eq s.bitcnt)
  · rw [← hlen]
    have hsmall := hdrSize_le s hinv.codesFit
    exact toNat_ofNat_of_fits (by omega)

/-! ### A rejected header (44_header.md R272, R275) -/

/-- DECODE checks for a table before it looks at its payload (45_decode.md R290). -/
theorem execDecode_of_noTable {s : State} (hapart : s.WindowsApart) (htable : s.tabNsym = 0) :
    execDecode s = .next (raiseError .noTable 0#32 (freeDst s)) := by
  simp [execDecode, (overlapHazard_decode s).mpr hapart, htable]

/-- Settles O46: an error of PARSE leaves the empty table, and DECODE of it has no table. -/
theorem parseErrorEmptiesTable : Obligations.ParseErrorEmptiesTable := by
  intro s t h herr
  obtain ⟨_, -, rfl⟩ | ⟨e, info, -, hcode, rfl⟩ := execParse_next h
  · exact absurd rfl herr
  · have htable : (raiseError e info { s with code := emptyTable, hdrLen := 0#32 }).tabNsym = 0 :=
      tabNsym_of_emptyTable rfl
    refine ⟨by simpa using hcode, fun x => ?_, htable, tableValid_of_emptyTable rfl, rfl, rfl, rfl,
      fun hapart => ⟨_, execDecode_of_noTable hapart htable, rfl⟩⟩
    exact congrArg List.length (tabGet_emptyTable x)

theorem conflicts_of_mem {es : List (Byte × Code)} {e f : Byte × Code} (hf : f ∈ es)
    (h : f.1 = e.1 ∨ f.2 <+: e.2 ∨ e.2 <+: f.2) : conflicts es e.1 e.2 = true := by
  by_contra hno
  obtain ⟨hsymbol, hprefix, hextends⟩ := (conflicts_eq_false_iff es e.1 e.2).mp (by simpa using hno) f hf
  exact h.elim hsymbol (Or.elim · hprefix hextends)

/-- Settles O48: behind the agreeing entries the parser reads the whole of the next one and finds the conflict. -/
theorem parseRejectsConflict : Obligations.ParseRejectsConflict := by
  intro s es parts e bs count hagree hparts hlt hcount hmin hmax hfits hconflict hholds hlen hread
  obtain ⟨f, hf, hclash⟩ := hconflict
  rw [List.append_assoc, holdsAt_append, beBytes_length] at hholds
  obtain ⟨hcountBytes, hentries⟩ := hholds
  have hstop : parseEntries s count 0 [] 2 = .error (.err .headerIntegrity (BitVec.ofNat 32 (0 + es.length))) :=
    parseEntries_conflict hagree hparts hmin hmax hfits (conflicts_of_mem hf hclash) hentries hlen hread hlt
  rw [Nat.zero_add] at hstop
  exact execParse_of_error (parseHeader_start (by omega) hcount hcountBytes (by omega)
    (fun k hk => hread k (by omega)) hstop)

end Sys2Proof.Machine
end

section
/-! DECODE (45_decode.md): the payload's length, and bits that resolve to no symbol. -/

namespace Sys2Proof.Machine

/-! ### The ends of DECODE behind its table check (45_decode.md R290, R292, R299) -/

/-- The payload's length is compared with BITCNT before any byte is read. -/
theorem execDecode_of_wrongLength {s : State} (hapart : s.WindowsApart) (htable : s.tabNsym ≠ 0)
    (hlen : s.srcLen.toNat ≠ ceil8 s.bitcnt.toNat) :
    execDecode s = .next (raiseError .truncatedStream 1#32 (freeDst s)) := by
  simp [execDecode, (overlapHazard_decode s).mpr hapart, htable, hlen]

theorem execDecode_of_stopped {s : State} {stop : Stop} (hapart : s.WindowsApart) (htable : s.tabNsym ≠ 0)
    (hlen : s.srcLen.toNat = ceil8 s.bitcnt.toNat) (hunpack : unpackWindow s = .error stop) :
    execDecode s = stopCommand stop (freeDst s) := by
  simp [execDecode, (overlapHazard_decode s).mpr hapart, htable, hlen, hunpack]

/-- The payload's bytes hold all of its bits. -/
theorem bitcnt_le_of_srcLen {s : State} (hlen : s.srcLen.toNat = ceil8 s.bitcnt.toNat) :
    s.bitcnt.toNat ≤ 8 * s.srcLen.toNat :=
  hlen ▸ (ceil8_spec s.bitcnt.toNat).1

/-! ### Bits that resolve to no symbol (45_decode.md R294 to R296) -/

theorem matchCode_entries_eq_none {s : State} {acc : Code} (h : ∀ x, s.codeOf x ≠ acc) :
    matchCode s.entries acc = none :=
  Option.eq_none_iff_forall_ne_some.mpr fun x hx => h x (matchCode_entries_eq_some hx).1

/-- Settles O52: a payload of another length is rejected at the length check; otherwise no start of the bits behind the
symbols resolves, so MAXLEN of them stop the unpacking, and fewer are left over at its end. -/
theorem decodeTruncatedStream : Obligations.DecodeTruncatedStream := by
  refine ⟨fun s hapart htable hlen => execDecode_of_wrongLength hapart htable hlen, ?_⟩
  intro s xs rest hm hprefix hapart htable hlen hcodes hrest hunmatched hcount hread hbits hfit hwrite
  have hnone (m : Nat) (hlt : m < rest.length) : matchCode s.entries (rest.take (m + 1)) = none :=
    matchCode_entries_eq_none (hunmatched (m + 1) (Nat.le_add_left 1 m) hlt)
  have hin := bitcnt_le_of_srcLen hlen
  have hstop {stop : Stop} := execDecode_of_stopped (stop := stop) hapart htable hlen
  refine ⟨fun hmax => ?_, fun hshort hend => ?_⟩
  · exact hstop (unpackWindow_unresolved hm hprefix hapart hcodes hrest hnone hmax hcount hin hread hbits hfit hwrite)
  · rw [List.length_append, hend] at hbits
    rw [hend] at hread
    exact hstop (unpackWindow_truncated hm hprefix hapart hcodes hrest hnone hshort hend.symm hin hread hbits hfit hwrite)

end Sys2Proof.Machine
end

section
/-! Exceptions (60_exceptions.md): the interrupt output, events in one step, and what an error leaves of the block and
of memory. -/

namespace Sys2Proof.Machine

/-! ### The interrupt output (60_exceptions.md R320) -/

theorem irq_eq_true_iff (s : State) :
    s.irq = true ↔
      (s.irqStat.getLsbD 0 = true ∧ s.irqEn.getLsbD 0 = true) ∨
      (s.irqStat.getLsbD 1 = true ∧ s.irqEn.getLsbD 1 = true) ∨
      (s.irqStat.getLsbD 2 = true ∧ s.irqEn.getLsbD 2 = true) := by
  simp only [State.irq, Bool.or_eq_true, Bool.and_eq_true, or_assoc]

/-- Settles O12: `State.irq` is the disjunction over the three pending and enabled bits, and reset clears them all. -/
theorem interruptOutput : Obligations.InterruptOutput :=
  ⟨irq_eq_true_iff, rfl⟩

/-! ### Events in one step (60_exceptions.md R315) -/

/-- In a beat with an action and a completion, the command that runs after the action completes (log entry 18). -/
theorem step_of_completingBeat {s u : State} {a : HostAct} {bs : List Beat}
    (hbeats : s.beats = { act := some a, finish := true } :: bs)
    (hact : hostAct a { s with beats := bs } = .next u) : step s = finishRunning u := by
  simp [step, nextBeat, hbeats, runBeat, hact, engineBeat]

theorem step_of_completion {s u : State} {a : HostAct} {bs : List Beat} {i : Instr}
    (hbeats : s.beats = { act := some a, finish := true } :: bs)
    (hact : hostAct a { s with beats := bs } = .next u) (hrunning : u.running = some i) : step s = exec i u := by
  rw [step_of_completingBeat hbeats hact, finishRunning, hrunning]

theorem step_of_no_completion {s u : State} {a : HostAct} {bs : List Beat}
    (hbeats : s.beats = { act := some a, finish := true } :: bs)
    (hact : hostAct a { s with beats := bs } = .next u) (hidle : u.running = none) : step s = .next u := by
  rw [step_of_completingBeat hbeats hact, finishRunning, hidle]

theorem hostAct_writeCmd_of_busy {s : State} (hbusy : s.busy = true) (v : Word) :
    hostAct (.regWrite Reg.cmd.offset 4 v) s = .next (dropWrite s) :=
  (hostAct_write .cmd v s).trans (writeAt_of_busy hbusy (.inl rfl) v)

/-- A completion sets DONE, and ERR after an error (40_command_protocol.md R167, R168). -/
theorem exec_sets_irqStat {i : Instr} {s t : State} (h : exec i s = .next t) :
    t.irqStat.getLsbD 0 = true ∧ (t.errCode ≠ .success → t.irqStat.getLsbD 1 = true) := by
  cases exec_completionOf h with
  | success _ => simp [irqDone]
  | error _ _ => simp [irqDone, irqErr]

/-- Settles O18: the host's action leaves the running command running with DROP set or the acknowledged bits clear, and
its completion comes after; reset leaves no command to complete. -/
theorem simultaneousEvents : Obligations.SimultaneousEvents := by
  intro s i bs v hrunning
  refine ⟨fun hbeats => ?_, fun hbeats t hstep => ?_, fun hbeats => ⟨?_, rfl⟩⟩
  · have hbusy : ({ s with beats := bs } : State).busy = true := by simp [State.busy, hrunning]
    exact step_of_completion hbeats (hostAct_writeCmd_of_busy hbusy v) hrunning
  · rw [step_of_completion hbeats (hostAct_write .irqStat v _) hrunning] at hstep
    exact exec_sets_irqStat hstep
  · exact step_of_no_completion hbeats rfl rfl

/-! ### What an error leaves (60_exceptions.md R317, R318) -/

theorem writesDst_iff (i : Instr) : writesDst i = true ↔ i = .encode ∨ i = .serialize ∨ i = .decode := by
  cases i <;> decide

/-- The states a command can be in after its error: `raise` on the state its own rule has left by then. The writing
commands have freed their window, COUNT has checked the total or counted `k` bytes, and PARSE has dropped the table. -/
inductive CommandError (s : State) : Instr → State → Prop where
  | windowFreed {i : Instr} (hwrites : writesDst i = true) (e : ErrCode) (info : Word) :
      CommandError s i (raiseError e info (freeDst s))
  | countOverflow : CommandError s .count (raiseError .countOverflow 0#32 s)
  | countStopped {k : Nat} (hk : k < s.srcLen.toNat) (hfit : s.total + s.srcLen.toNat ≤ Config.totalMax) :
      CommandError s .count
        (raiseError .busError (s.src k) { s with tree := none, freq := countBytes s.freq (srcSlice s 0 k) })
  | emptyAlphabet (hnsym : s.nsym = 0) : CommandError s .buildTree (raiseError .emptyAlphabet 0#32 s)
  | noTree (htree : s.tree = none) : CommandError s .genCodes (raiseError .noTree 0#32 s)
  | headerRejected (e : ErrCode) (info : Word) :
      CommandError s .parse (raiseError e info { s with code := emptyTable, hdrLen := 0#32 })

theorem exec_commandError {i : Instr} {s t : State} (hm : Memory.wf s.mem = true) (h : exec i s = .next t)
    (herr : t.errCode ≠ .success) : CommandError s i t := by
  cases i <;> simp only [exec] at h
  case clear =>
    obtain rfl := Host.Outcome.next.inj h
    exact absurd rfl herr
  case count =>
    rcases execCount_next h with ⟨-, rfl⟩ | ⟨-, rfl⟩ | ⟨k, hk, hfit, -, rfl⟩
    · exact .countOverflow
    · exact absurd rfl herr
    · exact .countStopped hk hfit
  case buildTree =>
    rcases execBuildTree_next h with ⟨hnsym, rfl⟩ | ⟨-, tr, -, -, rfl⟩
    · exact .emptyAlphabet hnsym
    · exact absurd rfl herr
  case genCodes =>
    rcases execGenCodes_next h with ⟨htree, rfl⟩ | ⟨tr, -, rfl⟩
    · exact .noTree htree
    · exact absurd rfl herr
  case encode =>
    rcases (execEncode_next hm h).2 with ⟨-, rfl⟩ | ⟨-, m, -, -, rfl⟩ | ⟨-, e, info, -, rfl⟩
    · exact .windowFreed rfl _ _
    · exact absurd rfl herr
    · exact .windowFreed rfl _ _
  case serialize =>
    rcases execSerialize_next hm h with ⟨-, rfl⟩ | ⟨-, -, rfl⟩ | ⟨-, -, m, -, rfl⟩ | ⟨-, -, info, rfl⟩
    · exact .windowFreed rfl _ _
    · exact .windowFreed rfl _ _
    · exact absurd rfl herr
    · exact .windowFreed rfl _ _
  case parse =>
    rcases execParse_next h with ⟨hd, -, rfl⟩ | ⟨e, info, -, -, rfl⟩
    · exact absurd rfl herr
    · exact .headerRejected e info
  case decode =>
    rcases (execDecode_next hm h).2 with ⟨-, rfl⟩ | ⟨-, -, rfl⟩ | ⟨-, -, xs, m, -, -, -, rfl⟩ |
        ⟨-, -, e, info, -, rfl⟩
    · exact .windowFreed rfl _ _
    · exact .windowFreed rfl _ _
    · exact absurd rfl herr
    · exact .windowFreed rfl _ _

/-- An illegal word written to an idle block raises ILLEGAL_COMMAND and does nothing else but the acceptance. -/
theorem eq_of_illegalWrite {s t : State} {w v : Word} (hidle : s.busy = false) (hillegal : decode w = .illegal v)
    (h : hostAct (.regWrite Reg.cmd.offset 4 w) s = .next t) :
    t = raiseError .illegalCommand v (markAccepted w s) := by
  rw [hostAct_writeCmd_of_idle hidle, accept_of_illegal hillegal] at h
  exact (Host.Outcome.next.inj h).symm

/-! ### Memory after an error (60_exceptions.md R317) -/

theorem freeDst_dstByte {s : State} (hm : Memory.wf s.mem = true) {j : Nat} (hj : j < s.dstCap.toNat) :
    (freeDst s).dstByte j = Config.freeByte (s.draws + j) :=
  memRead_drawWindow_inside s.dstAddr s.draws s.dstCap.toNat s.dstCap.isLt.le hm hj

theorem memRead_freeDst_outside {s : State} (hm : Memory.wf s.mem = true) {a : Nat}
    (ha : s.OutsideDst s.dstCap.toNat a) : memRead (freeDst s).mem a = memRead s.mem a :=
  memRead_drawWindow_outside s.dstAddr s.draws s.dstCap.toNat hm ha

/-- The error of a command with a destination window is raised on the freed window. -/
theorem CommandError.eq_of_writesDst {i : Instr} {s t : State} (h : CommandError s i t) (hwrites : writesDst i = true) :
    ∃ e info, t = raiseError e info (freeDst s) := by
  cases h with
  | windowFreed _ e info => exact ⟨e, info, rfl⟩
  | _ => cases hwrites

theorem CommandError.mem_eq {i : Instr} {s t : State} (h : CommandError s i t) (hwrites : writesDst i = false) :
    t.mem = s.mem := by
  cases h with
  | windowFreed hw _ _ => rw [hw] at hwrites; cases hwrites
  | _ => rfl

/-- Settles O24: a writing command's error is raised on the freed window, the others' on the memory they were given. -/
theorem failedWindowIsFree : Obligations.FailedWindowIsFree := by
  refine ⟨fun s t w v hidle hillegal h => ?_, fun i s t hm h herr => ?_⟩
  · obtain rfl := eq_of_illegalWrite hidle hillegal h
    rfl
  have herror := exec_commandError hm h herr
  refine ⟨fun hi => ?_, fun hi => ?_⟩
  · obtain ⟨e, info, rfl⟩ := herror.eq_of_writesDst ((writesDst_iff i).mpr hi)
    exact ⟨fun j hj => freeDst_dstByte hm hj, rfl, fun a ha => memRead_freeDst_outside hm ha, rfl, rfl, rfl⟩
  · exact herror.mem_eq (by rcases hi with rfl | rfl | rfl | rfl | rfl <;> rfl)

/-! ### The block after an error, command by command (60_exceptions.md R318) -/

/-- Without a counted symbol no tree is valid: a tree has a leaf, and each leaf is a counted symbol. -/
theorem State.Inv.tree_eq_none {s : State} (hinv : s.Inv) (hnsym : s.nsym = 0) : s.tree = none := by
  rw [Option.eq_none_iff_forall_ne_some]
  intro tr htr
  have hcounted : countedSymbols s.freq = [] := List.length_eq_zero_iff.mp ((countedSymbols_length s).trans hnsym)
  obtain ⟨hleaves, -⟩ := hinv.tree tr htr
  rw [hcounted] at hleaves
  exact leaves_ne_nil tr hleaves.eq_nil

/-- COUNT stopped at offset `k` has counted the `k` bytes before it (41_frequency.md R198). -/
theorem toNat_countBytes_srcSlice {s : State} {k : Nat} (hk : k < s.srcLen.toNat)
    (hfit : s.total + s.srcLen.toNat ≤ Config.totalMax) (x : Byte) :
    (tabGet (countBytes s.freq (srcSlice s 0 k)) x).toNat =
      (s.freqOf x).toNat + ((List.range k).map s.srcByte).count x := by
  have hcounted : freqTotal s.freq + (srcSlice s 0 k).length ≤ Config.totalMax := by
    rw [← total_eq, srcSlice_length]
    omega
  rw [toNat_countBytes _ _ _ hcounted]
  simp [srcSlice, State.freqOf]

/-- Settles O26: each row of the table is read from the states of `CommandError`; the invariant says that BUILD_TREE
without a counted symbol had no tree to keep. -/
theorem errorStatePerCommand : Obligations.ErrorStatePerCommand := by
  refine ⟨fun i s t hinv h herr => ?_, fun s t w v hidle hillegal h => ?_⟩
  · cases exec_commandError hinv.memory h herr with
    | windowFreed hwrites e info => rcases (writesDst_iff i).mp hwrites with rfl | rfl | rfl <;> simp
    | countOverflow => simp
    | countStopped hk hfit =>
      exact ⟨rfl, by simp, fun _ => ⟨rfl, rfl⟩, by simp,
        fun _ _ => ⟨rfl, _, hk, rfl, toNat_countBytes_srcSlice hk hfit⟩, by simp, by simp, by simp⟩
    | emptyAlphabet hnsym => simp [hinv.tree_eq_none hnsym]
    | noTree htree => simp [htree]
    | headerRejected e info => simp [State.codeOf]
  · obtain rfl := eq_of_illegalWrite hidle hillegal h
    exact ⟨rfl, rfl, rfl, rfl, rfl⟩

end Sys2Proof.Machine
end

section
/-! Reset (70_reset_and_hazards.md R350 to R352): the reset values, and what a reset leaves of memory. -/

namespace Sys2Proof.Machine

/-! ### The reset values (70_reset_and_hazards.md R351) -/

theorem reset_codeOf (x : Byte) : State.reset.codeOf x = [] := tabGet_emptyTable x

theorem reset_codeLen (x : Byte) : State.reset.codeLen x = 0 := congrArg List.length (reset_codeOf x)

theorem reset_tabFreq : State.reset.tabFreq = 0#32 := tabGet_zeroFreq _

theorem reset_tabCode (k : Nat) : State.reset.tabCode k = 0#32 := by
  rw [State.tabCode, reset_codeOf, List.drop_nil]
  rfl

/-- STATUS packs five fields, each 0; TABLE_VALID is, because the code table is empty. -/
theorem reset_status : State.reset.status = 0#32 := by
  rw [State.status, tableValid_of_emptyTable rfl]
  rfl

/-- Settles O55: the stored fields are those of `State.reset`, and every derived register reads a zero FREQ or an empty
code table. -/
theorem resetValues : Obligations.ResetValues :=
  ⟨rfl, rfl, rfl, rfl, rfl, rfl, rfl, rfl, rfl, rfl, rfl, rfl, rfl, rfl, rfl,
    fun x => ⟨tabGet_zeroFreq x, reset_codeLen x, reset_codeOf x⟩, rfl, rfl, rfl, rfl, reset_status,
    nsym_of_zeroFreq rfl, total_of_zeroFreq rfl, tabNsym_of_emptyTable rfl, maxlen_of_emptyTable rfl,
    hdrSize_of_emptyTable rfl, reset_tabFreq, reset_codeLen _, fun k => reset_tabCode k.val⟩

/-! ### A reset at any time (70_reset_and_hazards.md R350, R352) -/

theorem abandonRunning_of_writesDst {s : State} {i : Instr} (hrunning : s.running = some i)
    (hwrites : writesDst i = true) : abandonRunning s = freeDst s := by
  simp only [abandonRunning, hrunning, hwrites, if_true]

/-- Without a running command that has a destination window, reset stops nothing that could have written. -/
theorem abandonRunning_eq_self {s : State} (h : ∀ i, s.running = some i → writesDst i = false) :
    abandonRunning s = s := by
  cases hrunning : s.running with
  | none => simp only [abandonRunning, hrunning]
  | some i => simp only [abandonRunning, hrunning, h i hrunning, Bool.false_eq_true, if_false]

theorem resetBlock_mem (s : State) : (resetBlock s).mem = (abandonRunning s).mem := rfl

/-- Settles O56: reset answers `resetBlock`, whose memory is that of the abandoned command: the freed window of one with
a destination, and otherwise the memory as it was. -/
theorem resetAtAnyTime : Obligations.ResetAtAnyTime := by
  refine fun s hm => ⟨resetBlock s, rfl, rfl, fun hnone => ?_, fun i hrunning hwrites => ?_⟩
  · rw [resetBlock_mem, abandonRunning_eq_self hnone]
  · rw [resetBlock_mem, abandonRunning_of_writesDst hrunning hwrites]
    exact ⟨fun j hj => freeDst_dstByte hm hj, fun a ha => memRead_freeDst_outside hm ha⟩

end Sys2Proof.Machine
end

section
/-! DECODE (45_decode.md): a payload gives its symbols, what a success says of the payload, and the stops behind the
table check; the round trip of the window through ENCODE and DECODE. -/

namespace Sys2Proof.Machine

/-! ### The symbols of a payload (45_decode.md R290, R293, R294) -/

theorem execDecode_of_unpacked {s : State} {u : Unpacker} (hapart : s.WindowsApart) (htable : s.tabNsym ≠ 0)
    (hlen : s.srcLen.toNat = ceil8 s.bitcnt.toNat) (hunpack : unpackWindow s = .ok u) :
    execDecode s = .next (complete { s with mem := u.mem, outLen := BitVec.ofNat 32 u.j }) := by
  simp [execDecode, (overlapHazard_decode s).mpr hapart, htable, hlen, hunpack]

/-- Settles O50: the unpacking succeeds on the codes of the symbols and stores the symbols. -/
theorem decodeReadsPayload : Obligations.DecodeReadsPayload := by
  intro s xs hm hprefix hapart htable hcodes hcount hlen hread hbits hfit hwrite
  obtain ⟨u, hunpack, hj, hstored⟩ := unpackWindow_ok hm hprefix hapart hcodes hcount (bitcnt_le_of_srcLen hlen)
    (hlen ▸ hread) hbits hfit hwrite
  exact ⟨u.mem, hj ▸ execDecode_of_unpacked hapart htable hlen hunpack, hstored⟩

/-- The length of what is stored fits OUT_LEN, because DST_CAP holds it. -/
theorem Stored.toNat_outLen {s : State} {bs : List Byte} {m : Memory} (h : Stored s bs m) :
    (BitVec.ofNat 32 bs.length).toNat = bs.length :=
  toNat_ofNat_of_fits (h.fits.trans_lt s.dstCap.isLt)

/-- Settles O51: the success case of `execDecode_next`; an error does not report success. -/
theorem decodeConsumesAllBits : Obligations.DecodeConsumesAllBits := by
  intro s t hinv h hok
  rcases (execDecode_next hinv.memory h).2 with ⟨-, rfl⟩ | ⟨-, -, rfl⟩ | ⟨-, hlen, xs, m, hstored, hcodes, hbits, rfl⟩ |
      ⟨-, -, e, info, hcode, rfl⟩
  · cases hok
  · cases hok
  · exact ⟨xs, hstored.toNat_outLen, hstored.bytes, hcodes, hbits, hlen⟩
  · obtain rfl : e = .success := hok
    simp at hcode

/-! ### The stops of DECODE behind its checks (45_decode.md R297; 60_exceptions.md R312, R314) -/

/-- Settles O53: behind the symbols the next one finds no room or its byte is refused; or, behind symbols and bits that
resolve to nothing, the next payload byte is not read. -/
theorem decodeOverflow : Obligations.DecodeOverflow := by
  refine ⟨?_, ?_⟩
  · intro s xs x hm hprefix hapart htable hlen hcodes hcount hread hbits hwrite
    have hstop {stop : Stop} := execDecode_of_stopped (stop := stop) hapart htable hlen
    have hstops (hfit : xs.length ≤ s.dstCap.toNat) := unpackWindow_writeStop hm hprefix hapart hcodes hcount
      (bitcnt_le_of_srcLen hlen) hread hbits hfit hwrite
    exact ⟨fun hfull => hstop ((hstops hfull.le).1 hfull), fun hroom hbad => hstop ((hstops hroom.le).2 hroom hbad)⟩
  · intro s xs rest i hm hprefix hapart htable hlen hcodes hshort hunmatched hbytes hcount hread hbits hfit hwrite
    have hstop {stop : Stop} := execDecode_of_stopped (stop := stop) hapart htable hlen
    have hnone (m : Nat) (hlt : m < rest.length) : matchCode s.entries (rest.take (m + 1)) = none :=
      matchCode_entries_eq_none (hunmatched (m + 1) (Nat.le_add_left 1 m) hlt)
    rw [List.length_append] at hbytes
    have hreadStop {stop : Stop} (h : ∀ m, busRead s.platform m (s.src i) = .error stop) :=
      unpackWindow_readStop hm hprefix hapart hcodes hnone hshort hbytes hcount (bitcnt_le_of_srcLen hlen) hread hbits
        hfit hwrite h
    exact ⟨fun hbus => hstop (hreadStop fun _ => busRead_busError hbus),
      fun hbus hdevice => hstop (hreadStop fun _ => busRead_device hbus hdevice)⟩

/-! ### The round trip (45_decode.md R300) -/

/-- ENCODE of a window of known symbols, then DECODE of the payload it wrote into a window with room, gives the bytes of
the first window back, whatever sound table holds the codes. -/
theorem decode_of_encode {s : State} {outAddr : Addr} {outCap : Word} (hm : Memory.wf s.mem = true)
    (hprefix : PrefixFree s.code) (hapart : s.WindowsApart) (htable : s.tabNsym ≠ 0)
    (hread : s.ReadableTo s.srcLen.toNat) (hknown : ∀ x ∈ s.srcBytes, s.codeOf x ≠ [])
    (hwrite : s.WritableTo s.dstCap.toNat) (hfit : (codeBits s.code s.srcBytes).length ≤ 8 * s.dstCap.toNat)
    (hreadBack : ({ s with srcAddr := s.dstAddr, srcLen := s.dstCap } : State).ReadableTo s.dstCap.toNat)
    (hapartOut : ({ s with srcAddr := s.dstAddr, srcLen := s.dstCap, dstAddr := outAddr, dstCap := outCap } :
      State).WindowsApart)
    (hcap : s.srcLen.toNat ≤ outCap.toNat)
    (hwriteOut : ({ s with dstAddr := outAddr, dstCap := outCap } : State).WritableTo s.srcLen.toNat) :
    ∃ t u, exec .encode s = .next t ∧ t.errCode = .success ∧
      exec .decode { t with srcAddr := s.dstAddr, srcLen := t.outLen, dstAddr := outAddr, dstCap := outCap } = .next u ∧
      u.errCode = .success ∧ u.outLen = s.srcLen ∧ ∀ j, j < s.srcLen.toNat → u.dstByte j = s.srcByte j := by
  obtain ⟨hlow, hhigh⟩ := ceil8_spec (codeBits s.code s.srcBytes).length
  have hbytes : ceil8 (codeBits s.code s.srcBytes).length ≤ s.dstCap.toNat := by omega
  obtain ⟨p, hpack⟩ := packWindow_ok hm hapart hread hknown hfit fun j hj => hwrite j (hj.trans_le hbytes)
  obtain ⟨hbits, hpayload, -⟩ := packWindow_payload hm hapart hpack
  have hsmall : ceil8 p.n ≤ s.dstCap.toNat := hbits ▸ hbytes
  have hcap32 := s.dstCap.isLt
  have houtLen : (BitVec.ofNat 32 (ceil8 p.n)).toNat = ceil8 p.n := toNat_ofNat_of_fits (by omega)
  have hbitcnt : (BitVec.ofNat 64 p.n).toNat = p.n := Nat.mod_eq_of_lt (by omega)
  obtain ⟨m, hdecode, hstored⟩ := decodeReadsPayload
    { complete { s with mem := p.mem, bitcnt := BitVec.ofNat 64 p.n, outLen := BitVec.ofNat 32 (ceil8 p.n) } with
      srcAddr := s.dstAddr, srcLen := BitVec.ofNat 32 (ceil8 p.n), dstAddr := outAddr, dstCap := outCap }
    s.srcBytes hpayload.wf hprefix
    (fun i j hi hj => hapartOut i j ((hi.trans_eq houtLen).trans_le hsmall) hj)
    htable hknown (hbitcnt.trans hbits) (houtLen.trans (congrArg ceil8 hbitcnt.symm))
    (fun i hi => hreadBack i ((hi.trans_eq houtLen).trans_le hsmall))
    (fun k hk => hpayload.bit (by have := hk.trans_eq hbitcnt; omega))
    ((srcBytes_length s).trans_le hcap) (fun j hj => hwriteOut j (hj.trans_eq (srcBytes_length s)))
  refine ⟨_, _, execEncode_of_packed hapart htable hpack, rfl, hdecode, rfl, ?_, fun j hj => ?_⟩
  · show BitVec.ofNat 32 s.srcBytes.length = s.srcLen
    rw [srcBytes_length, BitVec.ofNat_toNat, BitVec.setWidth_eq]
  · refine (hstored.bytes j (hj.trans_eq (srcBytes_length s).symm)).trans ?_
    simp [State.srcBytes, List.getD_eq_getElem?_getD, hj]

/-- What CLEAR leaves (41_frequency.md R190). -/
def State.cleared (s : State) : State :=
  complete { s with
    freq := zeroFreq, code := emptyTable, tree := none, bitcnt := 0#64, hdrLen := 0#32, outLen := 0#32 }

theorem exec_clear (s : State) : exec .clear s = .next s.cleared := rfl

/-- What a COUNT that completes with these counters leaves (41_frequency.md R195). -/
def State.counted (s : State) (f : Vector Word 256) : State :=
  complete { s with tree := none, freq := f, outLen := 0#32 }

/-- Each byte of a window has a nonzero count after a COUNT of the window into cleared counters. -/
theorem countBytes_ne_zero_of_mem {bs : List Byte} (hlen : bs.length ≤ Config.totalMax) {x : Byte} (hx : x ∈ bs) :
    tabGet (countBytes zeroFreq bs) x ≠ 0#32 := by
  have hcount := toNat_countBytes zeroFreq bs x (by simpa using hlen)
  have hpos := List.count_pos_iff.mpr hx
  intro hzero
  rw [hzero, tabGet_zeroFreq] at hcount
  simp at hcount
  omega

theorem srcLen_le_totalMax (s : State) : s.srcLen.toNat ≤ Config.totalMax := Nat.le_pred_of_lt s.srcLen.isLt

/-- COUNT behind CLEAR counts a readable window from zero. -/
theorem execCount_of_zeroFreq {s : State} (hfreq : s.freq = zeroFreq) (hread : s.ReadableTo s.srcLen.toNat) :
    exec .count s = .next (s.counted (countBytes zeroFreq s.srcBytes)) := by
  have hfit : s.total + s.srcLen.toNat ≤ Config.totalMax := by
    rw [total_of_zeroFreq hfreq, Nat.zero_add]
    exact srcLen_le_totalMax s
  exact hfreq ▸ execCount_of_readable hfit hread

/-- Settles O54: CLEAR and COUNT leave the counts of the window, so each of its bytes is a leaf of the tree and has a
code, and `decode_of_encode` gives the bytes back. Of an empty window no symbol is counted. -/
theorem encodeDecodeRoundTrip : Obligations.EncodeDecodeRoundTrip := by
  refine ⟨?_, fun s hempty => ?_⟩
  · intro s outAddr outCap hm hne hapart hread hwrite hreadBack hapartOut hcap hwriteOut
    have hcounted (x : Byte) (hx : x ∈ s.srcBytes) : tabGet (countBytes zeroFreq s.srcBytes) x ≠ 0#32 :=
      countBytes_ne_zero_of_mem ((srcBytes_length s).trans_le (srcLen_le_totalMax s)) hx
    have hbytes : s.srcBytes ≠ [] := by
      rw [← List.length_pos_iff, srcBytes_length]
      exact Nat.pos_of_ne_zero fun h => hne (BitVec.eq_of_toNat_eq h)
    obtain ⟨x, hx⟩ := List.exists_mem_of_ne_nil _ hbytes
    obtain ⟨tr, hbuild, -, htree⟩ := execBuildTree_of_counted
      (s := s.cleared.counted (countBytes zeroFreq s.srcBytes)) ⟨x, hcounted x hx⟩
    have hnodup := treeOf_nodup htree
    have hknown (y : Byte) (hy : y ∈ s.srcBytes) : tabGet (codesOf tr) y ≠ [] :=
      (codesOf_ne_nil_iff hnodup y).mpr ((htree.mem_leaves_iff y).mpr (hcounted y hy))
    refine ⟨_, _, _, _, exec_clear s, execCount_of_zeroFreq rfl hread, hbuild, execGenCodes_of_tree rfl, rfl, rfl, rfl,
      rfl, fun hfit => ?_⟩
    exact decode_of_encode hm (prefixFree_codesOf tr hnodup) hapart
      (fun hzero => hknown x hx ((tabNsym_eq_zero_iff _).mp hzero x)) hread hknown hwrite hfit hreadBack hapartOut hcap
      hwriteOut
  · have hread : s.ReadableTo s.srcLen.toNat := fun i hi => by simp [hempty] at hi
    have hnone : countBytes zeroFreq s.srcBytes = zeroFreq := by rw [srcBytes_of_srcLen_zero hempty]; rfl
    exact ⟨_, _, _, exec_clear s, execCount_of_zeroFreq rfl hread, if_pos (nsym_of_zeroFreq hnone), rfl, rfl, rfl⟩

end Sys2Proof.Machine
end

section
/-! The register map, register accesses, and STATUS (10_state.md R40 to R65; 20_memory.md R96). -/

namespace Sys2Proof.Machine

/-! ### The register map (10_state.md R40, R41) -/

theorem tabCode_offset_toNat (k : Fin 8) : (Reg.tabCode k).offset.toNat = 0x060 + 4 * k.val := by
  revert k
  decide

/-- Every register that is not listed as writable is read only. -/
theorem access_eq_ro {r : Reg} (h : r ∉ [Reg.cmd, .irqStat, .irqEn, .srcAddr, .srcLen, .dstAddr, .dstCap, .bitcntLo,
    .bitcntHi, .tabSel]) : r.access = .ro := by
  cases r <;> simp [Reg.access] at h ⊢

/-- After reset every register but ID reads 0: the derived ones, because FREQ is zero and the table is empty. -/
theorem regValue_reset (r : Reg) : regValue State.reset r = if r = .id then 0x48460001#32 else 0#32 := by
  cases r
  case status => exact reset_status
  case nsym => exact congrArg (BitVec.ofNat 32) (nsym_of_zeroFreq rfl)
  case total => exact congrArg (BitVec.ofNat 32) (total_of_zeroFreq rfl)
  case tabNsym => exact congrArg (BitVec.ofNat 32) (tabNsym_of_emptyTable rfl)
  case maxlen => exact congrArg (BitVec.ofNat 32) (maxlen_of_emptyTable rfl)
  case hdrSize => exact congrArg (BitVec.ofNat 32) (hdrSize_of_emptyTable rfl)
  case tabFreq => exact reset_tabFreq
  case tabLen => exact congrArg (BitVec.ofNat 32) (reset_codeLen _)
  case tabCode k => exact reset_tabCode k.val
  all_goals rfl

/-- Settles O3: offsets and classes are those of the map, and the reset reads are `regValue_reset`. -/
theorem registerMapOffsets : Obligations.RegisterMapOffsets := by
  refine ⟨regAt_eq, ?offsets, ⟨rfl, rfl, ?rw, fun _ => access_eq_ro⟩, regValue_reset, fun _ => ⟨?letters, ?revision⟩⟩
  case offsets =>
    exact ⟨rfl, rfl, rfl, rfl, rfl, rfl, rfl, rfl, rfl, rfl, rfl, rfl, rfl, rfl, rfl, rfl, rfl, rfl, rfl, rfl, rfl, rfl,
      rfl, tabCode_offset_toNat⟩
  case rw => decide
  case letters => rw [regValue]; decide
  case revision => rw [regValue]; decide

/-! ### Reads, and accesses of another form (40_command_protocol.md R160; 20_memory.md R96) -/

/-- Settles O5: an idle block reads exactly by `readReg_of_idle`, and any read is one of `readReg_eq`. -/
theorem readsChangeNoBlockState : Obligations.ReadsChangeNoBlockState := by
  refine ⟨fun s r hidle => by rw [hostAct_read, readReg_of_idle hidle], fun s off haligned => ?_⟩
  obtain ⟨v, n, hread⟩ := readReg_eq off s
  exact ⟨v, n, by rw [hostAct_regRead off s haligned, hread]⟩

theorem hostAct_of_not_wellFormed {off : Offset} {size : Nat} (h : size ≠ 4 ∨ off.toNat % 4 ≠ 0) (v : Word)
    (s : State) :
    hostAct (.regRead off size) s = .refused (.badRegisterAccess off size) ∧
    hostAct (.regWrite off size v) s = .refused (.badRegisterAccess off size) := by
  have hbad : ¬ ((isWordSize size && isWordAligned off) = true) := by
    simpa [isWordSize, isWordAligned, or_iff_not_imp_left] using h
  exact ⟨if_neg hbad, if_neg hbad⟩

/-- Settles O11: the two checks of `HostAct.wellFormed` are the size and the alignment. -/
theorem unalignedAccessIsRefused : Obligations.UnalignedAccessIsRefused := by
  intro s off size v
  refine ⟨fun hbad => hostAct_of_not_wellFormed hbad v s, ?_⟩
  rintro ⟨rfl, haligned⟩
  exact ⟨_, hostAct_regRead off s haligned⟩

/-! ### STATUS (10_state.md R43) -/

theorem errFlag_iff (s : State) : s.errFlag = true ↔ regValue s .errCode ≠ 0#32 := by
  rw [State.errFlag, regValue]
  cases s.errCode <;> decide

/-- Settles O6: the fields of the STATUS word are the views it is made of. -/
theorem statusWordFields : Obligations.StatusWordFields := by
  intro s
  obtain ⟨hbit0, hbit1, hbit2, hbit3, hlastOp, hzero⟩ :=
    statusWord_fields s.lastOp s.tableValid s.treeValid s.errFlag s.busy
  refine ⟨hbit0, ?_, hbit2, ?_, hlastOp, hzero⟩
  · exact (Eq.congr_left hbit1).trans (errFlag_iff s)
  · exact (Eq.congr_left hbit3).trans bne_iff_ne

end Sys2Proof.Machine
end

section
/-! Acceptance, the schedule of steps, the races of the host with a running command, and the completion of every command
(40_command_protocol.md R164, R171; 70_reset_and_hazards.md R362, R363). -/

namespace Sys2Proof.Machine

/-! ### Acceptance of a word (40_command_protocol.md R164) -/

theorem eq_of_decode_illegal {w v : Word} (h : decode w = .illegal v) : v = w := by
  unfold decode at h
  split at h
  · split at h
    · cases h
    · exact (Decoded.illegal.inj h).symm
  · exact (Decoded.illegal.inj h).symm

theorem accept_of_cmd {w : Word} {i : Instr} {s : State} (h : decode w = .cmd i) (hov : overlapHazard i s = false) :
    accept w s = .next { markAccepted w s with running := some i } := by
  simp [accept, h, hov]

theorem opField_of_cmd {w : Word} {i : Instr} (h : decode w = .cmd i) : opField w = opcode i := by
  rw [(decode_eq_cmd_iff w i).mp h, opField_encode]

/-- Settles O13: on an idle block the write is the acceptance, whose two outcomes are those of the decoder. -/
theorem commandWriteAccepted : Obligations.CommandWriteAccepted := by
  intro s w hidle
  have hrunning : s.running = none := (not_busy_iff s).mp hidle
  refine ⟨fun v hillegal => ?_, fun i hcmd hov => ?_⟩
  · rw [hostAct_writeCmd_of_idle hidle, accept_of_illegal hillegal, eq_of_decode_illegal hillegal]
    rfl
  · rw [hostAct_writeCmd_of_idle hidle, accept_of_cmd hcmd hov]
    rfl

/-! ### The steps of the schedule (40_command_protocol.md R170; log entries 1, 3) -/

theorem finishRunning_of_running {s : State} {i : Instr} (h : s.running = some i) : finishRunning s = exec i s := by
  rw [finishRunning, h]

theorem finishRunning_of_idle {s : State} (h : s.running = none) : finishRunning s = .next s := by
  rw [finishRunning, h]

theorem step_of_no_beats {s : State} (h : s.beats = []) : step s = finishRunning s := by
  rw [step, nextBeat, h]

theorem step_of_beat {s : State} {b : Beat} {bs : List Beat} (h : s.beats = b :: bs) :
    step s = runBeat b { s with beats := bs } := by
  rw [step, nextBeat, h]

/-- A beat without a completion is the host's action alone. -/
theorem runBeat_act (a : HostAct) (s : State) : runBeat { act := some a, finish := false } s = hostAct a s := by
  simp only [runBeat]
  cases hostAct a s <;> rfl

/-- The beat of a command word on an idle block is the acceptance and then the command's meaning. -/
theorem step_withCommand {s : State} {w : Word} {i : Instr} (hcmd : decode w = .cmd i)
    (hov : overlapHazard i s = false) :
    step (withCommand s w) =
      exec i { s with lastOp := opcode i, errCode := .success, errInfo := 0#32, running := some i } := by
  have hact : hostAct (.regWrite Reg.cmd.offset 4 w) { s with running := none } =
      .next { markAccepted w { s with running := none } with running := some i } :=
    (hostAct_writeCmd_of_idle rfl w).trans (accept_of_cmd hcmd hov)
  rw [step_of_completion (s := withCommand s w) rfl hact rfl, markAccepted, opField_of_cmd hcmd]

/-- Settles O17: each form of the next beat is one unfolding of the step. -/
theorem stepRunsDecodedCommand : Obligations.StepRunsDecodedCommand := by
  refine ⟨fun s w i => step_withCommand, ?load, ?ends, ?completes, ?acts, ?idleBeat, ?actsAndCompletes, ?stops,
    ?idleEnd, ?idleCompletes⟩
  case load =>
    intro s w
    have hword : tableWord 32 w = BitVec.ofNat 32 w := BitVec.eq_of_toNat_eq (by simp [tableWord])
    rw [State.withFetchWord, hword]
  case ends =>
    intro s i hrunning hbeats
    rw [step_of_no_beats hbeats, finishRunning_of_running hrunning]
  case completes =>
    intro s i bs hrunning hbeats
    exact (step_of_beat hbeats).trans (finishRunning_of_running hrunning)
  case acts =>
    intro s a bs hbeats
    rw [step_of_beat hbeats, runBeat_act]
  case idleBeat =>
    intro s bs hbeats
    exact step_of_beat hbeats
  case actsAndCompletes =>
    intro s t a bs hbeats hact
    exact ⟨fun i hrunning => step_of_completion hbeats hact hrunning,
      fun hidle => step_of_no_completion hbeats hact hidle⟩
  case stops =>
    intro s a bs hbeats
    rw [step_of_beat hbeats]
    exact ⟨fun f hact => by simp only [runBeat, hact], fun r hact => by simp only [runBeat, hact]⟩
  case idleEnd =>
    intro s hidle hbeats
    rw [step_of_no_beats hbeats, finishRunning_of_idle hidle]
  case idleCompletes =>
    intro s bs hidle hbeats
    exact (step_of_beat hbeats).trans (finishRunning_of_idle hidle)

/-! ### Races with a running command (70_reset_and_hazards.md R362) -/

theorem inSrc_iff (s : State) (a : Addr) : s.inSrc a = true ↔ ∃ k, k < s.srcLen.toNat ∧ a = s.src k :=
  (inWindow_iff _ _ _).trans (exists_congr fun _ => and_congr_right' eq_comm)

theorem inDst_iff (s : State) (a : Addr) : s.inDst a = true ↔ ∃ j, j < s.dstCap.toNat ∧ a = s.dst j :=
  (inWindow_iff _ _ _).trans (exists_congr fun _ => and_congr_right' eq_comm)

theorem writeRaces_iff {s : State} {i : Instr} (hrunning : s.running = some i) (a : Addr) :
    writeRaces s a = true ↔
      (readsSrc i = true ∧ ∃ k, k < s.srcLen.toNat ∧ a = s.src k) ∨
      (writesDst i = true ∧ ∃ j, j < s.dstCap.toNat ∧ a = s.dst j) := by
  simp only [writeRaces, hrunning, Bool.or_eq_true, Bool.and_eq_true, inSrc_iff, inDst_iff]

theorem readRaces_iff {s : State} {i : Instr} (hrunning : s.running = some i) (a : Addr) :
    readRaces s a = true ↔ writesDst i = true ∧ ∃ j, j < s.dstCap.toNat ∧ a = s.dst j := by
  simp only [readRaces, hrunning, Bool.and_eq_true, inDst_iff]

theorem not_writeRaces_of_idle {s : State} (hidle : s.busy = false) (a : Addr) : ¬ writeRaces s a = true := by
  simp [writeRaces, (not_busy_iff s).mp hidle]

theorem not_readRaces_of_idle {s : State} (hidle : s.busy = false) (a : Addr) : ¬ readRaces s a = true := by
  simp [readRaces, (not_busy_iff s).mp hidle]

theorem hostAct_memWrite_of_race {s : State} {a : Addr} (h : writeRaces s a = true) (b : Byte) :
    hostAct (.memWrite a b) s = .fault (.windowRace a) := if_pos h

theorem hostAct_memWrite_of_no_race {s : State} {a : Addr} (h : ¬ writeRaces s a = true) (b : Byte) :
    hostAct (.memWrite a b) s = .next { s with mem := memWrite s.mem a.toNat b } := if_neg h

theorem hostAct_memRead_of_race {s : State} {a : Addr} (h : readRaces s a = true) :
    hostAct (.memRead a) s = .fault (.windowRace a) := if_pos h

/-- A plain read answers the byte of memory, or of a device a free value. -/
theorem hostAct_memRead_of_no_race {s : State} {a : Addr} (h : ¬ readRaces s a = true) :
    hostAct (.memRead a) s =
      if s.platform.isDevice a then
        .next { s with rdata := (Config.freeByte s.draws).setWidth 32, draws := s.draws + 1 }
      else .next { s with rdata := (memRead s.mem a.toNat).setWidth 32 } := if_neg h

/-- Settles O16: an access races exactly when its address is in one of the command's windows, and on an idle block none
does. -/
theorem windowRaceFaults : Obligations.WindowRaceFaults := by
  refine ⟨fun s i a b hrunning => ⟨fun hrace => ?_, fun hrace => ?_, fun hsrc hdst => ?_, fun hdst => ?_⟩,
    fun s a b hidle => ⟨?_, fun hmem => ?_, fun hdevice => ?_⟩⟩
  · exact hostAct_memWrite_of_race ((writeRaces_iff hrunning a).mpr hrace) b
  · exact hostAct_memRead_of_race ((readRaces_iff hrunning a).mpr hrace)
  · refine hostAct_memWrite_of_no_race (fun hrace => ?_) b
    rcases (writeRaces_iff hrunning a).mp hrace with ⟨hreads, k, hk, heq⟩ | ⟨hwrites, j, hj, heq⟩
    · exact hsrc hreads k hk heq
    · exact hdst hwrites j hj heq
  · refine hostAct_memRead_of_no_race fun hrace => ?_
    obtain ⟨hwrites, j, hj, heq⟩ := (readRaces_iff hrunning a).mp hrace
    exact hdst hwrites j hj heq
  · exact hostAct_memWrite_of_no_race (not_writeRaces_of_idle hidle a) b
  · rw [hostAct_memRead_of_no_race (not_readRaces_of_idle hidle a), hmem]
    rfl
  · rw [hostAct_memRead_of_no_race (not_readRaces_of_idle hidle a), hdevice]
    rfl

/-! ### Every command completes (40_command_protocol.md R171) -/

/-- Only ENCODE and DECODE have the hazard, and each checks for it first. -/
theorem exec_of_hazard {i : Instr} {s : State} (h : overlapHazard i s = true) : exec i s = .fault .windowOverlap := by
  cases i
  case encode => exact if_pos h
  case decode => exact if_pos h
  all_goals cases h

theorem exec_running_eq_none {i : Instr} {s t : State} (h : exec i s = .next t) : t.running = none := by
  cases exec_completionOf h with
  | success _ => rfl
  | error _ _ => rfl

/-- Settles O19: without the hazard and without a device in the source window no fault is left, and no command is ever
refused. -/
theorem everyCommandCompletes : Obligations.EveryCommandCompletes := by
  refine ⟨fun i s hov hsrc => ?_, fun i s => exec_of_hazard, fun i s f h => ?_, fun i s r => exec_ne_refused⟩
  · obtain ⟨t, ht⟩ := exec_completes hov hsrc
    have hidle := exec_running_eq_none ht
    refine ⟨⟨t, ht, hidle⟩, fun hrunning hbeats => ⟨t, ?_, hidle⟩⟩
    rw [step_of_no_beats hbeats, finishRunning_of_running hrunning, ht]
  · rcases exec_fault h with hoverlap | ⟨hreads, k, hk, hf, hdevice⟩
    · exact .inl hoverlap
    · exact .inr ⟨hreads, k, hk, hdevice, hf⟩

end Sys2Proof.Machine
end

section
/-! What each command leaves: the tables and HDR_LEN (10_state.md R59, R70, R71, R76), memory (20_memory.md R93), and
its error code (60_exceptions.md R311). -/

namespace Sys2Proof.Machine

/-! ### The tables and HDR_LEN -/

/-- The ends of a command with a destination window: it completes with a new memory, BITCNT and OUT_LEN, or in error
with its window freed. -/
inductive WindowEnd (s : State) : State → Prop where
  | success (m : Memory) (bits : BitVec 64) (len : Word) :
      WindowEnd s (complete { s with mem := m, bitcnt := bits, outLen := len })
  | error (e : ErrCode) (info : Word) : WindowEnd s (raiseError e info (freeDst s))

theorem windowEnd_of_stopCommand {s t : State} {stop : Stop} (h : stopCommand stop (freeDst s) = .next t) :
    WindowEnd s t := by
  obtain ⟨e, info, -, rfl⟩ := stopCommand_next h
  exact .error e info

/-- Nothing is asked of memory, so the three commands are read from their rules. -/
theorem exec_windowEnd {i : Instr} {s t : State} (hwrites : writesDst i = true) (h : exec i s = .next t) :
    WindowEnd s t := by
  rcases (writesDst_iff i).mp hwrites with rfl | rfl | rfl <;> simp only [exec] at h
  · unfold execEncode at h
    split at h
    · cases h
    · split at h
      · obtain rfl := Host.Outcome.next.inj h
        exact .error _ _
      · split at h
        · obtain rfl := Host.Outcome.next.inj h
          exact .success _ _ _
        · exact windowEnd_of_stopCommand h
  · unfold execSerialize at h
    split at h
    · obtain rfl := Host.Outcome.next.inj h
      exact .error _ _
    · split at h
      · obtain rfl := Host.Outcome.next.inj h
        exact .error _ _
      · split at h
        · obtain rfl := Host.Outcome.next.inj h
          exact .success _ _ _
        · exact windowEnd_of_stopCommand h
  · unfold execDecode at h
    split at h
    · cases h
    · split at h
      · obtain rfl := Host.Outcome.next.inj h
        exact .error _ _
      · split at h
        · obtain rfl := Host.Outcome.next.inj h
          exact .error _ _
        · split at h
          · obtain rfl := Host.Outcome.next.inj h
            exact .success _ _ _
          · exact windowEnd_of_stopCommand h

theorem WindowEnd.tables_eq {s t : State} (h : WindowEnd s t) :
    t.freq = s.freq ∧ t.code = s.code ∧ t.tree = s.tree ∧ t.hdrLen = s.hdrLen := by
  cases h with
  | success m bits len => exact ⟨rfl, rfl, rfl, rfl⟩
  | error e info => exact ⟨rfl, rfl, rfl, rfl⟩

/-- Settles O22: a command with a destination window writes no table, and the others write what their rules say. -/
theorem whoWritesTheTables : Obligations.WhoWritesTheTables := by
  intro i s t h
  cases hwrites : writesDst i with
  | true =>
    obtain ⟨hfreq, hcode, htree, hhdrLen⟩ := (exec_windowEnd hwrites h).tables_eq
    exact ⟨fun _ _ => hfreq, fun _ _ _ => hcode, fun _ _ => hcode, fun _ _ _ _ => htree, fun _ _ => hhdrLen⟩
  | false =>
    cases i <;> simp only [exec, writesDst, Bool.true_eq_false] at h hwrites
    case clear => simp
    case count => rcases execCount_next h with ⟨-, rfl⟩ | ⟨-, rfl⟩ | ⟨k, -, -, -, rfl⟩ <;> simp
    case buildTree => rcases execBuildTree_next h with ⟨-, rfl⟩ | ⟨-, tr, -, -, rfl⟩ <;> simp
    case genCodes => rcases execGenCodes_next h with ⟨-, rfl⟩ | ⟨tr, -, rfl⟩ <;> simp
    case parse => rcases execParse_next h with ⟨hd, -, rfl⟩ | ⟨e, info, -, -, rfl⟩ <;> simp

/-! ### Memory (20_memory.md R93) -/

theorem exec_frame_of_no_window {i : Instr} {s t : State} (hwrites : writesDst i = false) (h : exec i s = .next t) :
    t.mem = s.mem ∧ t.draws = s.draws ∧ t.outLen = 0#32 := by
  cases i <;> simp only [exec, writesDst, Bool.true_eq_false] at h hwrites
  case clear =>
    obtain rfl := Host.Outcome.next.inj h
    exact ⟨rfl, rfl, rfl⟩
  case count => rcases execCount_next h with ⟨-, rfl⟩ | ⟨-, rfl⟩ | ⟨k, -, -, -, rfl⟩ <;> exact ⟨rfl, rfl, rfl⟩
  case buildTree => rcases execBuildTree_next h with ⟨-, rfl⟩ | ⟨-, tr, -, -, rfl⟩ <;> exact ⟨rfl, rfl, rfl⟩
  case genCodes => rcases execGenCodes_next h with ⟨-, rfl⟩ | ⟨tr, -, rfl⟩ <;> exact ⟨rfl, rfl, rfl⟩
  case parse => rcases execParse_next h with ⟨hd, -, rfl⟩ | ⟨e, info, -, -, rfl⟩ <;> exact ⟨rfl, rfl, rfl⟩

/-- A command with a destination window that succeeds has stored OUT_LEN bytes. -/
theorem exec_stored {i : Instr} {s t : State} (hm : Memory.wf s.mem = true) (hwrites : writesDst i = true)
    (h : exec i s = .next t) (hok : t.errCode = .success) :
    ∃ bs, Stored s bs t.mem ∧ t.outLen = BitVec.ofNat 32 bs.length ∧ t.draws = s.draws := by
  rcases (writesDst_iff i).mp hwrites with rfl | rfl | rfl
  · rcases (execEncode_next hm h).2 with ⟨-, rfl⟩ | ⟨-, m, hstored, -, rfl⟩ | ⟨-, e, info, hcode, rfl⟩
    · cases hok
    · exact ⟨_, hstored, congrArg (BitVec.ofNat 32) (pack_length _).symm, rfl⟩
    · obtain rfl : e = .success := hok
      simp at hcode
  · rcases execSerialize_next hm h with ⟨-, rfl⟩ | ⟨-, -, rfl⟩ | ⟨htable, -, m, hstored, rfl⟩ | ⟨-, -, info, rfl⟩
    · cases hok
    · cases hok
    · exact ⟨_, hstored, congrArg (BitVec.ofNat 32) (hdrSize_eq s htable _), rfl⟩
    · cases hok
  · rcases (execDecode_next hm h).2 with ⟨-, rfl⟩ | ⟨-, -, rfl⟩ | ⟨-, -, xs, m, hstored, -, -, rfl⟩ |
        ⟨-, -, e, info, hcode, rfl⟩
    · cases hok
    · cases hok
    · exact ⟨xs, hstored, rfl, rfl⟩
    · obtain rfl : e = .success := hok
      simp at hcode

/-- Settles O23: a success has stored OUT_LEN bytes, an error has freed the window, and a command without a window
leaves memory as it is. -/
theorem memoryOnlyInDestination : Obligations.MemoryOnlyInDestination := by
  intro i s t hm h
  cases hwrites : writesDst i with
  | false =>
    obtain ⟨hmem, hdraws, houtLen⟩ := exec_frame_of_no_window hwrites h
    exact ⟨fun _ _ _ => ⟨hmem, hdraws⟩, fun a _ => by rw [hmem],
      fun _ => ⟨hdraws, houtLen ▸ Nat.zero_le _, fun a _ => by rw [hmem]⟩⟩
  | true =>
    refine ⟨fun hencode hserialize hdecode => ?_, ?_⟩
    · rcases (writesDst_iff i).mp hwrites with hi | hi | hi
      · exact absurd hi hencode
      · exact absurd hi hserialize
      · exact absurd hi hdecode
    by_cases hok : t.errCode = .success
    · obtain ⟨bs, hstored, houtLen, hdraws⟩ := exec_stored hm hwrites h hok
      have hlen : t.outLen.toNat = bs.length := houtLen ▸ hstored.toNat_outLen
      exact ⟨fun a ha => hstored.outside a fun j hj => ha j (hj.trans_le hstored.fits),
        fun _ => ⟨hdraws, hlen.trans_le hstored.fits, fun a ha => hstored.outside a (hlen ▸ ha)⟩⟩
    · obtain ⟨e, info, rfl⟩ := (exec_commandError hm h hok).eq_of_writesDst hwrites
      exact ⟨fun a ha => memRead_freeDst_outside hm ha, fun hsuccess => absurd hsuccess hok⟩

/-! ### The error codes of each command (60_exceptions.md R311) -/

/-- What ERR_CODE can be after each command. -/
def commandCodes : Instr → List ErrCode
  | .clear => [.success]
  | .count => [.success, .countOverflow, .busError]
  | .buildTree => [.success, .emptyAlphabet]
  | .genCodes => [.success, .noTree]
  | .encode => [.success, .noTable, .unknownSymbol, .dstOverflow, .busError]
  | .serialize => [.success, .noTable, .dstOverflow, .busError]
  | .parse => [.success, .headerParse, .headerIntegrity, .busError]
  | .decode => [.success, .noTable, .truncatedStream, .dstOverflow, .busError]

theorem exec_errCode_mem {i : Instr} {s t : State} (hm : Memory.wf s.mem = true) (h : exec i s = .next t) :
    t.errCode ∈ commandCodes i := by
  cases i <;> simp only [exec] at h
  case clear =>
    obtain rfl := Host.Outcome.next.inj h
    simp [commandCodes]
  case count => rcases execCount_next h with ⟨-, rfl⟩ | ⟨-, rfl⟩ | ⟨k, -, -, -, rfl⟩ <;> simp [commandCodes]
  case buildTree => rcases execBuildTree_next h with ⟨-, rfl⟩ | ⟨-, tr, -, -, rfl⟩ <;> simp [commandCodes]
  case genCodes => rcases execGenCodes_next h with ⟨-, rfl⟩ | ⟨tr, -, rfl⟩ <;> simp [commandCodes]
  case encode =>
    rcases (execEncode_next hm h).2 with ⟨-, rfl⟩ | ⟨-, m, -, -, rfl⟩ | ⟨-, e, info, hcode, rfl⟩
    · simp [commandCodes]
    · simp [commandCodes]
    · rcases hcode with rfl | rfl | rfl <;> simp [commandCodes]
  case serialize =>
    rcases execSerialize_next hm h with ⟨-, rfl⟩ | ⟨-, -, rfl⟩ | ⟨-, -, m, -, rfl⟩ | ⟨-, -, info, rfl⟩ <;>
      simp [commandCodes]
  case parse =>
    rcases execParse_next h with ⟨hd, -, rfl⟩ | ⟨e, info, -, hcode, rfl⟩
    · simp [commandCodes]
    · rcases hcode with rfl | rfl | rfl <;> simp [commandCodes]
  case decode =>
    rcases (execDecode_next hm h).2 with ⟨-, rfl⟩ | ⟨-, -, rfl⟩ | ⟨-, -, xs, m, -, -, -, rfl⟩ |
        ⟨-, -, e, info, hcode, rfl⟩
    · simp [commandCodes]
    · simp [commandCodes]
    · simp [commandCodes]
    · rcases hcode with rfl | rfl | rfl <;> simp [commandCodes]

/-- Settles O25: the values are those of the table, and the codes of each command are `commandCodes`. -/
theorem errorCodesPerCommand : Obligations.ErrorCodesPerCommand := by
  refine ⟨⟨rfl, rfl, rfl, rfl, rfl, rfl, rfl, rfl, rfl, rfl, rfl, rfl, rfl, fun _ => rfl⟩, fun i s t hm h => ?_⟩
  have hmem := exec_errCode_mem hm h
  refine ⟨?_, ?_, ?_, ?_, ?_, ?_, ?_, ?_⟩ <;> rintro rfl
  · exact List.mem_singleton.mp hmem
  all_goals exact hmem

end Sys2Proof.Machine
end

section
/-! A COUNT that completes (41_frequency.md R195, R197), the merges of the queue (42_tree_codes.md R212, R213), and the
commands that lack their input. -/

namespace Sys2Proof.Machine

/-! ### COUNT of a readable window (41_frequency.md R195, R197) -/

/-- Settles O28: the counters are those of `countBytes`, which the overflow check keeps from wrapping. -/
theorem countAddsWindow : Obligations.CountAddsWindow := by
  intro s hfit hread
  have hcounted : freqTotal s.freq + s.srcBytes.length ≤ Config.totalMax := by
    rw [← total_eq, srcBytes_length]
    exact hfit
  refine ⟨_, execCount_of_readable hfit hread, fun x => toNat_countBytes s.freq s.srcBytes x hcounted, ?_⟩
  rw [total_eq, freqTotal_countBytes s.freq s.srcBytes hcounted, ← total_eq, srcBytes_length]

/-! ### The merges (42_tree_codes.md R212, R213) -/

/-- Merge `m` puts its node into the queue of the nodes that are left, in order: no node of it has that key yet. -/
theorem enqueue_mergeNodes {m : Nat} {x y : Tree} {q : List Tree} (hsorted : QueueSorted (x :: y :: q))
    (hkeys : ∀ z ∈ x :: y :: q, z.key < 256 + m) :
    (enqueue (mergeNodes m x y) q).Perm (mergeNodes m x y :: q) ∧ QueueSorted (enqueue (mergeNodes m x y) q) ∧
      ∀ z ∈ enqueue (mergeNodes m x y) q, z.key < 256 + (m + 1) := by
  have hkeysRest (z : Tree) (hz : z ∈ q) : z.key < 256 + m := hkeys z (by simp [hz])
  have hperm := enqueue_perm (mergeNodes m x y) q
  refine ⟨hperm, ?_, fun z hz => ?_⟩
  · exact enqueue_sorted hsorted.of_cons.of_cons fun z hz => (hkeysRest z hz).ne'
  · rcases List.mem_cons.mp (hperm.mem_iff.mp hz) with rfl | hz
    · exact Nat.lt_succ_self (256 + m)
    · exact (hkeysRest z hz).trans (Nat.lt_succ_self _)

theorem mergeLoop_singleton (n m : Nat) (x : Tree) : mergeLoop n m [x] = [x] := by
  cases n <;> rfl

theorem mergeLoop_of_buildTree {freq : Vector Word 256} {t : Tree} (h : buildTree freq = some t) :
    mergeLoop (leafQueue freq).length 0 (leafQueue freq) = [t] := by
  have hcounted : countedSymbols freq ≠ [] := by
    intro hnone
    rw [buildTree_none freq hnone] at h
    cases h
  obtain ⟨t', hbuild, -, -, -, -, hmerge⟩ := buildTree_spec freq hcounted
  obtain rfl : t' = t := Option.some.inj (hbuild.symm.trans h)
  exact hmerge

/-- Settles O34: the queue is kept in order, so its first two nodes are the least two, which the loop merges. -/
theorem mergeTakesTwoLeast : Obligations.MergeTakesTwoLeast := by
  refine ⟨fun freq => ⟨leafQueue_perm freq, leafQueue_sorted freq⟩, ?_, mergeLoop_singleton,
    fun freq t => mergeLoop_of_buildTree⟩
  intro n m x y q hsorted hkeys
  exact ⟨enqueue (mergeNodes m x y) q, rfl, enqueue_mergeNodes hsorted hkeys⟩

/-! ### Commands that lack their input (42_tree_codes.md R212, R220; 43_encode.md R240; 44_header.md R260) -/

theorem execEncode_of_noTable {s : State} (hapart : s.WindowsApart) (htable : s.tabNsym = 0) :
    execEncode s = .next (raiseError .noTable 0#32 (freeDst s)) := by
  simp [execEncode, (overlapHazard_encode s).mpr hapart, htable]

theorem execSerialize_of_noTable {s : State} (htable : s.tabNsym = 0) :
    execSerialize s = .next (raiseError .noTable 0#32 (freeDst s)) := if_pos htable

theorem execSerialize_of_noRoom {s : State} (htable : s.tabNsym ≠ 0) (hroom : s.dstCap.toNat < s.hdrSize) :
    execSerialize s = .next (raiseError .dstOverflow 0#32 (freeDst s)) := by
  rw [execSerialize, if_neg htable, if_pos hroom]

theorem execBuildTree_of_noSymbol {s : State} (h : ∀ x, s.freqOf x = 0#32) :
    execBuildTree s = .next (raiseError .emptyAlphabet 0#32 s) := if_pos ((nsym_eq_zero_iff s).mpr h)

theorem execGenCodes_of_noTree {s : State} (h : s.tree = none) :
    execGenCodes s = .next (raiseError .noTree 0#32 s) := by
  simp [execGenCodes, h]

/-- Settles O31: each command checks for its input before it does anything else. -/
theorem missingInputErrors : Obligations.MissingInputErrors :=
  ⟨fun _ => execBuildTree_of_noSymbol, fun _ => execGenCodes_of_noTree,
    fun _ htable => ⟨execSerialize_of_noTable htable,
      fun hapart => ⟨execEncode_of_noTable hapart htable, execDecode_of_noTable hapart htable⟩⟩,
    fun _ => execSerialize_of_noRoom⟩

end Sys2Proof.Machine
end

section
/-! PARSE of a malformed header (44_header.md R271; 60_exceptions.md R312, R314). -/

namespace Sys2Proof.Machine

theorem toNat_byte_pair (a b : Byte) : a.toNat * 256 + b.toNat < 2 ^ 16 := by
  have ha := a.isLt
  have hb := b.isLt
  omega

theorem beBytes_byte_pair (a b : Byte) : beBytes 2 (a.toNat * 256 + b.toNat) = [a, b] := by
  have ha := a.isLt
  have hb := b.isLt
  have hhigh : BitVec.ofNat 8 ((a.toNat * 256 + b.toNat) / 256) = a :=
    BitVec.eq_of_toNat_eq (by rw [BitVec.toNat_ofNat]; omega)
  have hlow : BitVec.ofNat 8 (a.toNat * 256 + b.toNat) = b :=
    BitVec.eq_of_toNat_eq (by rw [BitVec.toNat_ofNat]; omega)
  simp [beBytes, List.range_succ, hhigh, hlow]

/-- The first two bytes of a window are the big-endian bytes of the count they stand for (30_encoding.md R142). -/
theorem holdsAt_count (s : State) : HoldsAt s 0 (beBytes 2 ((s.srcByte 0).toNat * 256 + (s.srcByte 1).toNat)) := by
  rw [beBytes_byte_pair]
  intro k hk
  have hk2 : k = 0 ∨ k = 1 := by simp at hk; omega
  rcases hk2 with rfl | rfl <;> rfl

/-- Settles O47: the parser stops where a byte it asks for is not there, and at a count or a length out of range. -/
theorem parseMalformedHeader : Obligations.ParseMalformedHeader := by
  refine ⟨fun s bs hstart hholds hread => ?_, fun s hlen hread hcount => ?_, ?_⟩
  · have hstop {stop : Stop} (hfits : bs.length ≤ s.srcLen.toNat) (h : hdrByte s bs.length = .error stop) :=
      execParse_of_error (parseHeader_stop hstart hholds hfits hread h)
    refine ⟨fun hend => ?_, fun hlt hbus => ?_, fun hlt hbus hdevice => ?_⟩
    · exact hstop hend.ge (hdrByte_missing hend)
    · exact hstop hlt.le (hdrByte_readStop hlt (busRead_busError hbus))
    · exact hstop hlt.le (hdrByte_readStop hlt (busRead_device hbus hdevice))
  · exact execParse_of_error (parseHeader_badCount hcount (toNat_byte_pair _ _) (holdsAt_count s) hlen hread)
  · intro s es parts x count hagree hparts hlt hmax hholds hlen hread
    rw [List.append_assoc, holdsAt_append, beBytes_length] at hholds
    obtain ⟨hcountBytes, hentries⟩ := hholds
    exact execParse_of_error (parseHeader_start (by omega) hmax hcountBytes (by omega)
      (fun k hk => hread k (by omega)) (parseEntries_zero hagree hparts hentries hlen hread hlt))

end Sys2Proof.Machine
end

section
/-! The invariant of the machine: it holds at reset, and a host action, a command and a step keep it (10_state.md R72,
R75, R76; 60_exceptions.md R313, R316). -/

namespace Sys2Proof.Machine

/-! ### States that meet the invariant -/

/-- Any state with the block's reset values and a memory in canonical form meets the invariant. -/
theorem inv_of_resetValues {m : Memory} (hm : Memory.wf m = true) (p : Platform) (bs : List Beat) (v : Word) (n : Nat) :
    State.Inv { State.reset with mem := m, platform := p, beats := bs, rdata := v, draws := n } where
  memory := hm
  total := (total_of_zeroFreq rfl).trans_le (Nat.zero_le _)
  codesFit := codesFit_emptyTable
  prefixFree := prefixFree_emptyTable
  tree := nofun
  accepted := nofun
  apart := nofun
  noInfo := fun _ => rfl
  noOutput := fun herr => absurd rfl herr
  noTreeFailure := nofun

/-- Settles O57: the reset state has the reset values and an empty memory. -/
theorem invariantAtReset : Obligations.InvariantAtReset := inv_of_resetValues reset_mem_wf _ _ _ _

/-! ### Counting (41_frequency.md R195, R197) -/

/-- Counting at most SRC_LEN bytes within the overflow check keeps the total in its register. -/
theorem freqTotal_countBytes_srcSlice_le {s : State} {k : Nat} (hk : k ≤ s.srcLen.toNat)
    (hfit : s.total + s.srcLen.toNat ≤ Config.totalMax) :
    freqTotal (countBytes s.freq (srcSlice s 0 k)) ≤ Config.totalMax := by
  have hcounted : freqTotal s.freq + (srcSlice s 0 k).length ≤ Config.totalMax := by
    rw [← total_eq, srcSlice_length]
    omega
  rwa [freqTotal_countBytes _ _ hcounted]

/-! ### Host actions keep the invariant -/

section
variable {s : State} (hinv : s.Inv)
include hinv

/-- The invariant speaks of the canonical form of memory, and of nothing else outside the block. -/
theorem State.Inv.of_outside {m : Memory} (hm : Memory.wf m = true) (bs : List Beat) (v : Word) (n : Nat) :
    State.Inv { s with mem := m, beats := bs, rdata := v, draws := n } :=
  { hinv with memory := hm }

/-- Nor does it speak of IRQ_STAT. -/
theorem State.Inv.of_irqStat (v : BitVec 3) : State.Inv { s with irqStat := v } :=
  { hinv with }

/-- A register store happens on an idle block, where the invariant asks nothing of the operands. -/
theorem State.Inv.of_storeReg (hidle : s.running = none) (r : Reg) (v : Word) : (storeReg r v s).Inv := by
  have hnone (i : Instr) (hi : s.running = some i) : overlapHazard i (storeReg r v s) = false := by
    rw [hidle] at hi
    cases hi
  cases r <;> exact { hinv with apart := hnone }

/-- What an acceptance leaves but for BUSY: LAST_OP shows the word, and there is no error. -/
theorem State.Inv.of_accept {w : Word} {t : State} (h : accept w s = .next t) : t.Inv := by
  rcases accept_next h with ⟨v, -, rfl⟩ | ⟨i, hcmd, hov, rfl⟩
  · exact { hinv with
      accepted := nofun
      apart := nofun
      noInfo := nofun
      noOutput := fun _ => rfl
      noTreeFailure := nofun }
  · exact { hinv with
      accepted := fun j hj => Option.some.inj hj ▸ ⟨rfl, opField_of_cmd hcmd⟩
      apart := fun j hj => Option.some.inj hj ▸ hov
      noInfo := fun _ => rfl
      noOutput := fun herr => absurd rfl herr
      noTreeFailure := nofun }

theorem State.Inv.of_writeReg {off : Offset} {v : Word} {t : State} (h : writeReg off v s = .next t) : t.Inv := by
  rcases writeReg_next h with rfl | rfl | ⟨-, rfl⟩ | ⟨hidle, r, rfl⟩ | ⟨-, haccept⟩
  · exact hinv
  · exact hinv.of_irqStat _
  · exact hinv.of_irqStat _
  · exact hinv.of_storeReg ((not_busy_iff s).mp hidle) r v
  · exact hinv.of_accept haccept

theorem State.Inv.of_hostAct {a : HostAct} {t : State} (h : hostAct a s = .next t) : t.Inv := by
  rcases hostAct_next h with ⟨v, n, rfl⟩ | ⟨off, v, hwrite⟩ | ⟨b, c, -, rfl⟩ | ⟨-, rfl⟩
  · exact hinv.of_outside hinv.memory _ _ _
  · exact hinv.of_writeReg hwrite
  · exact hinv.of_outside (memWrite_wf hinv.memory b.isLt c) _ _ _
  · exact inv_of_resetValues (abandonRunning_mem_wf hinv.memory) _ _ _ _

/-! ### Commands keep the invariant -/

/-- The total fits its register, and a valid tree is one of the current counts: COUNT checks the total and drops the
tree, and BUILD_TREE builds one of the counts. -/
theorem exec_counts_sound {i : Instr} {t : State} (h : exec i s = .next t) :
    freqTotal t.freq ≤ Config.totalMax ∧ ∀ tr, t.tree = some tr → TreeOf t.freq tr := by
  have htotal : freqTotal s.freq ≤ Config.totalMax := total_eq s ▸ hinv.total
  obtain ⟨hfreq, -, -, htree, -⟩ := whoWritesTheTables i s t h
  cases i
  case clear =>
    obtain rfl := Host.Outcome.next.inj h
    exact ⟨freqTotal_zeroFreq.trans_le (Nat.zero_le _), nofun⟩
  case count =>
    rcases execCount_next h with ⟨-, rfl⟩ | ⟨hfit, rfl⟩ | ⟨k, hk, hfit, -, rfl⟩
    · exact ⟨htotal, hinv.tree⟩
    · exact ⟨srcBytes_eq s ▸ freqTotal_countBytes_srcSlice_le le_rfl hfit, nofun⟩
    · exact ⟨freqTotal_countBytes_srcSlice_le hk.le hfit, nofun⟩
  case buildTree =>
    rcases execBuildTree_next h with ⟨-, rfl⟩ | ⟨-, tr, -, hbuilt, rfl⟩
    · exact ⟨htotal, hinv.tree⟩
    · exact ⟨htotal, fun _ htr => Option.some.inj htr ▸ hbuilt⟩
  case genCodes =>
    rcases execGenCodes_next h with ⟨-, rfl⟩ | ⟨tr, -, rfl⟩
    · exact ⟨htotal, hinv.tree⟩
    · exact ⟨htotal, nofun⟩
  all_goals
    rw [hfreq nofun nofun, htree nofun nofun nofun nofun]
    exact ⟨htotal, hinv.tree⟩

theorem State.Inv.of_exec {i : Instr} {t : State} (h : exec i s = .next t) : t.Inv := by
  have hidle := exec_running_eq_none h
  obtain ⟨hfit, hprefix⟩ := exec_code_sound hinv h
  obtain ⟨htotal, htree⟩ := exec_counts_sound hinv h
  obtain ⟨-, -, -, -, hnoInfo, hnoOutput⟩ := completionEffects.1 i s t h
  have hnone (i : Instr) : t.running ≠ some i := by simp [hidle]
  exact {
    memory := exec_mem_wf hinv.memory h
    total := (total_eq t).trans_le htotal
    codesFit := hfit
    prefixFree := hprefix
    tree := htree
    accepted := fun i hi => absurd hi (hnone i)
    apart := fun i hi => absurd hi (hnone i)
    noInfo := hnoInfo
    noOutput := hnoOutput
    noTreeFailure := fun hcode => by
      have hmem := exec_errCode_mem hinv.memory h
      rw [hcode] at hmem
      revert hmem
      cases i <;> decide }

end

/-- Settles O58: a step is a host action or none and then a command or nothing, and each keeps the invariant. -/
theorem stepKeepsInvariant : Obligations.StepKeepsInvariant := by
  intro s t hinv hstep
  obtain ⟨u, hact, hfinish⟩ := step_next hstep
  have hbeats : State.Inv { s with beats := s.beats.tail } := hinv.of_outside hinv.memory _ _ _
  have hu : u.Inv := by
    rcases hact with rfl | rfl | ⟨a, ha⟩
    · exact hinv
    · exact hbeats
    · exact hbeats.of_hostAct ha
  rcases hfinish with rfl | ⟨i, -, hexec⟩
  · exact hu
  · exact hu.of_exec hexec

end Sys2Proof.Machine
end

section
/-! A command depends on no memory but its source window (20_memory.md R92). -/

namespace Sys2Proof.Machine

/-! ### Commands without a destination window -/

/-- The same answer with another memory in the next state. -/
def replaceMem (m : Memory) : Host.Outcome State Fault Refusal → Host.Outcome State Fault Refusal
  | .next t => .next { t with mem := m }
  | .fault f => .fault f
  | .refused r => .refused r

theorem replaceMem_stopCommand (m : Memory) (stop : Stop) (s : State) :
    replaceMem m (stopCommand stop s) = stopCommand stop { s with mem := m } := by
  cases stop <;> rfl

theorem execBuildTree_replaceMem (s : State) (m : Memory) :
    execBuildTree { s with mem := m } = replaceMem m (execBuildTree s) := by
  by_cases hnsym : s.nsym = 0
  · rw [show execBuildTree s = _ from if_pos hnsym]
    exact if_pos hnsym
  · rw [show execBuildTree s = _ from if_neg hnsym]
    exact if_neg hnsym

theorem execGenCodes_replaceMem (s : State) (m : Memory) :
    execGenCodes { s with mem := m } = replaceMem m (execGenCodes s) := by
  obtain htree | ⟨tr, htree⟩ := Option.eq_none_or_eq_some s.tree
  · rw [execGenCodes_of_noTree htree]
    exact execGenCodes_of_noTree (s := { s with mem := m }) htree
  · rw [show execGenCodes s = _ from execGenCodes_of_tree htree]
    exact execGenCodes_of_tree (s := { s with mem := m }) htree

section
variable {s : State} {f : Vector Word 256} (hfit : s.total + s.srcLen.toNat ≤ Config.totalMax)
include hfit

theorem execCount_of_counted (hloop : countLoop s s.srcLen.toNat 0 s.freq = (f, none)) :
    execCount s = .next (s.counted f) := by
  rw [execCount, if_neg (Nat.not_lt.mpr hfit), hloop]
  rfl

theorem execCount_of_loopStop {stop : Stop} (hloop : countLoop s s.srcLen.toNat 0 s.freq = (f, some stop)) :
    execCount s = stopCommand stop { s with tree := none, freq := f } := by
  rw [execCount, if_neg (Nat.not_lt.mpr hfit), hloop]

end

theorem execCount_replaceMem {s : State} {m : Memory} (h : SameSource s s.mem m) :
    execCount { s with mem := m } = replaceMem m (execCount s) := by
  by_cases hover : Config.totalMax < s.total + s.srcLen.toNat
  · rw [execCount_of_overflow hover]
    exact execCount_of_overflow (s := { s with mem := m }) hover
  have hfit := Nat.not_lt.mp hover
  have hsame := countLoop_same h (Nat.zero_add s.srcLen.toNat).le s.freq
  rcases hloop : countLoop s s.srcLen.toNat 0 s.freq with ⟨f, stop⟩
  cases stop with
  | none =>
    rw [execCount_of_counted hfit hloop]
    exact execCount_of_counted (s := { s with mem := m }) hfit (hsame.trans hloop)
  | some stop =>
    rw [execCount_of_loopStop hfit hloop, replaceMem_stopCommand]
    exact execCount_of_loopStop (s := { s with mem := m }) hfit (hsame.trans hloop)

theorem execParse_of_parsed {s : State} {hd : Header} (h : parseHeader s = .ok hd) :
    execParse s = .next (complete
      { s with
        code := tableOf hd.entries
        bitcnt := BitVec.ofNat 64 hd.total
        hdrLen := BitVec.ofNat 32 hd.len
        outLen := 0#32 }) := by
  rw [execParse, h]

theorem execParse_replaceMem {s : State} {m : Memory} (h : SameSource s s.mem m) :
    execParse { s with mem := m } = replaceMem m (execParse s) := by
  have hsame := parseHeader_same h
  cases hparse : parseHeader s with
  | ok hd =>
    rw [execParse_of_parsed hparse]
    exact execParse_of_parsed (hsame.trans hparse)
  | error stop =>
    rw [execParse_of_error hparse, replaceMem_stopCommand]
    exact execParse_of_error (hsame.trans hparse)

theorem exec_replaceMem {i : Instr} {s : State} {m : Memory} (hwrites : writesDst i = false)
    (hsrc : readsSrc i = true → SameSource s s.mem m) : exec i { s with mem := m } = replaceMem m (exec i s) := by
  cases i
  case clear => rfl
  case count => exact execCount_replaceMem (hsrc rfl)
  case buildTree => exact execBuildTree_replaceMem s m
  case genCodes => exact execGenCodes_replaceMem s m
  case parse => exact execParse_replaceMem (hsrc rfl)
  all_goals cases hwrites

/-! ### Commands with a destination window -/

/-- The two states differ in memory alone, and not in the OUT_LEN bytes written. -/
def SameButMemory (t t' : State) : Prop :=
  ∃ m, t' = { t with mem := m } ∧ ∀ j, j < t.outLen.toNat → memRead m (t.dst j).toNat = t.dstByte j

theorem sameButMemory_of_outLen_zero {t : State} (h : t.outLen = 0#32) (m : Memory) :
    SameButMemory t { t with mem := m } :=
  ⟨m, rfl, fun j hj => by simp [h] at hj⟩

/-- Errors with the window freed differ in memory alone. -/
theorem sameButMemory_freed (e : ErrCode) (info : Word) (s : State) (m : Memory) :
    SameButMemory (raiseError e info (freeDst s)) (raiseError e info (freeDst { s with mem := m })) :=
  sameButMemory_of_outLen_zero rfl _

theorem sameButMemory_of_stopped {s t : State} {stop : Stop} (h : stopCommand stop (freeDst s) = .next t) (m : Memory) :
    ∃ t', stopCommand stop (freeDst { s with mem := m }) = .next t' ∧ SameButMemory t t' := by
  obtain ⟨e, info, rfl, rfl⟩ := stopCommand_next h
  exact ⟨_, rfl, sameButMemory_freed e info s m⟩

theorem lt_of_lt_toNat_ofNat {j n : Nat} (h : j < (BitVec.ofNat 32 n).toNat) : j < n :=
  h.trans_le (by rw [BitVec.toNat_ofNat]; exact Nat.mod_le n _)

theorem srcBytes_same {s : State} {m : Memory} (h : SameSource s s.mem m) :
    ({ s with mem := m } : State).srcBytes = s.srcBytes :=
  List.map_congr_left fun k hk => (h.src k (List.mem_range.mp hk)).symm

section
variable {s t : State} {m : Memory}

theorem execEncode_same (hsrc : SameSource s s.mem m) (h : execEncode s = .next t) :
    ∃ t', execEncode { s with mem := m } = .next t' ∧ SameButMemory t t' := by
  obtain ⟨hapart, -⟩ := execEncode_next hsrc.wf₁ h
  by_cases htable : s.tabNsym = 0
  · obtain rfl := Host.Outcome.next.inj (h.symm.trans (execEncode_of_noTable hapart htable))
    exact ⟨_, execEncode_of_noTable (s := { s with mem := m }) hapart htable, sameButMemory_freed _ _ s m⟩
  · have hpack := packWindow_same hsrc
    generalize hp : packWindow s = r at hpack
    generalize hq : packWindow { s with mem := m } = r' at hpack
    cases hpack with
    | error stop =>
      rw [execEncode_of_stopped hapart htable hp] at h
      rw [execEncode_of_stopped (s := { s with mem := m }) hapart htable hq]
      exact sameButMemory_of_stopped h m
    | @ok p q hpq =>
      obtain rfl := Host.Outcome.next.inj (h.symm.trans (execEncode_of_packed hapart htable hp))
      obtain ⟨hbits, hpayload, -⟩ := packWindow_payload hsrc.wf₁ hapart hp
      obtain ⟨-, hpayload', -⟩ := packWindow_payload (s := { s with mem := m }) hsrc.wf₂ hapart hq
      rw [srcBytes_same hsrc] at hpayload'
      refine ⟨_, execEncode_of_packed (s := { s with mem := m }) hapart htable hq, q.mem, by rw [hpq.n]; rfl,
        fun j hj => ?_⟩
      have hlt : j < ceil8 (codeBits s.code s.srcBytes).length := hbits ▸ lt_of_lt_toNat_ofNat hj
      exact (hpayload'.bytes j hlt).trans (hpayload.bytes j hlt).symm

theorem execSerialize_same (hm : Memory.wf s.mem = true) (hm' : Memory.wf m = true) (h : execSerialize s = .next t) :
    ∃ t', execSerialize { s with mem := m } = .next t' ∧ SameButMemory t t' := by
  by_cases htable : s.tabNsym = 0
  · obtain rfl := Host.Outcome.next.inj (h.symm.trans (execSerialize_of_noTable htable))
    exact ⟨_, execSerialize_of_noTable (s := { s with mem := m }) htable, sameButMemory_freed _ _ s m⟩
  by_cases hroom : s.dstCap.toNat < s.hdrSize
  · obtain rfl := Host.Outcome.next.inj (h.symm.trans (execSerialize_of_noRoom htable hroom))
    exact ⟨_, execSerialize_of_noRoom (s := { s with mem := m }) htable hroom, sameButMemory_freed _ _ s m⟩
  have hroom' : s.hdrSize ≤ s.dstCap.toNat := Nat.not_lt.mp hroom
  have hemit := emitBytes_same (s := s) (m := m) (m₁ := s.mem) (m₂ := m) (headerBytes s.entries s.bitcnt.toNat) 0
  generalize hp : emitBytes s (headerBytes s.entries s.bitcnt.toNat) 0 s.mem = r at hemit
  generalize hq : emitBytes { s with mem := m } (headerBytes s.entries s.bitcnt.toNat) 0 m = r' at hemit
  cases hemit with
  | error stop =>
    rw [execSerialize_of_stopped htable hroom' hp] at h
    rw [execSerialize_of_stopped (s := { s with mem := m }) htable hroom' hq]
    exact sameButMemory_of_stopped h m
  | @ok m₁ m₂ _ =>
    obtain rfl := Host.Outcome.next.inj (h.symm.trans (execSerialize_of_emitted htable hroom' hp))
    have hlen := hdrSize_eq s htable s.bitcnt.toNat
    have hfits : 0 + (headerBytes s.entries s.bitcnt.toNat).length ≤ s.dstCap.toNat := by omega
    obtain ⟨-, hbytes, -⟩ := emitBytes_eq_ok hm hfits hp
    obtain ⟨-, hbytes', -⟩ := emitBytes_eq_ok (s := { s with mem := m }) hm' hfits hq
    simp only [Nat.zero_add] at hbytes hbytes'
    refine ⟨_, execSerialize_of_emitted (s := { s with mem := m }) htable hroom' hq, m₂, rfl, fun j hj => ?_⟩
    have hlt : j < (headerBytes s.entries s.bitcnt.toNat).length := hlen ▸ lt_of_lt_toNat_ofNat hj
    exact (hbytes' j hlt).trans (hbytes j hlt).symm

theorem execDecode_same (hsrc : SameSource s s.mem m) (h : execDecode s = .next t) :
    ∃ t', execDecode { s with mem := m } = .next t' ∧ SameButMemory t t' := by
  obtain ⟨hapart, -⟩ := execDecode_next hsrc.wf₁ h
  by_cases htable : s.tabNsym = 0
  · obtain rfl := Host.Outcome.next.inj (h.symm.trans (execDecode_of_noTable hapart htable))
    exact ⟨_, execDecode_of_noTable (s := { s with mem := m }) hapart htable, sameButMemory_freed _ _ s m⟩
  by_cases hlen : s.srcLen.toNat = ceil8 s.bitcnt.toNat
  swap
  · obtain rfl := Host.Outcome.next.inj (h.symm.trans (execDecode_of_wrongLength hapart htable hlen))
    exact ⟨_, execDecode_of_wrongLength (s := { s with mem := m }) hapart htable hlen, sameButMemory_freed _ _ s m⟩
  have hunpack := unpackWindow_same hsrc (bitcnt_le_of_srcLen hlen)
  generalize hp : unpackWindow s = r at hunpack
  generalize hq : unpackWindow { s with mem := m } = r' at hunpack
  cases hunpack with
  | error stop =>
    rw [execDecode_of_stopped hapart htable hlen hp] at h
    rw [execDecode_of_stopped (s := { s with mem := m }) hapart htable hlen hq]
    exact sameButMemory_of_stopped h m
  | @ok u v huv =>
    obtain rfl := Host.Outcome.next.inj (h.symm.trans (execDecode_of_unpacked hapart htable hlen hp))
    exact ⟨_, execDecode_of_unpacked (s := { s with mem := m }) hapart htable hlen hq, v.mem, by rw [huv.j]; rfl,
      fun j hj => (huv.bytes j (lt_of_lt_toNat_ofNat hj)).symm⟩

end

/-- Settles O59: a command without a destination window leaves each memory as it is; of the others, both runs pack, emit
or unpack alike, so they stop alike or store the same bytes. -/
theorem readsOnlySourceWindow : Obligations.ReadsOnlySourceWindow := by
  intro i s t m hm hm' hsrc h
  have hsame (hreads : readsSrc i = true) : SameSource s s.mem m := ⟨hm, hm', fun k hk => (hsrc hreads k hk).symm⟩
  have halike : ∃ t', exec i { s with mem := m } = .next t' ∧ SameButMemory t t' := by
    cases hwrites : writesDst i with
    | false =>
      obtain ⟨-, -, houtLen⟩ := exec_frame_of_no_window hwrites h
      refine ⟨_, ?_, sameButMemory_of_outLen_zero houtLen m⟩
      rw [exec_replaceMem hwrites hsame, h]
      rfl
    | true =>
      rcases (writesDst_iff i).mp hwrites with rfl | rfl | rfl
      · exact execEncode_same (hsame rfl) h
      · exact execSerialize_same hm hm' h
      · exact execDecode_same (hsame rfl) h
  obtain ⟨_, hexec, m', rfl, hbytes⟩ := halike
  have hdst (j : Nat) : t.dst j = s.dst j := by rw [State.dst, (exec_commandFrame hm h).dstAddr]; rfl
  exact ⟨m', hexec, fun j hj => hdst j ▸ hbytes j hj⟩

end Sys2Proof.Machine
end
